-- ==== Sys2Proof/Word.lean ====
section
/-! DEFINITION. The word types of SLOW-32 and the three access widths (spec/00_scope.md R5, R7; spec/20_memory.md R53). -/

namespace Sys2Proof

/-- A byte: 8 bits (R7). -/
abbrev Byte := BitVec 8

/-- A word: 32 bits, the width of a register, an address, the pc and an instruction (R5, R7). -/
abbrev Word := BitVec 32

/-- A general register's number, 0 to 31 (R21). -/
abbrev Reg := Fin 32

/-- The three widths of a data access: 1, 2 or 4 bytes (R53). -/
inductive Width where
  | byte
  | half
  | word
  deriving DecidableEq, Repr

/-- How many bytes an access of this width moves (R53). -/
def Width.bytes : Width → Nat
  | .byte => 1
  | .half => 2
  | .word => 4

end Sys2Proof
end

