-- ==== Sys2Proof/Syntax.lean ====
section
/-! DEFINITION. The instructions of SLOW-32 as syntax: one constructor for each of the 53 rows of spec/opcode_table.json
(spec/00_scope.md R2), with the operands its format carries (spec/30_encoding.md R72 to R78). Immediates are the fields as
R80 to R84 assemble them, not yet widened. -/

namespace Sys2Proof

/-- The 53 native instructions, in the order of R86's list. `rd`, `rs1` and `rs2` are register numbers (R71); a branch offset
has 13 bits and a JAL offset 21, both with bit 0 equal to 0 (R82, R84); the LUI field has 20 bits (R83). -/
inductive Instr where
  | add (rd rs1 rs2 : Reg)
  | sub (rd rs1 rs2 : Reg)
  | xor (rd rs1 rs2 : Reg)
  | or (rd rs1 rs2 : Reg)
  | and (rd rs1 rs2 : Reg)
  | sll (rd rs1 rs2 : Reg)
  | srl (rd rs1 rs2 : Reg)
  | sra (rd rs1 rs2 : Reg)
  | slt (rd rs1 rs2 : Reg)
  | sltu (rd rs1 rs2 : Reg)
  | mul (rd rs1 rs2 : Reg)
  | mulh (rd rs1 rs2 : Reg)
  | div (rd rs1 rs2 : Reg)
  | rem (rd rs1 rs2 : Reg)
  | seq (rd rs1 rs2 : Reg)
  | sne (rd rs1 rs2 : Reg)
  | addi (rd rs1 : Reg) (imm : BitVec 12)
  | ori (rd rs1 : Reg) (imm : BitVec 12)
  | andi (rd rs1 : Reg) (imm : BitVec 12)
  | slli (rd rs1 : Reg) (imm : BitVec 12)
  | srli (rd rs1 : Reg) (imm : BitVec 12)
  | srai (rd rs1 : Reg) (imm : BitVec 12)
  | slti (rd rs1 : Reg) (imm : BitVec 12)
  | sltiu (rd rs1 : Reg) (imm : BitVec 12)
  | sgt (rd rs1 rs2 : Reg)
  | sgtu (rd rs1 rs2 : Reg)
  | sle (rd rs1 rs2 : Reg)
  | sleu (rd rs1 rs2 : Reg)
  | sge (rd rs1 rs2 : Reg)
  | sgeu (rd rs1 rs2 : Reg)
  | xori (rd rs1 : Reg) (imm : BitVec 12)
  | lui (rd : Reg) (imm : BitVec 20)
  | ldb (rd rs1 : Reg) (imm : BitVec 12)
  | ldh (rd rs1 : Reg) (imm : BitVec 12)
  | ldw (rd rs1 : Reg) (imm : BitVec 12)
  | ldbu (rd rs1 : Reg) (imm : BitVec 12)
  | ldhu (rd rs1 : Reg) (imm : BitVec 12)
  | stb (rs1 rs2 : Reg) (imm : BitVec 12)
  | sth (rs1 rs2 : Reg) (imm : BitVec 12)
  | stw (rs1 rs2 : Reg) (imm : BitVec 12)
  | assertEq (rs1 rs2 : Reg)
  | jal (rd : Reg) (imm : BitVec 21)
  | jalr (rd rs1 : Reg) (imm : BitVec 12)
  | beq (rs1 rs2 : Reg) (imm : BitVec 13)
  | bne (rs1 rs2 : Reg) (imm : BitVec 13)
  | blt (rs1 rs2 : Reg) (imm : BitVec 13)
  | bge (rs1 rs2 : Reg) (imm : BitVec 13)
  | bltu (rs1 rs2 : Reg) (imm : BitVec 13)
  | bgeu (rs1 rs2 : Reg) (imm : BitVec 13)
  | nop
  | yield
  | debug (rs1 : Reg)
  | halt
  deriving DecidableEq, Repr

/-- The register an instruction's encoding names as its destination, if it has one (R24). -/
def Instr.dest : Instr → Option Reg
  | .add rd _ _ | .sub rd _ _ | .xor rd _ _ | .or rd _ _ | .and rd _ _ => some rd
  | .sll rd _ _ | .srl rd _ _ | .sra rd _ _ | .slt rd _ _ | .sltu rd _ _ => some rd
  | .mul rd _ _ | .mulh rd _ _ | .div rd _ _ | .rem rd _ _ => some rd
  | .seq rd _ _ | .sne rd _ _ => some rd
  | .addi rd _ _ | .ori rd _ _ | .andi rd _ _ | .xori rd _ _ => some rd
  | .slli rd _ _ | .srli rd _ _ | .srai rd _ _ | .slti rd _ _ | .sltiu rd _ _ => some rd
  | .sgt rd _ _ | .sgtu rd _ _ | .sle rd _ _ | .sleu rd _ _ | .sge rd _ _ | .sgeu rd _ _ => some rd
  | .lui rd _ | .jal rd _ | .jalr rd _ _ => some rd
  | .ldb rd _ _ | .ldh rd _ _ | .ldw rd _ _ | .ldbu rd _ _ | .ldhu rd _ _ => some rd
  | .stb _ _ _ | .sth _ _ _ | .stw _ _ _ => none
  | .beq _ _ _ | .bne _ _ _ | .blt _ _ _ | .bge _ _ _ | .bltu _ _ _ | .bgeu _ _ _ => none
  | .assertEq _ _ | .nop | .yield | .debug _ | .halt => none

/-- The registers an instruction reads (R24). -/
def Instr.sources : Instr → List Reg
  | .add _ a b | .sub _ a b | .xor _ a b | .or _ a b | .and _ a b => [a, b]
  | .sll _ a b | .srl _ a b | .sra _ a b | .slt _ a b | .sltu _ a b => [a, b]
  | .mul _ a b | .mulh _ a b | .div _ a b | .rem _ a b | .seq _ a b | .sne _ a b => [a, b]
  | .sgt _ a b | .sgtu _ a b | .sle _ a b | .sleu _ a b | .sge _ a b | .sgeu _ a b => [a, b]
  | .addi _ a _ | .ori _ a _ | .andi _ a _ | .xori _ a _ => [a]
  | .slli _ a _ | .srli _ a _ | .srai _ a _ | .slti _ a _ | .sltiu _ a _ => [a]
  | .ldb _ a _ | .ldh _ a _ | .ldw _ a _ | .ldbu _ a _ | .ldhu _ a _ | .jalr _ a _ => [a]
  | .stb a b _ | .sth a b _ | .stw a b _ => [a, b]
  | .beq a b _ | .bne a b _ | .blt a b _ | .bge a b _ | .bltu a b _ | .bgeu a b _ => [a, b]
  | .assertEq a b => [a, b]
  | .debug a => [a]
  | .lui _ _ | .jal _ _ | .nop | .yield | .halt => []

end Sys2Proof
end

