-- ==== Sys2Proof/WellFormed.lean ====
section
/-! DEFINITION. When an instruction of the syntax has an encoding: the one bound its types do not already carry is that branch
and JAL offsets are multiples of 2 (spec/30_encoding.md R82, R84, R85). -/

namespace Sys2Proof

/-- Bit 0 of the offset, which the B and J formats do not store, is 0 (R82, R84). -/
def evenOffset {n : Nat} (imm : BitVec n) : Bool := !imm.getLsbD 0

/-- The well-formed instructions: those some word encodes. -/
def Instr.wf : Instr → Bool
  | .beq _ _ imm | .bne _ _ imm | .blt _ _ imm | .bge _ _ imm | .bltu _ _ imm | .bgeu _ _ imm => evenOffset imm
  | .jal _ imm => evenOffset imm
  | .add _ _ _ | .sub _ _ _ | .xor _ _ _ | .or _ _ _ | .and _ _ _ | .sll _ _ _ | .srl _ _ _ | .sra _ _ _ => true
  | .slt _ _ _ | .sltu _ _ _ | .mul _ _ _ | .mulh _ _ _ | .div _ _ _ | .rem _ _ _ | .seq _ _ _ | .sne _ _ _ => true
  | .addi _ _ _ | .ori _ _ _ | .andi _ _ _ | .slli _ _ _ | .srli _ _ _ | .srai _ _ _ => true
  | .slti _ _ _ | .sltiu _ _ _ | .xori _ _ _ | .jalr _ _ _ | .lui _ _ => true
  | .sgt _ _ _ | .sgtu _ _ _ | .sle _ _ _ | .sleu _ _ _ | .sge _ _ _ | .sgeu _ _ _ => true
  | .ldb _ _ _ | .ldh _ _ _ | .ldw _ _ _ | .ldbu _ _ _ | .ldhu _ _ _ => true
  | .stb _ _ _ | .sth _ _ _ | .stw _ _ _ => true
  | .assertEq _ _ | .nop | .yield | .debug _ | .halt => true

end Sys2Proof
end

