-- ==== Sys2Proof/Decode.lean ====
section
/-! DEFINITION. The decoder, total on every word and on every list of bytes, and the encoder
(spec/30_encoding.md R70 to R90; byte order spec/20_memory.md R46). Both are written from the six format lines R72 to R77 and
the opcode map R86, separately. -/

namespace Sys2Proof

/-! ## Fields (R71) -/

/-- `w[6:0]`, which alone selects the instruction (R70, R79). -/
def opcodeOf (w : Word) : BitVec 7 := w.extractLsb' 0 7

/-- `rd = w[11:7]` (R71). -/
def rdOf (w : Word) : Reg := (w.extractLsb' 7 5).toFin

/-- `rs1 = w[19:15]` (R71). -/
def rs1Of (w : Word) : Reg := (w.extractLsb' 15 5).toFin

/-- `rs2 = w[24:20]` (R71). -/
def rs2Of (w : Word) : Reg := (w.extractLsb' 20 5).toFin

/-- `immI = w[31:20]` (R80). -/
def immI (w : Word) : BitVec 12 := w.extractLsb' 20 12

/-- `immS = w[31:25] ++ w[11:7]` (R81). -/
def immS (w : Word) : BitVec 12 := w.extractLsb' 25 7 ++ w.extractLsb' 7 5

/-- `immB = w[31] ++ w[7] ++ w[30:25] ++ w[11:8] ++ 0` (R82). -/
def immB (w : Word) : BitVec 13 :=
  w.extractLsb' 31 1 ++ w.extractLsb' 7 1 ++ w.extractLsb' 25 6 ++ w.extractLsb' 8 4 ++ 0#1

/-- The 20-bit field `w[31:12]` of LUI (R83). -/
def immU (w : Word) : BitVec 20 := w.extractLsb' 12 20

/-- `immJ = w[31] ++ w[19:12] ++ w[20] ++ w[30:21] ++ 0` (R84). -/
def immJ (w : Word) : BitVec 21 :=
  w.extractLsb' 31 1 ++ w.extractLsb' 12 8 ++ w.extractLsb' 20 1 ++ w.extractLsb' 21 10 ++ 0#1

/-! ## Decoding a word (R86, R90) -/

/-- What a word decodes to: an instruction, or `Illegal(w)` when its opcode is one of the 75 unlisted ones (R87, R90). -/
inductive Decoded where
  | ok (i : Instr)
  | illegal (w : Word)
  deriving DecidableEq, Repr

/-- The instruction an opcode selects, with the fields its format takes from the word (R86); every other bit is dropped
(R79, R88). -/
def decodeOpcode (op : Nat) (w : Word) : Decoded :=
  match op with
  | 0x00 => .ok (.add (rdOf w) (rs1Of w) (rs2Of w))
  | 0x01 => .ok (.sub (rdOf w) (rs1Of w) (rs2Of w))
  | 0x02 => .ok (.xor (rdOf w) (rs1Of w) (rs2Of w))
  | 0x03 => .ok (.or (rdOf w) (rs1Of w) (rs2Of w))
  | 0x04 => .ok (.and (rdOf w) (rs1Of w) (rs2Of w))
  | 0x05 => .ok (.sll (rdOf w) (rs1Of w) (rs2Of w))
  | 0x06 => .ok (.srl (rdOf w) (rs1Of w) (rs2Of w))
  | 0x07 => .ok (.sra (rdOf w) (rs1Of w) (rs2Of w))
  | 0x08 => .ok (.slt (rdOf w) (rs1Of w) (rs2Of w))
  | 0x09 => .ok (.sltu (rdOf w) (rs1Of w) (rs2Of w))
  | 0x0A => .ok (.mul (rdOf w) (rs1Of w) (rs2Of w))
  | 0x0B => .ok (.mulh (rdOf w) (rs1Of w) (rs2Of w))
  | 0x0C => .ok (.div (rdOf w) (rs1Of w) (rs2Of w))
  | 0x0D => .ok (.rem (rdOf w) (rs1Of w) (rs2Of w))
  | 0x0E => .ok (.seq (rdOf w) (rs1Of w) (rs2Of w))
  | 0x0F => .ok (.sne (rdOf w) (rs1Of w) (rs2Of w))
  | 0x10 => .ok (.addi (rdOf w) (rs1Of w) (immI w))
  | 0x11 => .ok (.ori (rdOf w) (rs1Of w) (immI w))
  | 0x12 => .ok (.andi (rdOf w) (rs1Of w) (immI w))
  | 0x13 => .ok (.slli (rdOf w) (rs1Of w) (immI w))
  | 0x14 => .ok (.srli (rdOf w) (rs1Of w) (immI w))
  | 0x15 => .ok (.srai (rdOf w) (rs1Of w) (immI w))
  | 0x16 => .ok (.slti (rdOf w) (rs1Of w) (immI w))
  | 0x17 => .ok (.sltiu (rdOf w) (rs1Of w) (immI w))
  | 0x18 => .ok (.sgt (rdOf w) (rs1Of w) (rs2Of w))
  | 0x19 => .ok (.sgtu (rdOf w) (rs1Of w) (rs2Of w))
  | 0x1A => .ok (.sle (rdOf w) (rs1Of w) (rs2Of w))
  | 0x1B => .ok (.sleu (rdOf w) (rs1Of w) (rs2Of w))
  | 0x1C => .ok (.sge (rdOf w) (rs1Of w) (rs2Of w))
  | 0x1D => .ok (.sgeu (rdOf w) (rs1Of w) (rs2Of w))
  | 0x1E => .ok (.xori (rdOf w) (rs1Of w) (immI w))
  | 0x20 => .ok (.lui (rdOf w) (immU w))
  | 0x30 => .ok (.ldb (rdOf w) (rs1Of w) (immI w))
  | 0x31 => .ok (.ldh (rdOf w) (rs1Of w) (immI w))
  | 0x32 => .ok (.ldw (rdOf w) (rs1Of w) (immI w))
  | 0x33 => .ok (.ldbu (rdOf w) (rs1Of w) (immI w))
  | 0x34 => .ok (.ldhu (rdOf w) (rs1Of w) (immI w))
  | 0x38 => .ok (.stb (rs1Of w) (rs2Of w) (immS w))
  | 0x39 => .ok (.sth (rs1Of w) (rs2Of w) (immS w))
  | 0x3A => .ok (.stw (rs1Of w) (rs2Of w) (immS w))
  | 0x3F => .ok (.assertEq (rs1Of w) (rs2Of w))
  | 0x40 => .ok (.jal (rdOf w) (immJ w))
  | 0x41 => .ok (.jalr (rdOf w) (rs1Of w) (immI w))
  | 0x48 => .ok (.beq (rs1Of w) (rs2Of w) (immB w))
  | 0x49 => .ok (.bne (rs1Of w) (rs2Of w) (immB w))
  | 0x4A => .ok (.blt (rs1Of w) (rs2Of w) (immB w))
  | 0x4B => .ok (.bge (rs1Of w) (rs2Of w) (immB w))
  | 0x4C => .ok (.bltu (rs1Of w) (rs2Of w) (immB w))
  | 0x4D => .ok (.bgeu (rs1Of w) (rs2Of w) (immB w))
  | 0x50 => .ok .nop
  | 0x51 => .ok .yield
  | 0x52 => .ok (.debug (rs1Of w))
  | 0x7F => .ok .halt
  | _ => .illegal w

/-- The decoder of R90, total on every word. -/
def decodeWord (w : Word) : Decoded := decodeOpcode (opcodeOf w).toNat w

/-! ## Decoding bytes (R46) -/

/-- The word at four bytes, the first at the lowest address: `byte(a+3) ++ byte(a+2) ++ byte(a+1) ++ byte(a)` (R46). -/
def wordOfBytes (b0 b1 b2 b3 : Byte) : Word := b3 ++ b2 ++ b1 ++ b0

/-- The four bytes of a word, lowest address first (R46). -/
def bytesOfWord (w : Word) : List Byte :=
  [w.extractLsb' 0 8, w.extractLsb' 8 8, w.extractLsb' 16 8, w.extractLsb' 24 8]

/-- What a list of bytes decodes to: an instruction and the bytes after it, an illegal word, or fewer bytes than the one
instruction length (R70). -/
inductive BytesDecoded where
  | instr (i : Instr) (rest : List Byte)
  | illegal (w : Word)
  | tooShort
  deriving DecidableEq, Repr

/-- The decoder on bytes, total. -/
def decodeBytes : List Byte → BytesDecoded
  | b0 :: b1 :: b2 :: b3 :: rest =>
    match decodeWord (wordOfBytes b0 b1 b2 b3) with
    | .ok i => .instr i rest
    | .illegal w => .illegal w
  | [] | [_] | [_, _] | [_, _, _] => .tooShort

/-- The instruction the decoder reads from the word `w` whose low `nbits` bits are given and whose other bits are 0. Bit 0 of
the table is bit 0 of the word, whose bytes lie in memory as R46 says. -/
def decodeTableWord (nbits w : Nat) : Option Instr :=
  match decodeBytes (bytesOfWord (BitVec.ofNat 32 (w % 2 ^ nbits))) with
  | .instr i _ => some i
  | .illegal _ | .tooShort => none

/-! ## Encoding: the canonical word, every unused bit 0 (R88) -/

/-- R-type, R72; also the words of ASSERT_EQ, DEBUG, YIELD, NOP and HALT, with the fields they do not use 0 (R78, R88). -/
def wordR (op : BitVec 7) (rd rs1 rs2 : Reg) : Word :=
  0#7 ++ BitVec.ofFin (w := 5) rs2 ++ BitVec.ofFin (w := 5) rs1 ++ 0#3 ++ BitVec.ofFin (w := 5) rd ++ op

/-- I-type, R73. -/
def wordI (op : BitVec 7) (rd rs1 : Reg) (imm : BitVec 12) : Word :=
  imm ++ BitVec.ofFin (w := 5) rs1 ++ 0#3 ++ BitVec.ofFin (w := 5) rd ++ op

/-- S-type, R74 and R81. -/
def wordS (op : BitVec 7) (rs1 rs2 : Reg) (imm : BitVec 12) : Word :=
  imm.extractLsb' 5 7 ++ BitVec.ofFin (w := 5) rs2 ++ BitVec.ofFin (w := 5) rs1 ++ 0#3 ++ imm.extractLsb' 0 5 ++ op

/-- B-type, R75 and R82. -/
def wordB (op : BitVec 7) (rs1 rs2 : Reg) (imm : BitVec 13) : Word :=
  imm.extractLsb' 12 1 ++ imm.extractLsb' 5 6 ++ BitVec.ofFin (w := 5) rs2 ++ BitVec.ofFin (w := 5) rs1 ++ 0#3 ++
    imm.extractLsb' 1 4 ++ imm.extractLsb' 11 1 ++ op

/-- U-type, R76. -/
def wordU (op : BitVec 7) (rd : Reg) (imm : BitVec 20) : Word :=
  imm ++ BitVec.ofFin (w := 5) rd ++ op

/-- J-type, R77 and R84. -/
def wordJ (op : BitVec 7) (rd : Reg) (imm : BitVec 21) : Word :=
  imm.extractLsb' 20 1 ++ imm.extractLsb' 1 10 ++ imm.extractLsb' 11 1 ++ imm.extractLsb' 12 8 ++
    BitVec.ofFin (w := 5) rd ++ op

/-- The canonical word of an instruction, from the list of R86. -/
def encode : Instr → Word
  | .add rd rs1 rs2 => wordR 0x00 rd rs1 rs2
  | .sub rd rs1 rs2 => wordR 0x01 rd rs1 rs2
  | .xor rd rs1 rs2 => wordR 0x02 rd rs1 rs2
  | .or rd rs1 rs2 => wordR 0x03 rd rs1 rs2
  | .and rd rs1 rs2 => wordR 0x04 rd rs1 rs2
  | .sll rd rs1 rs2 => wordR 0x05 rd rs1 rs2
  | .srl rd rs1 rs2 => wordR 0x06 rd rs1 rs2
  | .sra rd rs1 rs2 => wordR 0x07 rd rs1 rs2
  | .slt rd rs1 rs2 => wordR 0x08 rd rs1 rs2
  | .sltu rd rs1 rs2 => wordR 0x09 rd rs1 rs2
  | .mul rd rs1 rs2 => wordR 0x0A rd rs1 rs2
  | .mulh rd rs1 rs2 => wordR 0x0B rd rs1 rs2
  | .div rd rs1 rs2 => wordR 0x0C rd rs1 rs2
  | .rem rd rs1 rs2 => wordR 0x0D rd rs1 rs2
  | .seq rd rs1 rs2 => wordR 0x0E rd rs1 rs2
  | .sne rd rs1 rs2 => wordR 0x0F rd rs1 rs2
  | .addi rd rs1 imm => wordI 0x10 rd rs1 imm
  | .ori rd rs1 imm => wordI 0x11 rd rs1 imm
  | .andi rd rs1 imm => wordI 0x12 rd rs1 imm
  | .slli rd rs1 imm => wordI 0x13 rd rs1 imm
  | .srli rd rs1 imm => wordI 0x14 rd rs1 imm
  | .srai rd rs1 imm => wordI 0x15 rd rs1 imm
  | .slti rd rs1 imm => wordI 0x16 rd rs1 imm
  | .sltiu rd rs1 imm => wordI 0x17 rd rs1 imm
  | .sgt rd rs1 rs2 => wordR 0x18 rd rs1 rs2
  | .sgtu rd rs1 rs2 => wordR 0x19 rd rs1 rs2
  | .sle rd rs1 rs2 => wordR 0x1A rd rs1 rs2
  | .sleu rd rs1 rs2 => wordR 0x1B rd rs1 rs2
  | .sge rd rs1 rs2 => wordR 0x1C rd rs1 rs2
  | .sgeu rd rs1 rs2 => wordR 0x1D rd rs1 rs2
  | .xori rd rs1 imm => wordI 0x1E rd rs1 imm
  | .lui rd imm => wordU 0x20 rd imm
  | .ldb rd rs1 imm => wordI 0x30 rd rs1 imm
  | .ldh rd rs1 imm => wordI 0x31 rd rs1 imm
  | .ldw rd rs1 imm => wordI 0x32 rd rs1 imm
  | .ldbu rd rs1 imm => wordI 0x33 rd rs1 imm
  | .ldhu rd rs1 imm => wordI 0x34 rd rs1 imm
  | .stb rs1 rs2 imm => wordS 0x38 rs1 rs2 imm
  | .sth rs1 rs2 imm => wordS 0x39 rs1 rs2 imm
  | .stw rs1 rs2 imm => wordS 0x3A rs1 rs2 imm
  | .assertEq rs1 rs2 => wordR 0x3F 0 rs1 rs2
  | .jal rd imm => wordJ 0x40 rd imm
  | .jalr rd rs1 imm => wordI 0x41 rd rs1 imm
  | .beq rs1 rs2 imm => wordB 0x48 rs1 rs2 imm
  | .bne rs1 rs2 imm => wordB 0x49 rs1 rs2 imm
  | .blt rs1 rs2 imm => wordB 0x4A rs1 rs2 imm
  | .bge rs1 rs2 imm => wordB 0x4B rs1 rs2 imm
  | .bltu rs1 rs2 imm => wordB 0x4C rs1 rs2 imm
  | .bgeu rs1 rs2 imm => wordB 0x4D rs1 rs2 imm
  | .nop => wordR 0x50 0 0 0
  | .yield => wordR 0x51 0 0 0
  | .debug rs1 => wordR 0x52 0 rs1 0
  | .halt => wordR 0x7F 0 0 0

/-- The bytes of an instruction as they lie in memory (R46). -/
def encodeBytes (i : Instr) : List Byte := bytesOfWord (encode i)

/-- The opcode R86 lists for an instruction. -/
def Instr.opcode : Instr → BitVec 7
  | .add _ _ _ => 0x00
  | .sub _ _ _ => 0x01
  | .xor _ _ _ => 0x02
  | .or _ _ _ => 0x03
  | .and _ _ _ => 0x04
  | .sll _ _ _ => 0x05
  | .srl _ _ _ => 0x06
  | .sra _ _ _ => 0x07
  | .slt _ _ _ => 0x08
  | .sltu _ _ _ => 0x09
  | .mul _ _ _ => 0x0A
  | .mulh _ _ _ => 0x0B
  | .div _ _ _ => 0x0C
  | .rem _ _ _ => 0x0D
  | .seq _ _ _ => 0x0E
  | .sne _ _ _ => 0x0F
  | .addi _ _ _ => 0x10
  | .ori _ _ _ => 0x11
  | .andi _ _ _ => 0x12
  | .slli _ _ _ => 0x13
  | .srli _ _ _ => 0x14
  | .srai _ _ _ => 0x15
  | .slti _ _ _ => 0x16
  | .sltiu _ _ _ => 0x17
  | .sgt _ _ _ => 0x18
  | .sgtu _ _ _ => 0x19
  | .sle _ _ _ => 0x1A
  | .sleu _ _ _ => 0x1B
  | .sge _ _ _ => 0x1C
  | .sgeu _ _ _ => 0x1D
  | .xori _ _ _ => 0x1E
  | .lui _ _ => 0x20
  | .ldb _ _ _ => 0x30
  | .ldh _ _ _ => 0x31
  | .ldw _ _ _ => 0x32
  | .ldbu _ _ _ => 0x33
  | .ldhu _ _ _ => 0x34
  | .stb _ _ _ => 0x38
  | .sth _ _ _ => 0x39
  | .stw _ _ _ => 0x3A
  | .assertEq _ _ => 0x3F
  | .jal _ _ => 0x40
  | .jalr _ _ _ => 0x41
  | .beq _ _ _ => 0x48
  | .bne _ _ _ => 0x49
  | .blt _ _ _ => 0x4A
  | .bge _ _ _ => 0x4B
  | .bltu _ _ _ => 0x4C
  | .bgeu _ _ _ => 0x4D
  | .nop => 0x50
  | .yield => 0x51
  | .debug _ => 0x52
  | .halt => 0x7F

end Sys2Proof
end

