-- ==== Sys2Proof/Config.lean ====
section
/-! DEFINITION. What is fixed for one machine: the constants the source fixes (spec/00_scope.md R5), the launch
parameters the source leaves open as one plain record (R6), and the free values, opaque constants with no body that
no proof can look into. -/

namespace Sys2Proof

/-! ## Constants the source fixes (R5, R40) -/

/-- CODE_LAST: the Code region is 0x00000000 to 0x000FFFFF (R5, R40). -/
def codeLast : Nat := 0x000FFFFF

/-- MMIO_BASE: the Data region is 0x00100000 to 0x0FFFFFFF, and MMIO starts here (R5, R40). -/
def mmioBase : Nat := 0x10000000

/-- STACK_TOP (R5, R44). -/
def stackTop : Word := 0x0FFFFFF0

/-! ## The open parameters (R6), one type each -/

/-- DATA_BYTE_ORDER (R47, decision D1). -/
inductive ByteOrder where
  | little
  | big
  deriving DecidableEq, Repr

/-- MISALIGNED_DATA (R52, decision D7). -/
inductive MisalignedData where
  | fault
  | bytewise
  deriving DecidableEq, Repr

/-- Mmio (R43, R233, decision D12): no device was supplied, or one was.
A supplied device's read and write functions are the free values `Config.mmioReadValue` and `Config.mmioEvents`. -/
inductive Mmio where
  | absent
  | device
  deriving DecidableEq, Repr

/-- How a 12-bit immediate is widened to 32 bits (R80). -/
inductive ImmExt where
  | sign
  | zero
  deriving DecidableEq, Repr, Inhabited

/-- ANDI_IMM_EXT (R134, decision D21, OPEN). `sign` and `zero` are the values a launch may give. `notGiven` is the spec's
reading of a launch that gives none: the step is refused when immediate bit 11 is 1. `free` (DESIGN CHOICE, log entry 1) also
gives none, and then the extension is the free value `Config.andiImmExtFree`, so that the instruction runs. -/
inductive AndiImmExt where
  | sign
  | zero
  | notGiven
  | free
  deriving DecidableEq, Repr

/-- SHAMT_RULE (R140, decision D22). -/
inductive ShamtRule where
  | mask5
  | faultIfOver31
  deriving DecidableEq, Repr

/-- MULH_SIGNEDNESS (R124, decision D23). -/
inductive MulhSignedness where
  | unsignedUnsigned
  | signedSigned
  deriving DecidableEq, Repr

/-- DIV_CORNER (R125, R126, decision D25). -/
inductive DivCorner where
  | fault
  | riscvValues
  deriving DecidableEq, Repr

/-- HOST_ON_YIELD (R213, decision D31): the host does nothing, applies a function it was given, or may do anything. -/
inductive HostOnYield where
  | identity
  | given
  | havoc
  deriving DecidableEq, Repr

/-- UNWRITTEN_REG (R34, decisions D3 and D5). -/
inductive UnwrittenReg where
  | faultOnRead
  | anyValue
  deriving DecidableEq, Repr

/-- The launch parameters a step depends on (R6, R252), one field a row of R6's table.
RESET_PC, SP_AT_RESET, CodeImage and DataImage only shape the launch state: `Machine.Launch` holds them. -/
structure Config where
  dataByteOrder   : ByteOrder
  dataLimit       : Word
  misalignedData  : MisalignedData
  mmio            : Mmio
  sltiuImmExt     : ImmExt
  andiImmExt      : AndiImmExt
  shamtRule       : ShamtRule
  mulhSignedness  : MulhSignedness
  divCorner       : DivCorner
  hostOnYield     : HostOnYield
  unwrittenReg    : UnwrittenReg
  deriving DecidableEq, Repr

/-- Every parameter at the default of R6's table. ANDI_IMM_EXT has no default there. -/
def Config.specDefault : Config where
  dataByteOrder  := .little
  dataLimit      := 0x0FFFFFFF
  misalignedData := .fault
  mmio           := .absent
  sltiuImmExt    := .sign
  andiImmExt     := .notGiven
  shamtRule      := .mask5
  mulhSignedness := .unsignedUnsigned
  divCorner      := .fault
  hostOnYield    := .identity
  unwrittenReg   := .faultOnRead

/-- The parameters of the model's own reset state: R6's defaults, but an open ANDI extension is a free value
(DESIGN CHOICE, log entry 1) and an unwritten register or byte reads as some value (DESIGN CHOICE, log entry 2). -/
def Config.atReset : Config :=
  { Config.specDefault with andiImmExt := .free, unwrittenReg := .anyValue }

/-! ## What crosses between the machine and the world outside it -/

/-- One event of the io trace (R31). -/
inductive Event where
  | debugChar (b : Byte)   -- appended by DEBUG (R214)
  | yield                  -- appended by YIELD (R213)
  deriving DecidableEq, Repr

/-- One thing a supplied MMIO device has seen (R56: the accesses to its addresses, in program order).
The list of them is the device's own state (R233). -/
inductive MmioAccess where
  | read (addr : Word) (width : Width)
  | write (addr : Word) (width : Width) (value : Word)
  | hostTurn               -- a host that may act had its turn at a YIELD
  deriving DecidableEq, Repr

/-- What a host sees when it is yielded to (R213). -/
structure HostView where
  regs    : Vector Word 32
  pc      : Word
  mem     : List Host.Cell
  io      : List Event
  mmioLog : List MmioAccess
  deriving DecidableEq, Repr

/-- What a host did in its turn: the registers and the Data bytes it wrote, and the events it appended to the io trace (R213,
R31, log entry 3). -/
structure HostReply where
  regWrites : List (Reg × Word)
  memWrites : List (Word × Byte)
  events    : List Event
  deriving DecidableEq, Repr, Inhabited

/-! ## Free values: no body, so a statement holds whatever they are -/

/-- The extension of the ANDI immediate on this machine, where the launch leaves ANDI_IMM_EXT free (R134, log entry 1). -/
opaque Config.andiImmExtFree : ImmExt

/-- The content at launch of a Data byte that DataImage does not define (R34: arbitrary, fixed at launch; log entry 2). One for
all launches: DESIGN CHOICE, unsafe for a claim that compares two runs, since the spec does not say that two launches leave the
same content. -/
opaque Config.unspecifiedByte : Word → Byte

/-- The content at launch of a register the launch does not define (R34: arbitrary, fixed at launch; log entry 2). One for all
launches: DESIGN CHOICE, as for `Config.unspecifiedByte`. -/
opaque Config.unspecifiedReg : Reg → Word

/-- What a supplied device answers to the read that ends the list of accesses it has seen (R233, log entry 4). -/
opaque Config.mmioReadValue : List MmioAccess → Word

/-- The events a supplied device adds to the io trace at the access that ends the list (R233, log entry 4). -/
opaque Config.mmioEvents : List MmioAccess → List Event

/-- The function from state to state a launch gives as HOST_ON_YIELD (R213, log entry 3). -/
opaque Config.hostFunction : HostView → HostReply

/-- What the host does at a YIELD under HOST_ON_YIELD = havoc. The view it may depend on holds the io trace, which grows at
every YIELD, so that every turn of a run is free of every other (R213, log entry 3). -/
opaque Config.hostHavoc : HostView → HostReply

end Sys2Proof
end

