-- ==== Sys2Proof/Machine/State.lean ====
section
/-! DEFINITION. The state of the machine as plain data (spec/10_state.md R20), the causes a fault records
(spec/60_exceptions.md R221), how a step can stop, and the state after reset (R33, R250). -/

namespace Sys2Proof.Machine

/-- What an UnspecifiedRead names: a register or the address of a Data byte (R221, R231). -/
inductive Place where
  | register (r : Reg)
  | byteAt (addr : Word)
  deriving DecidableEq, Repr

/-- The causes of R221, each with the info it records. Raising one is a transition, not a stop of the model:
`State.raise` moves to the status `faulted` (R234). -/
inductive Cause where
  | assertFailed (pc : Word)                -- R222: ASSERT_EQ
  | illegalInstruction (pc : Word) (w : Word) -- R223: decode
  | fetchMisaligned (pc : Word)             -- R224: fetch
  | fetchAccessFault (pc : Word)            -- R225: fetch
  | loadMisaligned (addr : Word)            -- R226: LDH, LDHU, LDW
  | storeMisaligned (addr : Word)           -- R227: STH, STW
  | loadAccessFault (addr : Word)           -- R228: loads
  | storeAccessFault (addr : Word)          -- R229: stores
  | divideByZero (pc : Word)                -- R230: DIV, REM
  | divideOverflow (pc : Word)              -- R230: DIV, REM
  | unspecifiedRead (place : Place)         -- R231: register and byte reads, under UNWRITTEN_REG = fault-on-read
  | shiftAmountOutOfRange (pc : Word)       -- R232: shifts, under SHAMT_RULE = fault-if-over-31
  deriving DecidableEq, Repr

/-- The run status (R30). -/
inductive Status where
  | running
  | halted
  | faulted (c : Cause)
  deriving DecidableEq, Repr

/-- Why there is no step. Both reasons are raised by `step` alone, on a state whose status is not `running` (R30, R32: the state
is terminal, no step exists). Safe: a statement about a next state says nothing of such a state. -/
inductive Fault where
  /-- Raised by `step` when the machine has executed HALT (R215). Safe. -/
  | afterHalt
  /-- Raised by `step` when an earlier step raised the cause (R235). Safe. -/
  | afterFault (c : Cause)
  deriving DecidableEq, Repr

/-- Why the model gives a step no meaning. -/
inductive Refusal where
  /-- Raised by `exec` for an instruction that has no meaning yet; no arm does so now. Safe. -/
  | notModelled (mnemonic : String)
  /-- Raised by a load or store whose address is in the MMIO region when no device was supplied (R43, R233). Safe. -/
  | mmioUnmodelled (addr : Word)
  /-- Raised by ANDI with immediate bit 11 set under ANDI_IMM_EXT = `notGiven` (R134, R233). Safe. -/
  | andiImmOpen (pc : Word)
  deriving DecidableEq, Repr

/-- Memory, one 32-bit byte-addressed space (R40): the bytes that have a content, as (address, byte) pairs in ONE canonical
form, addresses strictly rising (`Memory.wf`). An address that is not listed reads as no value: in the Code region it is outside
CodeImage, in the Data region its content is unspecified (R34, R62). -/
abbrev Memory := List Host.Cell

/-- The state (R20), and beside it the launch parameters of the run. The spec's components are `regs`, `pc`, `mem` (the Code and
the Data memory), `status` and `io`. `regDefined` records which registers have been written or were defined at launch (R34),
`mmioLog` is the own state of a supplied device (R233), and `cfg` holds the launch parameters, which no step changes (R252). -/
structure State where
  regs       : Vector Word 32
  regDefined : Vector Bool 32
  pc         : Word
  mem        : Memory
  status     : Status
  io         : List Event
  mmioLog    : List MmioAccess
  cfg        : Config
  deriving DecidableEq, Repr

/-- What every meaning and the step answer. -/
abbrev Outcome := Host.Outcome State Fault Refusal

/-- The launch state with no program loaded (R33, R250): pc = RESET_PC = 0, r29 = SP_AT_RESET = 0x0FFFFFF0, status Running, an
empty io trace, nothing in memory. Registers 1 to 28, 30 and 31 hold 0, a DESIGN CHOICE where the spec says unspecified
(log entry 5); r0 is 0 always. -/
def State.reset : State where
  regs       := (Vector.replicate 32 0).set 29 stackTop
  regDefined := ((Vector.replicate 32 false).set 0 true).set 29 true
  pc         := 0x00000000
  mem        := []
  status     := .running
  io         := []
  mmioLog    := []
  cfg        := Config.atReset

end Sys2Proof.Machine
end

