-- ==== Sys2Proof/Machine/Ops.lean ====
section
/-! DEFINITION. The named operations over registers, memory, the fault status, the io trace and the host, which every meaning
is built from (spec/00_scope.md R8; spec/10_state.md R22 to R34; spec/20_memory.md R46 to R52; spec/60_exceptions.md R234). -/

namespace Sys2Proof.Machine

/-! ## Registers -/

/-- `x[i]`: r0 reads as 0 (R22). -/
def State.reg (s : State) (r : Reg) : Word := if r = 0 then 0 else s.regs[r.val]

/-- Whether a read of the register returns a value: always under `anyValue`; under `faultOnRead` only when the register is r0,
was written, or was defined at launch (R34). -/
def State.regReadable (s : State) (r : Reg) : Bool :=
  r == 0 || s.cfg.unwrittenReg == .anyValue || s.regDefined[r.val]

/-- `x[i] <- v`: a write to r0 is discarded (R22). -/
def State.writeReg (s : State) (r : Reg) (v : Word) : State :=
  if r = 0 then s
  else { s with regs := s.regs.set r.val v r.isLt, regDefined := s.regDefined.set r.val true r.isLt }

/-! ## Program counter (R26) -/

/-- `pc <- t`. -/
def State.jump (s : State) (t : Word) : State := { s with pc := t }

/-- `pc <- pc + 4`, modulo 2^32. -/
def State.advance (s : State) : State := s.jump (s.pc + 4)

/-! ## Taking a fault, and stopping -/

/-- `raise Cause(info)`: the status becomes Faulted and nothing else changes; the pc keeps the value it had at the start of the
step (R234). There is no return from it (R235): no instruction leaves `faulted`. -/
def State.raise (s : State) (c : Cause) : Outcome := .next { s with status := .faulted c }

/-- `status <- Halted`, the pc unchanged (R215). -/
def State.halt (s : State) : State := { s with status := .halted }

/-- Why an access does not go ahead: it raises a cause, or the model refuses the step (R51). -/
inductive Stop where
  | raise (c : Cause)
  | refuse (r : Refusal)
  deriving DecidableEq, Repr

/-- Ending an instruction that cannot go ahead: the state is that of the start of the step (R199). -/
def State.stop (s : State) : Stop → Outcome
  | .raise c => s.raise c
  | .refuse r => .refused r

/-! ## Reading operands, and the common end of a computational instruction -/

/-- Read a register and go on, or raise UnspecifiedRead (R34, R231). -/
def State.withReg (s : State) (r : Reg) (k : Word → Outcome) : Outcome :=
  if s.regReadable r then k (s.reg r) else s.raise (.unspecifiedRead (.register r))

/-- Read both source registers, rs1 first, before anything is written (R24). -/
def State.withRegs (s : State) (r1 r2 : Reg) (k : Word → Word → Outcome) : Outcome :=
  s.withReg r1 fun a => s.withReg r2 fun b => k a b

/-- `x[rd] <- v; pc <- pc + 4`. -/
def State.finish (s : State) (rd : Reg) (v : Word) : Outcome := .next (s.writeReg rd v).advance

/-- The shape of an R-type computation (R120): `x[rd] <- f(x[rs1], x[rs2]); pc <- pc + 4`. -/
def State.computeReg (s : State) (f : Word → Word → Word) (rd rs1 rs2 : Reg) : Outcome :=
  s.withRegs rs1 rs2 fun a b => s.finish rd (f a b)

/-- The shape of an I-type computation (R120): `x[rd] <- f(x[rs1]); pc <- pc + 4`, the immediate already in `f`. -/
def State.computeImm (s : State) (f : Word → Word) (rd rs1 : Reg) : Outcome :=
  s.withReg rs1 fun a => s.finish rd (f a)

/-! ## The io trace (R31) -/

/-- `io <- io ++ [e]`. -/
def State.emit (s : State) (e : Event) : State := { s with io := s.io ++ [e] }

/-! ## Memory as a map from addresses to bytes -/

/-- The byte at an address, or no value when the address is not listed. -/
def Memory.read : Memory → Nat → Option Byte
  | [], _ => none
  | c :: m, a => if a = c.1 then some c.2 else Memory.read m a

/-- Set the byte at an address, keeping the addresses in order. -/
def Memory.write : Memory → Nat → Byte → Memory
  | [], a, v => [(a, v)]
  | c :: m, a, v =>
    if a < c.1 then (a, v) :: c :: m
    else if a = c.1 then (a, v) :: m
    else c :: Memory.write m a v

/-- Set bytes at an address and the addresses after it (modulo 2^32). -/
def Memory.writeBytes : Memory → Word → List Byte → Memory
  | m, _, [] => m
  | m, a, b :: bs => Memory.writeBytes (Memory.write m a.toNat b) (a + 1) bs

/-- The canonical form: addresses strictly rising. An unlisted address reads as no value, so no entry can equal that. -/
abbrev Memory.wf (m : Memory) : Prop := m.Pairwise fun c d => c.1 < d.1

/-! ## Regions (R40) -/

/-- The three regions of the address space. -/
inductive Region where
  | code
  | data
  | mmio
  deriving DecidableEq, Repr

/-- The region an address falls in. -/
def regionOf (a : Word) : Region :=
  if a.toNat ≤ codeLast then .code else if a.toNat < mmioBase then .data else .mmio

/-! ## The checks of a data access (R51) -/

/-- Whether an access reads or writes. -/
inductive AccessKind where
  | load
  | store
  deriving DecidableEq, Repr

/-- LoadMisaligned or StoreMisaligned. -/
def AccessKind.misaligned : AccessKind → Word → Cause
  | .load, a => .loadMisaligned a
  | .store, a => .storeMisaligned a

/-- LoadAccessFault or StoreAccessFault. -/
def AccessKind.accessFault : AccessKind → Word → Cause
  | .load, a => .loadAccessFault a
  | .store, a => .storeAccessFault a

/-- An address that is a multiple of the access width (R52). -/
def aligned (a : Word) (w : Width) : Bool := a.toNat % w.bytes == 0

/-- Checks (2) to (4) of R51 at one address: Code region, MMIO with no device, Data limit. -/
def checkAt (cfg : Config) (kind : AccessKind) (a : Word) (w : Width) : Option Stop :=
  match regionOf a with
  | .code => some (.raise (kind.accessFault a))
  | .mmio =>
    match cfg.mmio with
    | .absent => some (.refuse (.mmioUnmodelled a))
    | .device => none
  | .data => if a.toNat + w.bytes - 1 > cfg.dataLimit.toNat then some (.raise (kind.accessFault a)) else none

/-- The same checks at each of several places, the first failing one deciding. -/
def checkEach (cfg : Config) (kind : AccessKind) : List (Word × Width) → Option Stop
  | [] => none
  | p :: ps =>
    match checkAt cfg kind p.1 p.2 with
    | some stop => some stop
    | none => checkEach cfg kind ps

/-- The single bytes of an access, at `addr + k` modulo 2^32, lowest first. -/
def bytePlaces (a : Word) (w : Width) : List (Word × Width) :=
  (List.range w.bytes).map fun k => (a + BitVec.ofNat 32 k, .byte)

/-- `CheckData(addr, n, kind)` (R51), none when the access may go ahead. Under MISALIGNED_DATA = `fault` alignment comes first
and then the address is checked; under `bytewise` each of the n bytes is checked. -/
def checkData (cfg : Config) (kind : AccessKind) (a : Word) (w : Width) : Option Stop :=
  match cfg.misalignedData with
  | .fault => if aligned a w then checkAt cfg kind a w else some (.raise (kind.misaligned a))
  | .bytewise => checkEach cfg kind (bytePlaces a w)

/-- The parts an access that may go ahead is made in: one, or the single bytes of a misaligned access (R52). -/
def accessPlaces (a : Word) (w : Width) : List (Word × Width) :=
  if aligned a w then [(a, w)] else bytePlaces a w

/-! ## Byte order of data (R47) -/

/-- The value of bytes listed from the lowest address up, read little-endian (R48). -/
def ofLittle : List Byte → Word
  | [] => 0
  | b :: bs => (ofLittle bs <<< 8) ||| b.setWidth 32

/-- The low `n` bytes of a value, the least significant first (R49). -/
def toLittle : Nat → Word → List Byte
  | 0, _ => []
  | n + 1, v => v.setWidth 8 :: toLittle n (v >>> 8)

/-- The order in which the bytes of an access are composed: DATA_BYTE_ORDER for an aligned access (R47), and little-endian for a
misaligned one, which is made byte by byte (R52). -/
def accessOrder (cfg : Config) (a : Word) (w : Width) : ByteOrder :=
  if aligned a w then cfg.dataByteOrder else .little

/-- The value of bytes listed from the lowest address up, in the order given. -/
def ofBytes (o : ByteOrder) (bs : List Byte) : Word :=
  match o with
  | .little => ofLittle bs
  | .big => ofLittle bs.reverse

/-- The low `n` bytes of a value from the lowest address up, in the order given. -/
def toBytes (o : ByteOrder) (n : Nat) (v : Word) : List Byte :=
  match o with
  | .little => toLittle n v
  | .big => (toLittle n v).reverse

/-! ## A supplied MMIO device (R43, R233): it changes its own state and the io trace only -/

/-- The device sees an access. -/
def State.deviceAccess (s : State) (x : MmioAccess) : State :=
  { s with mmioLog := s.mmioLog ++ [x], io := s.io ++ Config.mmioEvents (s.mmioLog ++ [x]) }

/-- The device answers a read with the low `n` bytes of a free value. -/
def State.deviceRead (s : State) (a : Word) (w : Width) : State × Word :=
  (s.deviceAccess (.read a w), Config.mmioReadValue (s.mmioLog ++ [.read a w]))

/-! ## Reading data memory (R48) -/

/-- The content of a Data byte: what is listed, or, where nothing is, an arbitrary byte fixed at launch under `anyValue` and no
value under `faultOnRead` (R34). -/
def State.dataByte (s : State) (a : Word) : Option Byte :=
  match Memory.read s.mem a.toNat with
  | some b => some b
  | none =>
    match s.cfg.unwrittenReg with
    | .anyValue => some (Config.unspecifiedByte a)
    | .faultOnRead => none

/-- `n` Data bytes from an address up; the lowest unspecified one raises UnspecifiedRead (R231). -/
def State.readBytes (s : State) (a : Word) : Nat → Except Stop (List Byte)
  | 0 => .ok []
  | n + 1 =>
    match s.dataByte a with
    | none => .error (.raise (.unspecifiedRead (.byteAt a)))
    | some b =>
      match s.readBytes (a + 1) n with
      | .error e => .error e
      | .ok bs => .ok (b :: bs)

/-- The bytes at one place of an access that passed its checks. A place is aligned, so a device's answer is laid out in the data
byte order; of a single byte there is only one order. -/
def State.readPlace (s : State) (p : Word × Width) : Except Stop (State × List Byte) :=
  match regionOf p.1 with
  | .mmio => .ok ((s.deviceRead p.1 p.2).1, toBytes s.cfg.dataByteOrder p.2.bytes (s.deviceRead p.1 p.2).2)
  | .code | .data =>
    match s.readBytes p.1 p.2.bytes with
    | .error e => .error e
    | .ok bs => .ok (s, bs)

/-- The bytes at several places, lowest first. -/
def State.readPlaces (s : State) : List (Word × Width) → Except Stop (State × List Byte)
  | [] => .ok (s, [])
  | p :: ps =>
    match s.readPlace p with
    | .error e => .error e
    | .ok (s1, bs) =>
      match s1.readPlaces ps with
      | .error e => .error e
      | .ok (s2, cs) => .ok (s2, bs ++ cs)

/-- `MemRead(addr, n)` (R48): the unsigned value, and the state, which only a device can change. -/
def State.memRead (s : State) (a : Word) (w : Width) : Except Stop (State × Word) :=
  match checkData s.cfg .load a w with
  | some stop => .error stop
  | none =>
    match s.readPlaces (accessPlaces a w) with
    | .error e => .error e
    | .ok (t, bs) => .ok (t, ofBytes (accessOrder s.cfg a w) bs)

/-! ## Writing data memory (R49) -/

/-- Write the bytes of one place of an access that passed its checks. -/
def State.writePlace (s : State) (p : Word × Width) (bs : List Byte) : State :=
  match regionOf p.1 with
  | .mmio => s.deviceAccess (.write p.1 p.2 (ofBytes s.cfg.dataByteOrder bs))
  | .code | .data => { s with mem := Memory.writeBytes s.mem p.1 bs }

/-- Write bytes at several places, lowest first, each place taking as many as it is wide. -/
def State.writePlaces (s : State) : List (Word × Width) → List Byte → State
  | [], _ => s
  | p :: ps, bs => (s.writePlace p (bs.take p.2.bytes)).writePlaces ps (bs.drop p.2.bytes)

/-- `MemWrite(addr, n, v)` (R49): the low 8n bits of `v` to the n bytes at `addr`. -/
def State.memWrite (s : State) (a : Word) (w : Width) (v : Word) : Except Stop State :=
  match checkData s.cfg .store a w with
  | some stop => .error stop
  | none => .ok (s.writePlaces (accessPlaces a w) (toBytes (accessOrder s.cfg a w) w.bytes v))

/-! ## The shapes of a load and a store (R190 to R199) -/

/-- `x[rd] <- ext(MemRead(addr, n)); pc <- pc + 4`. -/
def State.load (s : State) (rd : Reg) (a : Word) (w : Width) (ext : Word → Word) : Outcome :=
  match s.memRead a w with
  | .error e => s.stop e
  | .ok (t, v) => t.finish rd (ext v)

/-- `MemWrite(addr, n, v); pc <- pc + 4`. -/
def State.store (s : State) (a : Word) (w : Width) (v : Word) : Outcome :=
  match s.memWrite a w v with
  | .error e => s.stop e
  | .ok t => .next t.advance

/-! ## The host's turn at a YIELD (R213) -/

/-- What the host sees. -/
def State.hostView (s : State) : HostView where
  regs := s.regs
  pc := s.pc
  mem := s.mem
  io := s.io
  mmioLog := s.mmioLog

/-- The host writes a byte; only Data bytes are its to write (R59: Code memory never changes). -/
def State.hostPoke (s : State) (p : Word × Byte) : State :=
  match regionOf p.1 with
  | .data => { s with mem := Memory.write s.mem p.1.toNat p.2 }
  | .code | .mmio => s

/-- The host writes registers and Data bytes and appends events, and a supplied device takes note that it had a turn. -/
def State.applyReply (s : State) (r : HostReply) : State :=
  let t := r.memWrites.foldl State.hostPoke (r.regWrites.foldl (fun u p => u.writeReg p.1 p.2) s)
  { t with io := t.io ++ r.events, mmioLog := t.mmioLog ++ [.hostTurn] }

/-- `state <- HOST_ON_YIELD(state)`: the identity by default; the function the launch gave; or, under `havoc`, anything. -/
def State.hostTurn (s : State) : State :=
  match s.cfg.hostOnYield with
  | .identity => s
  | .given => s.applyReply (Config.hostFunction s.hostView)
  | .havoc => s.applyReply (Config.hostHavoc s.hostView)

/-! ## Instruction fetch (R32, R50) -/

/-- `CodeImage(addr)`: the word whose four bytes are listed, or none when the address is outside the image (R46, R62). -/
def State.codeWord (s : State) (a : Word) : Option Word :=
  match Memory.read s.mem a.toNat, Memory.read s.mem (a + 1).toNat, Memory.read s.mem (a + 2).toNat,
    Memory.read s.mem (a + 3).toNat with
  | some b0, some b1, some b2, some b3 => some (wordOfBytes b0 b1 b2 b3)
  | _, _, _, _ => none

/-- The fetch of a step: alignment, then region and image (R32, R236). -/
def State.fetch (s : State) : Except Cause Word :=
  if s.pc.extractLsb' 0 2 ≠ 0 then .error (.fetchMisaligned s.pc)
  else if s.pc.toNat > codeLast then .error (.fetchAccessFault s.pc)
  else
    match s.codeWord s.pc with
    | none => .error (.fetchAccessFault s.pc)
    | some w => .ok w

end Sys2Proof.Machine
end

