-- ==== Sys2Proof/Machine/Operands.lean ====
section
/-! DEFINITION. Operand forms: the widening of immediates (spec/30_encoding.md R80 to R84), the one addressing mode
(spec/46_load_store.md R190), the shift amount (spec/42_shift.md R140), jump and branch targets (spec/10_state.md R26), and the
integer helpers of spec/00_scope.md R8 to R10. -/

namespace Sys2Proof.Machine

/-! ## Widening (R8, R80) -/

/-- `sext_12(imm)`. -/
def sext12 (imm : BitVec 12) : Word := imm.signExtend 32

/-- `zext_12(imm)`. -/
def zext12 (imm : BitVec 12) : Word := imm.setWidth 32

/-- A 12-bit immediate widened as a parameter says. -/
def extend12 : ImmExt → BitVec 12 → Word
  | .sign, imm => sext12 imm
  | .zero, imm => zext12 imm

/-- `sext_N(v)`: the low N bits of `v`, sign-extended to 32 bits. -/
def sextLow (n : Nat) (v : Word) : Word := (v.setWidth n).signExtend 32

/-- `zext_N(v)`: the low N bits of `v`, zero-extended to 32 bits. -/
def zextLow (n : Nat) (v : Word) : Word := (v.setWidth n).setWidth 32

/-- The LUI operand: the 20-bit field in bits 31 to 12, zeros below (R83). -/
def upper20 (imm : BitVec 20) : Word := imm ++ 0#12

/-- The ANDI operand, or none where the launch gave ANDI_IMM_EXT no value and the two extensions differ, that is when immediate
bit 11 is 1 (R134). Where the extension is left free (log entry 1) it is then the one this machine has. -/
def andiOperand (ext : AndiImmExt) (imm : BitVec 12) : Option Word :=
  match ext with
  | .sign => some (sext12 imm)
  | .zero => some (zext12 imm)
  | .free => some (if imm.getLsbD 11 then extend12 Config.andiImmExtFree imm else zext12 imm)
  | .notGiven => if imm.getLsbD 11 then none else some (zext12 imm)

/-! ## Addresses -/

/-- `addr = (x[rs1] + sext_12(imm))[31:0]` (R54, R190). -/
def effectiveAddress (base : Word) (imm : BitVec 12) : Word := base + sext12 imm

/-- `pc + sext_13(immB)` modulo 2^32 (R170, R177). -/
def branchTarget (pc : Word) (imm : BitVec 13) : Word := pc + imm.signExtend 32

/-- `pc + sext_21(immJ)` modulo 2^32 (R180). -/
def jumpTarget (pc : Word) (imm : BitVec 21) : Word := pc + imm.signExtend 32

/-! ## Shift amounts (R140) -/

/-- The low five bits of an operand. -/
def shiftAmount (v : Word) : Nat := v.toNat % 32

/-- Whether a bit of the operand above the low five is 1. -/
def overShift (v : Word) : Bool := v.toNat ≥ 32

/-! ## Shifts as the integers say (R9) -/

/-- `shl(v, k)`: `v * 2^k` modulo 2^32. -/
def shl (v : Word) (k : Nat) : Word := BitVec.ofNat 32 (v.toNat * 2 ^ k)

/-- `shr_u(v, k)`: `floor(u(v) / 2^k)`. -/
def shrU (v : Word) (k : Nat) : Word := BitVec.ofNat 32 (v.toNat / 2 ^ k)

/-- `shr_s(v, k)`: `floor(s(v) / 2^k)` as a two's complement pattern. -/
def shrS (v : Word) (k : Nat) : Word := BitVec.ofInt 32 (v.toInt / 2 ^ k)

/-! ## Products and quotients (R10, R124 to R126) -/

/-- The high half of the exact product of two unsigned operands. -/
def mulHighUnsigned (a b : Word) : Word := BitVec.ofNat 32 (a.toNat * b.toNat / 2 ^ 32)

/-- The high half of the exact product of two signed operands (MULH_SIGNEDNESS = `signed-signed`). -/
def mulHighSigned (a b : Word) : Word := BitVec.ofInt 32 (a.toInt * b.toInt / 2 ^ 32)

/-- `tdiv(a, b)`, rounded toward zero, as a two's complement pattern (R10). -/
def quotient (a b : Word) : Word := BitVec.ofInt 32 (a.toInt.tdiv b.toInt)

/-- `trem(a, b)`, zero or of the sign of `a`, as a two's complement pattern (R10). -/
def remainder (a b : Word) : Word := BitVec.ofInt 32 (a.toInt.tmod b.toInt)

/-- The dividend is -2^31 and the divisor -1 (R125). -/
def divOverflows (a b : Word) : Bool := a == 0x80000000 && b == 0xFFFFFFFF

end Sys2Proof.Machine
end

