-- ==== Sys2Proof/Machine/Arithmetic.lean ====
section
/-! DEFINITION. ADD, SUB, MUL, MULH, DIV, REM, ADDI (spec/40_arithmetic.md). -/

namespace Sys2Proof.Machine

/-- R121: `x[rd] <- x[rs1] + x[rs2]`, modulo 2^32. -/
def execAdd (rd rs1 rs2 : Reg) (s : State) : Outcome := s.computeReg (fun a b => a + b) rd rs1 rs2

/-- R122: `x[rd] <- x[rs1] - x[rs2]`, modulo 2^32. -/
def execSub (rd rs1 rs2 : Reg) (s : State) : Outcome := s.computeReg (fun a b => a - b) rd rs1 rs2

/-- R123: the low 32 bits of the product. -/
def execMul (rd rs1 rs2 : Reg) (s : State) : Outcome := s.computeReg (fun a b => a * b) rd rs1 rs2

/-- The high product as MULH_SIGNEDNESS says (R124). -/
def mulHigh : MulhSignedness → Word → Word → Word
  | .unsignedUnsigned => mulHighUnsigned
  | .signedSigned => mulHighSigned

/-- R124: the high 32 bits of the 64-bit product. -/
def execMulh (rd rs1 rs2 : Reg) (s : State) : Outcome :=
  s.computeReg (mulHigh s.cfg.mulhSignedness) rd rs1 rs2

/-- The two corners of a division and the rest (R125, R126): `byZero` and `overflow` are what DIV_CORNER = `riscv-values`
writes there; under `fault` the cause is raised before any register is written. -/
def State.divide (s : State) (rd : Reg) (a b byZero overflow result : Word) : Outcome :=
  if b = 0 then
    match s.cfg.divCorner with
    | .fault => s.raise (.divideByZero s.pc)
    | .riscvValues => s.finish rd byZero
  else if divOverflows a b then
    match s.cfg.divCorner with
    | .fault => s.raise (.divideOverflow s.pc)
    | .riscvValues => s.finish rd overflow
  else s.finish rd result

/-- R125: the signed quotient, rounded toward zero. -/
def execDiv (rd rs1 rs2 : Reg) (s : State) : Outcome :=
  s.withRegs rs1 rs2 fun a b => s.divide rd a b 0xFFFFFFFF 0x80000000 (quotient a b)

/-- R126: the signed remainder, zero or of the sign of the dividend. -/
def execRem (rd rs1 rs2 : Reg) (s : State) : Outcome :=
  s.withRegs rs1 rs2 fun a b => s.divide rd a b a 0 (remainder a b)

/-- R127: `x[rd] <- x[rs1] + sext_12(imm)`, modulo 2^32. -/
def execAddi (rd rs1 : Reg) (imm : BitVec 12) (s : State) : Outcome :=
  s.computeImm (fun a => a + sext12 imm) rd rs1

end Sys2Proof.Machine
end

