-- ==== Sys2Proof/Machine/Flags.lean ====
section
/-! DEFINITION. SLOW-32 has no flags, condition codes or predicate registers (spec/10_state.md R28): no instruction writes one
and none is in the state. What other machines keep in flags is computed here where it is used, the conditions of the
comparisons (spec/43_comparison.md R150 to R162) and of the branches (spec/44_branch.md R171 to R176). -/

namespace Sys2Proof.Machine

/-- `s(a) < s(b)`. -/
def ltSigned (a b : Word) : Bool := a.toInt < b.toInt

/-- `u(a) < u(b)`. -/
def ltUnsigned (a b : Word) : Bool := a.toNat < b.toNat

/-- `s(a) <= s(b)`. -/
def leSigned (a b : Word) : Bool := a.toInt ≤ b.toInt

/-- `u(a) <= u(b)`. -/
def leUnsigned (a b : Word) : Bool := a.toNat ≤ b.toNat

/-- `a = b`, all 32 bits. -/
def equal (a b : Word) : Bool := a == b

/-- The result word of a comparison: 1 when it holds, 0 when it does not (R150). -/
def truthWord (c : Bool) : Word := if c then 1 else 0

end Sys2Proof.Machine
end

