-- ==== Sys2Proof/Machine/Branch.lean ====
section
/-! DEFINITION. BEQ, BNE, BLT, BGE, BLTU, BGEU (spec/44_branch.md). The target is not checked here: the next step's fetch
checks it (R177). -/

namespace Sys2Proof.Machine

/-- R170: `pc <- pc + sext_13(imm)` when the condition holds, `pc <- pc + 4` when not; nothing else changes. -/
def State.branch (s : State) (cond : Word → Word → Bool) (rs1 rs2 : Reg) (imm : BitVec 13) : Outcome :=
  s.withRegs rs1 rs2 fun a b => .next (if cond a b then s.jump (branchTarget s.pc imm) else s.advance)

/-- R171: taken when `x[rs1] = x[rs2]`. -/
def execBeq (rs1 rs2 : Reg) (imm : BitVec 13) (s : State) : Outcome :=
  s.branch (fun a b => equal a b) rs1 rs2 imm

/-- R172: taken when `x[rs1] != x[rs2]`. -/
def execBne (rs1 rs2 : Reg) (imm : BitVec 13) (s : State) : Outcome :=
  s.branch (fun a b => !equal a b) rs1 rs2 imm

/-- R173: taken when `s(x[rs1]) < s(x[rs2])`. -/
def execBlt (rs1 rs2 : Reg) (imm : BitVec 13) (s : State) : Outcome :=
  s.branch (fun a b => ltSigned a b) rs1 rs2 imm

/-- R174: taken when `s(x[rs1]) >= s(x[rs2])`. -/
def execBge (rs1 rs2 : Reg) (imm : BitVec 13) (s : State) : Outcome :=
  s.branch (fun a b => leSigned b a) rs1 rs2 imm

/-- R175: taken when `u(x[rs1]) < u(x[rs2])`. -/
def execBltu (rs1 rs2 : Reg) (imm : BitVec 13) (s : State) : Outcome :=
  s.branch (fun a b => ltUnsigned a b) rs1 rs2 imm

/-- R176: taken when `u(x[rs1]) >= u(x[rs2])`. -/
def execBgeu (rs1 rs2 : Reg) (imm : BitVec 13) (s : State) : Outcome :=
  s.branch (fun a b => leUnsigned b a) rs1 rs2 imm

end Sys2Proof.Machine
end

