-- ==== Sys2Proof/Machine/Comparison.lean ====
section
/-! DEFINITION. The twelve set-on-compare instructions (spec/43_comparison.md). Each writes 1 or 0 to rd (R150). -/

namespace Sys2Proof.Machine

/-- R151: `s(x[rs1]) < s(x[rs2])`. -/
def execSlt (rd rs1 rs2 : Reg) (s : State) : Outcome :=
  s.computeReg (fun a b => truthWord (ltSigned a b)) rd rs1 rs2

/-- R152: `u(x[rs1]) < u(x[rs2])`. -/
def execSltu (rd rs1 rs2 : Reg) (s : State) : Outcome :=
  s.computeReg (fun a b => truthWord (ltUnsigned a b)) rd rs1 rs2

/-- R153: `x[rs1] = x[rs2]`. -/
def execSeq (rd rs1 rs2 : Reg) (s : State) : Outcome :=
  s.computeReg (fun a b => truthWord (equal a b)) rd rs1 rs2

/-- R154: `x[rs1] != x[rs2]`. -/
def execSne (rd rs1 rs2 : Reg) (s : State) : Outcome :=
  s.computeReg (fun a b => truthWord (!equal a b)) rd rs1 rs2

/-- R155: signed, the immediate sign-extended. -/
def execSlti (rd rs1 : Reg) (imm : BitVec 12) (s : State) : Outcome :=
  s.computeImm (fun a => truthWord (ltSigned a (sext12 imm))) rd rs1

/-- R156: unsigned, the immediate widened as SLTIU_IMM_EXT says. -/
def execSltiu (rd rs1 : Reg) (imm : BitVec 12) (s : State) : Outcome :=
  s.computeImm (fun a => truthWord (ltUnsigned a (extend12 s.cfg.sltiuImmExt imm))) rd rs1

/-- R157: `s(x[rs1]) > s(x[rs2])`. -/
def execSgt (rd rs1 rs2 : Reg) (s : State) : Outcome :=
  s.computeReg (fun a b => truthWord (ltSigned b a)) rd rs1 rs2

/-- R158: `u(x[rs1]) > u(x[rs2])`. -/
def execSgtu (rd rs1 rs2 : Reg) (s : State) : Outcome :=
  s.computeReg (fun a b => truthWord (ltUnsigned b a)) rd rs1 rs2

/-- R159: `s(x[rs1]) <= s(x[rs2])`. -/
def execSle (rd rs1 rs2 : Reg) (s : State) : Outcome :=
  s.computeReg (fun a b => truthWord (leSigned a b)) rd rs1 rs2

/-- R160: `u(x[rs1]) <= u(x[rs2])`. -/
def execSleu (rd rs1 rs2 : Reg) (s : State) : Outcome :=
  s.computeReg (fun a b => truthWord (leUnsigned a b)) rd rs1 rs2

/-- R161: `s(x[rs1]) >= s(x[rs2])`. -/
def execSge (rd rs1 rs2 : Reg) (s : State) : Outcome :=
  s.computeReg (fun a b => truthWord (leSigned b a)) rd rs1 rs2

/-- R162: `u(x[rs1]) >= u(x[rs2])`. -/
def execSgeu (rd rs1 rs2 : Reg) (s : State) : Outcome :=
  s.computeReg (fun a b => truthWord (leUnsigned b a)) rd rs1 rs2

end Sys2Proof.Machine
end

