-- ==== Sys2Proof/Machine/Jump.lean ====
section
/-! DEFINITION. JAL and JALR (spec/45_jump.md). The target is not checked here: the next step's fetch checks it (R183). -/

namespace Sys2Proof.Machine

/-- `x[rd] <- pc + 4; pc <- t`, the target `t` already computed from the old registers (R180, R181). -/
def State.link (s : State) (rd : Reg) (t : Word) : State := (s.writeReg rd (s.pc + 4)).jump t

/-- R180: `x[rd] <- pc + 4; pc <- pc + sext_21(imm)`. -/
def execJal (rd : Reg) (imm : BitVec 21) (s : State) : Outcome := .next (s.link rd (jumpTarget s.pc imm))

/-- R181: `x[rd] <- pc + 4; pc <- x[rs1] + sext_12(imm)`, from the old `x[rs1]`; no bit of the target is cleared. -/
def execJalr (rd rs1 : Reg) (imm : BitVec 12) (s : State) : Outcome :=
  s.withReg rs1 fun a => .next (s.link rd (effectiveAddress a imm))

end Sys2Proof.Machine
end

