-- ==== Sys2Proof/Machine/LoadStore.lean ====
section
/-! DEFINITION. LDB, LDH, LDW, LDBU, LDHU, STB, STH, STW (spec/46_load_store.md). Each makes the access `MemRead` or `MemWrite`
at `effectiveAddress`, with all its checks, and has no effect when the access raises or is refused (R199). -/

namespace Sys2Proof.Machine

/-- R191. -/
def execLdb (rd rs1 : Reg) (imm : BitVec 12) (s : State) : Outcome :=
  s.withReg rs1 fun base => s.load rd (effectiveAddress base imm) .byte (sextLow 8)

/-- R192. -/
def execLdh (rd rs1 : Reg) (imm : BitVec 12) (s : State) : Outcome :=
  s.withReg rs1 fun base => s.load rd (effectiveAddress base imm) .half (sextLow 16)

/-- R193. -/
def execLdw (rd rs1 : Reg) (imm : BitVec 12) (s : State) : Outcome :=
  s.withReg rs1 fun base => s.load rd (effectiveAddress base imm) .word id

/-- R194. -/
def execLdbu (rd rs1 : Reg) (imm : BitVec 12) (s : State) : Outcome :=
  s.withReg rs1 fun base => s.load rd (effectiveAddress base imm) .byte (zextLow 8)

/-- R195. -/
def execLdhu (rd rs1 : Reg) (imm : BitVec 12) (s : State) : Outcome :=
  s.withReg rs1 fun base => s.load rd (effectiveAddress base imm) .half (zextLow 16)

/-- R196. -/
def execStb (rs1 rs2 : Reg) (imm : BitVec 12) (s : State) : Outcome :=
  s.withRegs rs1 rs2 fun base v => s.store (effectiveAddress base imm) .byte v

/-- R197. -/
def execSth (rs1 rs2 : Reg) (imm : BitVec 12) (s : State) : Outcome :=
  s.withRegs rs1 rs2 fun base v => s.store (effectiveAddress base imm) .half v

/-- R198. -/
def execStw (rs1 rs2 : Reg) (imm : BitVec 12) (s : State) : Outcome :=
  s.withRegs rs1 rs2 fun base v => s.store (effectiveAddress base imm) .word v

end Sys2Proof.Machine
end

