-- ==== Sys2Proof/Machine/Logical.lean ====
section
/-! DEFINITION. XOR, OR, AND, ORI, ANDI, XORI (spec/41_logical.md). -/

namespace Sys2Proof.Machine

/-- R130. -/
def execXor (rd rs1 rs2 : Reg) (s : State) : Outcome := s.computeReg (fun a b => a ^^^ b) rd rs1 rs2

/-- R131. -/
def execOr (rd rs1 rs2 : Reg) (s : State) : Outcome := s.computeReg (fun a b => a ||| b) rd rs1 rs2

/-- R132. -/
def execAnd (rd rs1 rs2 : Reg) (s : State) : Outcome := s.computeReg (fun a b => a &&& b) rd rs1 rs2

/-- R133: the immediate is zero-extended. -/
def execOri (rd rs1 : Reg) (imm : BitVec 12) (s : State) : Outcome :=
  s.computeImm (fun a => a ||| zext12 imm) rd rs1

/-- R134: the immediate is widened as ANDI_IMM_EXT says; the refusal AndiImmOpen, where that is not given and bit 11 is set,
comes after the register is read (R236). -/
def execAndi (rd rs1 : Reg) (imm : BitVec 12) (s : State) : Outcome :=
  s.withReg rs1 fun a =>
    match andiOperand s.cfg.andiImmExt imm with
    | some v => s.finish rd (a &&& v)
    | none => s.stop (.refuse (.andiImmOpen s.pc))

/-- R135: the immediate is sign-extended. -/
def execXori (rd rs1 : Reg) (imm : BitVec 12) (s : State) : Outcome :=
  s.computeImm (fun a => a ^^^ sext12 imm) rd rs1

end Sys2Proof.Machine
end

