-- ==== Sys2Proof/Machine/Shift.lean ====
section
/-! DEFINITION. SLL, SRL, SRA, SLLI, SRLI, SRAI (spec/42_shift.md). -/

namespace Sys2Proof.Machine

/-- Shift `v` by the low five bits of `amount`; under SHAMT_RULE = `fault-if-over-31` a set bit above them raises
ShiftAmountOutOfRange (R140, R232). -/
def State.shift (s : State) (f : Word → Nat → Word) (rd : Reg) (v amount : Word) : Outcome :=
  match s.cfg.shamtRule with
  | .mask5 => s.finish rd (f v (shiftAmount amount))
  | .faultIfOver31 =>
    if overShift amount then s.raise (.shiftAmountOutOfRange s.pc)
    else s.finish rd (f v (shiftAmount amount))

/-- R141. -/
def execSll (rd rs1 rs2 : Reg) (s : State) : Outcome := s.withRegs rs1 rs2 fun a b => s.shift shl rd a b

/-- R142. -/
def execSrl (rd rs1 rs2 : Reg) (s : State) : Outcome := s.withRegs rs1 rs2 fun a b => s.shift shrU rd a b

/-- R143. -/
def execSra (rd rs1 rs2 : Reg) (s : State) : Outcome := s.withRegs rs1 rs2 fun a b => s.shift shrS rd a b

/-- R144: the amount is `immI[4:0]`. -/
def execSlli (rd rs1 : Reg) (imm : BitVec 12) (s : State) : Outcome :=
  s.withReg rs1 fun a => s.shift shl rd a (zext12 imm)

/-- R145. -/
def execSrli (rd rs1 : Reg) (imm : BitVec 12) (s : State) : Outcome :=
  s.withReg rs1 fun a => s.shift shrU rd a (zext12 imm)

/-- R146. -/
def execSrai (rd rs1 : Reg) (imm : BitVec 12) (s : State) : Outcome :=
  s.withReg rs1 fun a => s.shift shrS rd a (zext12 imm)

end Sys2Proof.Machine
end

