-- ==== Sys2Proof/Machine/Special.lean ====
section
/-! DEFINITION. LUI, ASSERT_EQ, NOP, YIELD, DEBUG, HALT (spec/47_special.md). -/

namespace Sys2Proof.Machine

/-- R210: the 20-bit field in bits 31 to 12, zeros below. -/
def execLui (rd : Reg) (imm : BitVec 20) (s : State) : Outcome := s.finish rd (upper20 imm)

/-- R211: raise AssertFailed when the registers differ, else only advance the pc. -/
def execAssertEq (rs1 rs2 : Reg) (s : State) : Outcome :=
  s.withRegs rs1 rs2 fun a b => if equal a b then .next s.advance else s.raise (.assertFailed s.pc)

/-- R212: only advance the pc. -/
def execNop (s : State) : Outcome := .next s.advance

/-- R213: append a Yield event, give the host its turn, advance the pc. -/
def execYield (s : State) : Outcome := .next ((s.emit .yield).hostTurn).advance

/-- R214: append the low byte of the register to the io trace, advance the pc. -/
def execDebug (rs1 : Reg) (s : State) : Outcome :=
  s.withReg rs1 fun a => .next (s.emit (.debugChar (a.setWidth 8))).advance

/-- R215: the status becomes Halted and nothing else changes. -/
def execHalt (s : State) : Outcome := .next s.halt

end Sys2Proof.Machine
end

