-- ==== Sys2Proof/Machine/Step.lean ====
section
/-! DEFINITION. One step of the machine (spec/10_state.md R32), and the hook by which the host places one instruction. -/

namespace Sys2Proof.Machine

/-- The only transition there is (R32): fetch, decode, execute. From a state whose status is not Running there is no step
(R30). Fetch and decode faults are taken as any other (R223 to R225, R234). -/
def step (s : State) : Host.Outcome State Fault Refusal :=
  match s.status with
  | .halted => .fault .afterHalt
  | .faulted c => .fault (.afterFault c)
  | .running =>
    match s.fetch with
    | .error c => s.raise c
    | .ok w =>
      match decodeWord w with
      | .illegal w' => s.raise (.illegalInstruction s.pc w')
      | .ok i => exec i s

/-- The state with one instruction word in Code memory at the pc, little-endian (R46). It stands for the launch that supplies
CodeImage (R62): the machine has no step of its own that loads a program (log entry 6). -/
def State.withFetchWord (s : State) (nbits w : Nat) : State :=
  { s with mem := Memory.writeBytes s.mem s.pc (bytesOfWord (BitVec.ofNat 32 (w % 2 ^ nbits))) }

end Sys2Proof.Machine
end

