-- ==== Sys2Proof/Machine/Assembler.lean ====
section
/-! DEFINITION. The assembler layer in which programs are written (spec/30_encoding.md R91 to R112). It is not part of the
machine (spec/00_scope.md R12): a pseudo-instruction is the list of native instructions it expands to, and nothing here is
called by a step. -/

namespace Sys2Proof.Machine

/-! ## Register names (R23, R92) -/

/-- The ABI names of r0 to r31 in order (the table of R23). -/
def abiNames : List String :=
  ["zero", "rv", "t0", "a0", "a1", "a2", "a3", "a4", "a5", "a6", "a7", "s0", "s1", "s2", "s3", "s4", "s5", "s6", "s7",
   "s8", "s9", "s10", "s11", "s12", "s13", "s14", "s15", "s16", "s17", "sp", "fp", "lr"]

/-- The ABI name of a register. -/
def abiName (r : Reg) : String := abiNames.getD r.val ""

/-- The alias the assembler is said to support for a register, beside `r0` to `r31` (R92). -/
def assemblerAlias : Reg → Option String
  | 0 => some "zero" | 29 => some "sp" | 30 => some "fp" | 31 => some "lr"
  | _ => none

/-- Saved by the callee, the last column of R23's table; none for r0, which has no entry there. -/
def calleeSaved (r : Reg) : Option Bool :=
  if r = 0 then none else some (decide (11 ≤ r.val))

/-! ## Operand syntax of the native instructions (R91) -/

/-- An operand as it is written: a register, a number, or an address `base+offset`. -/
inductive Operand where
  | reg (r : Reg)
  | number (v : Int)
  | address (base : Reg) (offset : Int)
  deriving DecidableEq, Repr

/-- The mnemonic of an instruction, in the capitals of the source's tables. -/
def mnemonic : Instr → String
  | .add _ _ _ => "ADD" | .sub _ _ _ => "SUB" | .xor _ _ _ => "XOR" | .or _ _ _ => "OR" | .and _ _ _ => "AND"
  | .sll _ _ _ => "SLL" | .srl _ _ _ => "SRL" | .sra _ _ _ => "SRA" | .slt _ _ _ => "SLT" | .sltu _ _ _ => "SLTU"
  | .mul _ _ _ => "MUL" | .mulh _ _ _ => "MULH" | .div _ _ _ => "DIV" | .rem _ _ _ => "REM" | .seq _ _ _ => "SEQ"
  | .sne _ _ _ => "SNE" | .addi _ _ _ => "ADDI" | .ori _ _ _ => "ORI" | .andi _ _ _ => "ANDI" | .slli _ _ _ => "SLLI"
  | .srli _ _ _ => "SRLI" | .srai _ _ _ => "SRAI" | .slti _ _ _ => "SLTI" | .sltiu _ _ _ => "SLTIU"
  | .sgt _ _ _ => "SGT" | .sgtu _ _ _ => "SGTU" | .sle _ _ _ => "SLE" | .sleu _ _ _ => "SLEU" | .sge _ _ _ => "SGE"
  | .sgeu _ _ _ => "SGEU" | .xori _ _ _ => "XORI" | .lui _ _ => "LUI" | .ldb _ _ _ => "LDB" | .ldh _ _ _ => "LDH"
  | .ldw _ _ _ => "LDW" | .ldbu _ _ _ => "LDBU" | .ldhu _ _ _ => "LDHU" | .stb _ _ _ => "STB" | .sth _ _ _ => "STH"
  | .stw _ _ _ => "STW" | .assertEq _ _ => "ASSERT_EQ" | .jal _ _ => "JAL" | .jalr _ _ _ => "JALR"
  | .beq _ _ _ => "BEQ" | .bne _ _ _ => "BNE" | .blt _ _ _ => "BLT" | .bge _ _ _ => "BGE" | .bltu _ _ _ => "BLTU"
  | .bgeu _ _ _ => "BGEU" | .nop => "NOP" | .yield => "YIELD" | .debug _ => "DEBUG" | .halt => "HALT"

/-- The operands of an instruction in the order they are written: loads give the address last, stores give it first. A number is
the value R94 takes the operand to be written as. -/
def operands : Instr → List Operand
  | .add d a b | .sub d a b | .mul d a b | .mulh d a b | .div d a b | .rem d a b => [.reg d, .reg a, .reg b]
  | .xor d a b | .or d a b | .and d a b | .sll d a b | .srl d a b | .sra d a b => [.reg d, .reg a, .reg b]
  | .slt d a b | .sltu d a b | .seq d a b | .sne d a b | .sgt d a b | .sgtu d a b => [.reg d, .reg a, .reg b]
  | .sle d a b | .sleu d a b | .sge d a b | .sgeu d a b => [.reg d, .reg a, .reg b]
  | .addi d a imm | .xori d a imm | .slti d a imm | .sltiu d a imm | .jalr d a imm =>
    [.reg d, .reg a, .number imm.toInt]
  | .ori d a imm | .andi d a imm | .slli d a imm | .srli d a imm | .srai d a imm => [.reg d, .reg a, .number imm.toNat]
  | .ldb d a imm | .ldh d a imm | .ldw d a imm | .ldbu d a imm | .ldhu d a imm => [.reg d, .address a imm.toInt]
  | .stb a b imm | .sth a b imm | .stw a b imm => [.address a imm.toInt, .reg b]
  | .beq a b imm | .bne a b imm | .blt a b imm | .bge a b imm | .bltu a b imm | .bgeu a b imm =>
    [.reg a, .reg b, .number imm.toInt]
  | .jal d imm => [.reg d, .number imm.toInt]
  | .lui d imm => [.reg d, .number imm.toNat]
  | .assertEq a b => [.reg a, .reg b]
  | .debug a => [.reg a]
  | .nop | .yield | .halt => []

/-! ## Constant expressions (R93): the operators of the source's one example -/

/-- A constant expression. Its full operator set is not in the source. -/
inductive ConstExpr where
  | lit (v : Int)
  | add (a b : ConstExpr)
  | mul (a b : ConstExpr)
  deriving DecidableEq, Repr

/-- The value of a constant expression. -/
def ConstExpr.value : ConstExpr → Int
  | .lit v => v
  | .add a b => a.value + b.value
  | .mul a b => a.value * b.value

/-! ## Operand ranges (R94, decision D38): the field an operand is encoded as, or none out of range -/

/-- A sign-extended 12-bit operand, -2048 to 2047 (ADDI, SLTI, SLTIU, XORI, loads, stores, JALR). -/
def signedOperand (v : Int) : Option (BitVec 12) :=
  if -2048 ≤ v ∧ v ≤ 2047 then some (BitVec.ofInt 12 v) else none

/-- A zero-extended 12-bit operand, 0 to 4095 (ORI). -/
def unsignedOperand (v : Int) : Option (BitVec 12) :=
  if 0 ≤ v ∧ v ≤ 4095 then some (BitVec.ofInt 12 v) else none

/-- The convenience range of the logical immediates, -2048 to 4095, encoded as the low 12 bits. -/
def logicalOperand (v : Int) : Option (BitVec 12) :=
  if -2048 ≤ v ∧ v ≤ 4095 then some (BitVec.ofInt 12 v) else none

/-- A shift amount, 0 to 31. -/
def shiftOperand (v : Int) : Option (BitVec 12) :=
  if 0 ≤ v ∧ v ≤ 31 then some (BitVec.ofInt 12 v) else none

/-- The LUI operand, 0 to 0xFFFFF. -/
def upperOperand (v : Int) : Option (BitVec 20) :=
  if 0 ≤ v ∧ v ≤ 0xFFFFF then some (BitVec.ofInt 20 v) else none

/-- A branch offset, even, -4096 to 4094 (R82). -/
def branchOperand (v : Int) : Option (BitVec 13) :=
  if -4096 ≤ v ∧ v ≤ 4094 ∧ v % 2 = 0 then some (BitVec.ofInt 13 v) else none

/-- A JAL offset, even, -1048576 to 1048574 (R84). -/
def jumpOperand (v : Int) : Option (BitVec 21) :=
  if -1048576 ≤ v ∧ v ≤ 1048574 ∧ v % 2 = 0 then some (BitVec.ofInt 21 v) else none

/-- A label operand: `address(lbl) - address(this instruction)`. -/
def labelOffset (label here : Word) : Int := (label.toNat : Int) - here.toNat

/-! ## Pseudo-instructions (R96 to R111) -/

/-- The sixteen rows of the pseudo-instruction table. A label operand is the offset it stands for (R94). -/
inductive Pseudo where
  | li (rd : Reg) (imm : Word)
  | la (rd : Reg) (address : Word)
  | mv (rd rs : Reg)
  | not (rd rs : Reg)
  | neg (rd rs : Reg)
  | seqz (rd rs : Reg)
  | snez (rd rs : Reg)
  | j (imm : BitVec 21)
  | jal (imm : BitVec 21)
  | ret
  | call (imm : BitVec 21)
  | nop
  | bgt (rs1 rs2 : Reg) (imm : BitVec 13)
  | ble (rs1 rs2 : Reg) (imm : BitVec 13)
  | bgtu (rs1 rs2 : Reg) (imm : BitVec 13)
  | bleu (rs1 rs2 : Reg) (imm : BitVec 13)
  deriving DecidableEq, Repr

/-- `lui rd, v[31:12]` then `ori rd, rd, v[11:0]` (R96, R97). -/
def luiOri (rd : Reg) (v : Word) : List Instr :=
  [.lui rd (v.extractLsb' 12 20), .ori rd rd (v.extractLsb' 0 12)]

/-- The native instructions a pseudo-instruction expands to. -/
def Pseudo.expand : Pseudo → List Instr
  | .li rd imm => if -2048 ≤ imm.toInt ∧ imm.toInt ≤ 2047 then [.addi rd 0 (imm.extractLsb' 0 12)] else luiOri rd imm
  | .la rd address => luiOri rd address
  | .mv rd rs => [.add rd rs 0]
  | .not rd rs => [.xori rd rs 0xFFF]
  | .neg rd rs => [.sub rd 0 rs]
  | .seqz rd rs => [.seq rd rs 0]
  | .snez rd rs => [.sne rd rs 0]
  | .j imm => [.jal 0 imm]
  | .jal imm => [.jal 31 imm]
  | .ret => [.jalr 0 31 0]
  | .call imm => [.jal 31 imm]
  | .nop => [.add 0 0 0]
  | .bgt rs1 rs2 imm => [.blt rs2 rs1 imm]
  | .ble rs1 rs2 imm => [.bge rs2 rs1 imm]
  | .bgtu rs1 rs2 imm => [.bltu rs2 rs1 imm]
  | .bleu rs1 rs2 imm => [.bgeu rs2 rs1 imm]

/-- Execute instructions one after another, stopping where one gives no next state. -/
def execAll : List Instr → State → Outcome
  | [], s => .next s
  | i :: is, s =>
    match exec i s with
    | .next t => execAll is t
    | .fault r => .fault r
    | .refused r => .refused r

/-! ## Data directives (R112): the bytes they emit. Where a section is loaded is not stated, so a launch takes images (R61) -/

/-- The rows of R112 that emit or reserve bytes. A string is the list of its bytes, since its escapes are not stated. -/
inductive Directive where
  | word (vs : List Int)      -- `.word`, `.long`
  | half (vs : List Int)
  | byte (vs : List Int)
  | ascii (bs : List Byte)
  | asciz (bs : List Byte)    -- `.string`, `.asciz`
  | zero (n : Nat)            -- `.zero`, `.space`
  | quad (vs : List Int)
  deriving DecidableEq, Repr

/-- The bytes a directive emits, lowest address first, little-endian; a 64-bit value is its low word, then its high word. A
value that does not fit its width keeps its low bits: DESIGN CHOICE, the spec does not say what the assembler does with one
(log entry 24). -/
def Directive.bytes : Directive → List Byte
  | .word vs => vs.flatMap fun v => toLittle 4 (BitVec.ofInt 32 v)
  | .half vs => vs.flatMap fun v => toLittle 2 (BitVec.ofInt 32 v)
  | .byte vs => vs.map fun v => BitVec.ofInt 8 v
  | .ascii bs => bs
  | .asciz bs => bs ++ [0x00]
  | .zero n => List.replicate n 0x00
  | .quad vs => vs.flatMap fun v => toLittle 4 (BitVec.ofInt 32 v) ++ toLittle 4 (BitVec.ofInt 32 (v / 2 ^ 32))

/-- `.align k`, 2 where no operand is given: the first multiple of `2^k` from an address up. What fills the gap is not
stated. -/
def alignUp (a : Nat) (k : Nat := 2) : Nat := (a + 2 ^ k - 1) / 2 ^ k * 2 ^ k

/-- The bytes of data directives as a DataImage from an address up (R62). -/
def dataImageAt (a : Word) (ds : List Directive) : List (Word × Byte) :=
  (ds.flatMap Directive.bytes).zipIdx.map fun p => (a + BitVec.ofNat 32 p.2, p.1)

/-- Instructions as a CodeImage from an address up (R62, R88): the canonical word of each, four bytes apart. -/
def codeImageAt (a : Word) (is : List Instr) : List (Word × Word) :=
  is.zipIdx.map fun p => (a + BitVec.ofNat 32 (4 * p.2), encode p.1)

end Sys2Proof.Machine
end

