-- ==== Sys2Proof/Machine/Launch.lean ====
section
/-! DEFINITION. A launch: the parameters a run is relative to (spec/70_reset_and_hazards.md R250 to R253) and the state they
give (spec/10_state.md R33; spec/20_memory.md R62). -/

namespace Sys2Proof.Machine

/-- The launch parameters (R252). `codeImage` lists the words of CodeImage at their addresses, `dataImage` the bytes of
DataImage, `regs` the other registers the launch defines, and `cfg` the parameters a step reads. -/
structure Launch where
  resetPc   : Word
  spAtReset : Option Word
  regs      : List (Reg × Word)
  codeImage : List (Word × Word)
  dataImage : List (Word × Byte)
  cfg       : Config
  deriving DecidableEq, Repr

/-- R6's defaults, with no program and no data. -/
def Launch.default : Launch where
  resetPc   := 0x00000000
  spAtReset := some stackTop
  regs      := []
  codeImage := []
  dataImage := []
  cfg       := Config.atReset

/-- One word of CodeImage: its domain holds only multiples of 4 in the Code region (R62). -/
def loadCode (m : Memory) (p : Word × Word) : Memory :=
  if p.1.toNat % 4 = 0 ∧ p.1.toNat ≤ codeLast then Memory.writeBytes m p.1 (bytesOfWord p.2) else m

/-- One byte of DataImage: its domain holds only Data addresses (R62). -/
def loadData (m : Memory) (p : Word × Byte) : Memory :=
  if regionOf p.1 = .data then Memory.write m p.1.toNat p.2 else m

/-- The registers before the launch defines any: r0 is zero (R22), each other one holds an arbitrary value (R34). -/
def blankRegs : Vector Word 32 := (Vector.ofFn Config.unspecifiedReg).set 0 0

/-- Defining registers, one after another. -/
def State.defineRegs (s : State) (ps : List (Reg × Word)) : State := ps.foldl (fun u p => u.writeReg p.1 p.2) s

/-- The launch state (R33, R250): only r0, r29 where SP_AT_RESET is given, and the registers the launch defines are defined.
Every other register holds the free value of its number, which only UNWRITTEN_REG = `any-value` lets a program read (R34). -/
def State.launch (l : Launch) : State :=
  let blank : State :=
    { regs := blankRegs, regDefined := (Vector.replicate 32 false).set 0 true, pc := l.resetPc,
      mem := l.dataImage.foldl loadData (l.codeImage.foldl loadCode []), status := .running, io := [], mmioLog := [],
      cfg := l.cfg }
  let withSp := match l.spAtReset with
    | none => blank
    | some sp => blank.writeReg 29 sp
  withSp.defineRegs l.regs

end Sys2Proof.Machine
end

