-- ==== Sys2Proof/Safety.lean ====
section
/-! DEFINITION. What a run is, how it ends (spec/70_reset_and_hazards.md R254), the invariant every step keeps, and the words
in which the statements describe an instruction's effect. -/

namespace Sys2Proof.Machine

/-! ## Runs (R254) -/

/-- A run from a state reaches another in some number of steps. -/
def Reaches (s t : State) : Prop := ∃ k, core.run k s = .next t

/-- The run from a state ends well: it reaches the status Halted. -/
def EndsWell (s : State) : Prop := ∃ t, Reaches s t ∧ t.status = .halted

/-- The run from a state ends badly: it reaches a fault, or a step the model refuses. -/
def EndsBadly (s : State) : Prop :=
  (∃ t c, Reaches s t ∧ t.status = .faulted c) ∨ (∃ t r, Reaches s t ∧ step t = .refused r)

/-- The run from a state goes on for ever. -/
def RunsForever (s : State) : Prop := ∀ k, ∃ t, core.run k s = .next t ∧ t.status = .running

/-! ## The invariant -/

/-- The invariant: memory is in canonical form and lists nothing in the MMIO region (R40), and r0 is stored as a defined
zero (R22), so that equal machines are equal data. -/
structure State.Inv (s : State) : Prop where
  memSorted  : Memory.wf s.mem
  memBacked  : ∀ c ∈ s.mem, c.1 < mmioBase
  zeroStored : s.regs[0] = 0
  zeroKnown  : s.regDefined[0] = true

/-! ## Words for the encoding of an instruction, over the word as a number -/

/-- The `n` bits of a word from bit `lo` up (R7). -/
def bitsAt (w : Word) (lo n : Nat) : Nat := w.toNat / 2 ^ lo % 2 ^ n

/-- The register a 5-bit field names (R71). -/
def regAt (w : Word) (lo : Nat) : Reg := ⟨w.toNat / 2 ^ lo % 32, Nat.mod_lt _ (by decide)⟩

/-- R-type (R72): opcode in bits 6:0, rd in 11:7, rs1 in 19:15, rs2 in 24:20, and no other bit matters. -/
def EncodedR (op : Nat) (mk : Reg → Reg → Reg → Instr) : Prop :=
  ∀ w : Word, bitsAt w 0 7 = op → decodeWord w = .ok (mk (regAt w 7) (regAt w 15) (regAt w 20))

/-- I-type (R73): rd in bits 11:7, rs1 in 19:15, the immediate in 31:20. -/
def EncodedI (op : Nat) (mk : Reg → Reg → BitVec 12 → Instr) : Prop :=
  ∀ w : Word, bitsAt w 0 7 = op → decodeWord w = .ok (mk (regAt w 7) (regAt w 15) (BitVec.ofNat 12 (bitsAt w 20 12)))

/-- S-type (R74, R81): rs1 in bits 19:15, rs2 in 24:20, immediate bits 11:5 in 31:25 and 4:0 in 11:7. -/
def EncodedS (op : Nat) (mk : Reg → Reg → BitVec 12 → Instr) : Prop :=
  ∀ w : Word, bitsAt w 0 7 = op →
    decodeWord w = .ok (mk (regAt w 15) (regAt w 20) (BitVec.ofNat 12 (bitsAt w 25 7 * 2 ^ 5 + bitsAt w 7 5)))

/-- B-type (R75, R82): immediate bit 12 in bit 31, 10:5 in 30:25, 4:1 in 11:8, 11 in bit 7, and bit 0 zero. -/
def EncodedB (op : Nat) (mk : Reg → Reg → BitVec 13 → Instr) : Prop :=
  ∀ w : Word, bitsAt w 0 7 = op →
    decodeWord w = .ok (mk (regAt w 15) (regAt w 20) (BitVec.ofNat 13
      (bitsAt w 31 1 * 2 ^ 12 + bitsAt w 7 1 * 2 ^ 11 + bitsAt w 25 6 * 2 ^ 5 + bitsAt w 8 4 * 2)))

/-- U-type (R76): rd in bits 11:7, the 20-bit field in 31:12. -/
def EncodedU (op : Nat) (mk : Reg → BitVec 20 → Instr) : Prop :=
  ∀ w : Word, bitsAt w 0 7 = op → decodeWord w = .ok (mk (regAt w 7) (BitVec.ofNat 20 (bitsAt w 12 20)))

/-- J-type (R77, R84): immediate bit 20 in bit 31, 10:1 in 30:21, 11 in bit 20, 19:12 in 19:12, and bit 0 zero. -/
def EncodedJ (op : Nat) (mk : Reg → BitVec 21 → Instr) : Prop :=
  ∀ w : Word, bitsAt w 0 7 = op →
    decodeWord w = .ok (mk (regAt w 7) (BitVec.ofNat 21
      (bitsAt w 31 1 * 2 ^ 20 + bitsAt w 12 8 * 2 ^ 12 + bitsAt w 20 1 * 2 ^ 11 + bitsAt w 21 10 * 2)))

/-- The canonical R-type word (R72), its unused bits zero, decodes to the instruction with those registers. -/
def CanonicalR (op : Nat) (mk : Reg → Reg → Reg → Instr) : Prop :=
  ∀ rd rs1 rs2 : Reg,
    decodeWord (BitVec.ofNat 32 (op + rd.val * 2 ^ 7 + rs1.val * 2 ^ 15 + rs2.val * 2 ^ 20)) = .ok (mk rd rs1 rs2)

/-- The canonical I-type word (R73), its unused bits zero, decodes to the instruction with those registers and immediate. -/
def CanonicalI (op : Nat) (mk : Reg → Reg → BitVec 12 → Instr) : Prop :=
  ∀ (rd rs1 : Reg) (imm : BitVec 12),
    decodeWord (BitVec.ofNat 32 (op + rd.val * 2 ^ 7 + rs1.val * 2 ^ 15 + imm.toNat * 2 ^ 20)) = .ok (mk rd rs1 imm)

/-- The 75 opcode values the source does not list (R87). -/
def unlistedOpcodes : List Nat :=
  [0x1F] ++ List.range' 0x21 15 ++ List.range' 0x35 3 ++ List.range' 0x3B 4 ++ List.range' 0x42 6 ++ [0x4E, 0x4F] ++
    List.range' 0x53 13 ++ List.range' 0x60 16 ++ List.range' 0x70 15

/-! ## Words for the effect of an instruction -/

/-- Every register of the list can be read (R34). -/
def State.CanRead (s : State) (rs : List Reg) : Prop := ∀ r ∈ rs, s.regReadable r = true

/-- The registers after are those before but for `rd`, which holds `v` unless it is r0 (R22); `rd` can be read. -/
def WritesReg (s t : State) (rd : Reg) (v : Word) : Prop :=
  ∀ r, t.reg r = (if r = rd ∧ rd ≠ 0 then v else s.reg r) ∧ t.regReadable r = (s.regReadable r || r == rd)

/-- No register changes. -/
def KeepsRegs (s t : State) : Prop := ∀ r, t.reg r = s.reg r ∧ t.regReadable r = s.regReadable r

/-- Every byte of memory reads as before. -/
def KeepsMemory (s t : State) : Prop := ∀ a, Memory.read t.mem a = Memory.read s.mem a

/-- The status, the io trace, the device and the launch parameters are as before. -/
def KeepsRest (s t : State) : Prop :=
  t.status = s.status ∧ t.io = s.io ∧ t.mmioLog = s.mmioLog ∧ t.cfg = s.cfg

/-- The whole effect of a computational instruction: `x[rd] <- v; pc <- pc + 4` and nothing else (R120). -/
def Computes (s t : State) (rd : Reg) (v : Word) : Prop :=
  WritesReg s t rd v ∧ t.pc = s.pc + 4 ∧ KeepsMemory s t ∧ KeepsRest s t

/-- The whole effect of an instruction that only moves the pc. -/
def OnlyMovesPc (s t : State) (pc : Word) : Prop := KeepsRegs s t ∧ t.pc = pc ∧ KeepsMemory s t ∧ KeepsRest s t

/-- A data access of `n` bytes at `a` that its checks let through to Data memory: every byte in the Data region and not above
DATA_LIMIT, and the address a multiple of `n` unless misaligned accesses are made bytewise (R51, R52). -/
def DataAccess (s : State) (a : Word) (n : Nat) : Prop :=
  0x00100000 ≤ a.toNat ∧ a.toNat + n ≤ 0x10000000 ∧ a.toNat + n - 1 ≤ s.cfg.dataLimit.toNat ∧
  (a.toNat % n = 0 ∨ s.cfg.misalignedData = .bytewise)

/-- The bytes `b 0` to `b (n-1)` are the contents listed at `a` and the addresses after it. -/
def Holds (s : State) (a : Word) (n : Nat) (b : Nat → Byte) : Prop :=
  ∀ k, k < n → Memory.read s.mem (a.toNat + k) = some (b k)

/-- The order in which the `n` bytes of an access at `a` are composed: DATA_BYTE_ORDER where `a` is a multiple of `n` (R47), and
little-endian where it is not (R52). -/
def State.orderAt (s : State) (a : Word) (n : Nat) : ByteOrder :=
  if a.toNat % n = 0 then s.cfg.dataByteOrder else .little

/-- The halfword made of two bytes, lowest address first (R47). -/
def halfOf (o : ByteOrder) (b : Nat → Byte) : BitVec 16 :=
  match o with
  | .little => b 1 ++ b 0
  | .big => b 0 ++ b 1

/-- The word made of four bytes, lowest address first (R47). -/
def wordOf (o : ByteOrder) (b : Nat → Byte) : Word :=
  match o with
  | .little => b 3 ++ b 2 ++ b 1 ++ b 0
  | .big => b 0 ++ b 1 ++ b 2 ++ b 3

/-- Which of the `n` low bytes of a stored value goes to the k-th byte of memory (R49). -/
def storedByte (o : ByteOrder) (n k : Nat) (v : Word) : Byte :=
  match o with
  | .little => v.extractLsb' (8 * k) 8
  | .big => v.extractLsb' (8 * (n - 1 - k)) 8

/-- The whole effect of a store of `n` bytes of `v` at `a`: those bytes and no other change, the pc advances, no register
changes (R49). -/
def Stores (s t : State) (a : Word) (n : Nat) (v : Word) : Prop :=
  (∀ b, Memory.read t.mem b =
    if a.toNat ≤ b ∧ b < a.toNat + n then some (storedByte (s.orderAt a n) n (b - a.toNat) v)
    else Memory.read s.mem b) ∧
  KeepsRegs s t ∧ t.pc = s.pc + 4 ∧ KeepsRest s t

/-- The instruction takes the fault: the status becomes Faulted with this cause and nothing else changes (R234). -/
def Takes (o : Outcome) (s : State) (c : Cause) : Prop := o = .next { s with status := .faulted c }

/-- The pc is at the target of a completed branch or jump, and the step from there takes the fetch fault where the target is no
address an instruction can be fetched from: misaligned, above the Code region, or with a byte outside CodeImage (R177, R183). -/
def FetchFaultsAt (t : State) (target : Word) : Prop :=
  t.pc = target ∧
  (target.toNat % 4 ≠ 0 → Takes (step t) t (.fetchMisaligned target)) ∧
  (target.toNat % 4 = 0 → (0x000FFFFF < target.toNat ∨ ∃ k, k < 4 ∧ Memory.read t.mem (target.toNat + k) = none) →
    Takes (step t) t (.fetchAccessFault target))

/-! ## Words for a misaligned access that a supplied device sees (R51, R233) -/

/-- The places of the first `m` bytes from an address up that are in the MMIO region. -/
def deviceBytes (a : Word) (m : Nat) : List Nat := (List.range m).filter fun j => 0x10000000 ≤ a.toNat + j

/-- What the device sees of the first `m` bytes of a load made byte by byte. -/
def byteReads (a : Word) (m : Nat) : List MmioAccess :=
  (deviceBytes a m).map fun j => .read (a + BitVec.ofNat 32 j) .byte

/-- What the device sees of a store of `n` bytes of `v` made byte by byte, in little-endian order (R52). -/
def byteWrites (a : Word) (n : Nat) (v : Word) : List MmioAccess :=
  (deviceBytes a n).map fun j => .write (a + BitVec.ofNat 32 j) .byte ((storedByte .little n j v).setWidth 32)

/-- Instruction memory holds the word at the pc, little-endian, and the pc is one an instruction can be fetched from
(R32, R46, R50). -/
def Fetches (s : State) (w : Word) : Prop :=
  s.pc.toNat % 4 = 0 ∧ s.pc.toNat ≤ 0x000FFFFF ∧
  ∀ k : Nat, k < 4 → Memory.read s.mem (s.pc.toNat + k) = some (w.extractLsb' (8 * k) 8)

end Sys2Proof.Machine
end

