-- ==== Sys2Proof/Certificates/Slice0/Obligations.lean ====
section
/-! DEFINITION. The statements about the model, for the provers: encoding, the step, what each instruction does and leaves
alone, where it takes a fault, and what holds of the whole machine. -/

open Sys2Proof Sys2Proof.Machine

/-! ## Encoding (spec/30_encoding.md) -/

/-- Decoding the canonical word of a well-formed instruction gives the instruction back. -/
def Obligations.DecodeOfEncodeIsIdentity : Prop :=
  ∀ i : Instr, i.wf = true → decodeWord (encode i) = .ok i

/-- Every word with a listed opcode decodes to a well-formed instruction that the same opcode selects, whose canonical
word decodes to it again; and every word with an unlisted opcode decodes to `Illegal`. Rests on the spec's own decisions
D14, D15 (log entries 13, 16). -/
def Obligations.DecoderIsTotalAndClosed : Prop :=
  ∀ w : Word,
    (bitsAt w 0 7 ∈ unlistedOpcodes → decodeWord w = .illegal w) ∧
    (bitsAt w 0 7 ∉ unlistedOpcodes → ∃ i, decodeWord w = .ok i ∧ i.wf = true ∧ decodeWord (encode i) = .ok i ∧
      bitsAt (encode i) 0 7 = bitsAt w 0 7)

/-- Canonical words written out from the format lines decode to the instructions they stand for, one for each format.
Rests on the spec's own decisions D14, D15 (log entries 13, 16). -/
def Obligations.CanonicalWordsDecode : Prop :=
  decodeWord 0x00310081 = .ok (.sub 1 2 3) ∧ decodeWord 0xFFD10090 = .ok (.addi 1 2 0xFFD) ∧
  decodeWord 0xABCDE0A0 = .ok (.lui 1 0xABCDE) ∧ decodeWord 0xFE310EBA = .ok (.stw 2 3 0xFFD) ∧
  decodeWord 0xFE310DC8 = .ok (.beq 2 3 0x1FFA) ∧ decodeWord 0xFFBFF0C0 = .ok (.jal 1 0x1FFFFA) ∧
  decodeWord 0xFFFFFFFF = .ok .halt ∧ decodeWord 0xFFFFFFD0 = .ok .nop ∧ decodeWord 0x0000001F = .illegal 0x1F

/-- Whatever its unused bits hold, a word with one of these opcodes decodes by its opcode and its register and immediate
fields alone: the register forms whose results are stated over canonical words below, and ADDI. That the unused bits are
ignored is the spec's own decision D15 (log entry 13). -/
def Obligations.UnusedBitsAreIgnored : Prop :=
  EncodedR 0x00 .add ∧ EncodedR 0x01 .sub ∧ EncodedR 0x02 .xor ∧ EncodedR 0x03 .or ∧ EncodedR 0x04 .and ∧
  EncodedR 0x08 .slt ∧ EncodedR 0x09 .sltu ∧ EncodedR 0x0A .mul ∧ EncodedR 0x0E .seq ∧ EncodedR 0x0F .sne ∧
  EncodedR 0x18 .sgt ∧ EncodedR 0x19 .sgtu ∧ EncodedR 0x1A .sle ∧ EncodedR 0x1B .sleu ∧ EncodedR 0x1C .sge ∧
  EncodedR 0x1D .sgeu ∧ EncodedI 0x10 .addi

/-! ## The step (spec/10_state.md R32) -/

/-- A running machine whose pc names a word of Code memory runs the instruction that word decodes to, and takes
IllegalInstruction where it decodes to none. Rests on the spec's own decisions D14, D28 (log entries 8, 16). -/
def Obligations.StepRunsTheDecodedInstruction : Prop :=
  ∀ (s : State) (w : Word), s.status = .running → Fetches s w →
    (∀ i, decodeWord w = .ok i → step s = exec i s) ∧
    (bitsAt w 0 7 ∈ unlistedOpcodes → Takes (step s) s (.illegalInstruction s.pc w))

/-- A pc that is not a multiple of 4 takes FetchMisaligned; one that is, but lies above the Code region or at a word with
a byte outside CodeImage, takes FetchAccessFault. Rests on the spec's own decisions D4, D8, D11 (log entries 6, 16); that a
word with only some of its bytes listed is outside CodeImage is the model's choice (log entry 9). -/
def Obligations.BadPcFaultsAtFetch : Prop :=
  ∀ s : State, s.status = .running →
    (s.pc.toNat % 4 ≠ 0 → Takes (step s) s (.fetchMisaligned s.pc)) ∧
    (s.pc.toNat % 4 = 0 →
      (0x000FFFFF < s.pc.toNat ∨ ∃ k, k < 4 ∧ Memory.read s.mem (s.pc.toNat + k) = none) →
      Takes (step s) s (.fetchAccessFault s.pc))

/-- From a halted or faulted state there is no step. Rests on the spec's own decisions D28, D32 (log entries 8, 22). -/
def Obligations.TerminalStatesHaveNoStep : Prop :=
  ∀ s : State, (s.status = .halted → step s = .fault .afterHalt) ∧
    (∀ c, s.status = .faulted c → step s = .fault (.afterFault c))

/-- A step that ends in a fault changed nothing but the status. Rests on the spec's own decision D28 (log entry 8); that a
host's turn faults no machine is the model's reading of R213 and R245 (log entry 3). -/
def Obligations.FaultsChangeOnlyTheStatus : Prop :=
  ∀ (s t : State) (c : Cause), step s = .next t → t.status = .faulted c → t = { s with status := .faulted c }

/-- A step halts the machine only by executing HALT, and then changes nothing but the status. Rests on the spec's own
decisions D28, D32 (log entries 8, 22); that a host's turn halts no machine is the model's reading of R213 and R245 (log
entry 3). -/
def Obligations.OnlyHaltHalts : Prop :=
  ∀ s t : State, step s = .next t → t.status = .halted →
    ∃ w, Fetches s w ∧ bitsAt w 0 7 = 0x7F ∧ t = { s with status := .halted }

/-- An instruction that leaves the machine running ends with pc + 4, or is a branch, JAL or JALR at its target. Rests on
the spec's own decisions D13, D16, D26, D27 (log entries 16, 17, 21); that a host's turn moves no pc is the model's reading
of R213 (log entry 3). -/
def Obligations.PcAdvancesOrTransfers : Prop :=
  ∀ (i : Instr) (s t : State), s.status = .running → exec i s = .next t → t.status = .running →
    t.pc = s.pc + 4 ∨
    (∃ rs1 rs2 imm, i ∈ [.beq rs1 rs2 imm, .bne rs1 rs2 imm, .blt rs1 rs2 imm, .bge rs1 rs2 imm, .bltu rs1 rs2 imm,
      .bgeu rs1 rs2 imm] ∧ t.pc = s.pc + imm.signExtend 32) ∨
    (∃ rd imm, i = .jal rd imm ∧ t.pc = s.pc + imm.signExtend 32) ∨
    (∃ rd rs1 imm, i = .jalr rd rs1 imm ∧ t.pc = s.reg rs1 + imm.signExtend 32)

/-! ## The whole machine -/

/-- Every step keeps the invariant: memory canonical and nothing listed in the MMIO region, r0 a defined zero. The form is
the model's own (log entry 9). -/
def Obligations.StepKeepsTheInvariant : Prop :=
  ∀ s t : State, s.Inv → step s = .next t → t.Inv

/-- The reset state meets the invariant. The form is the model's own (log entry 9). -/
def Obligations.ResetMeetsTheInvariant : Prop := State.reset.Inv

/-- Two memories in canonical form that read the same everywhere are the same data. The form is the model's own (log entry
9). -/
def Obligations.MemoryFormIsCanonical : Prop :=
  ∀ m n : Memory, Memory.wf m → Memory.wf n → (∀ a, Memory.read m a = Memory.read n a) → m = n

/-- No step changes a byte of Code memory, so no step changes what any fetch returns. Rests on the spec's own decision D10
(log entry 16); that a host's turn leaves Code memory alone is the model's reading of R59 (log entry 3). -/
def Obligations.CodeMemoryIsConstant : Prop :=
  ∀ s t : State, step s = .next t → ∀ a : Nat, a ≤ 0x000FFFFF → Memory.read t.mem a = Memory.read s.mem a

/-- The io trace is only ever appended to; with no MMIO device supplied, only DEBUG and YIELD append: DEBUG one DebugChar,
YIELD one Yield and after it whatever events a host that may act appends (the model's free value, log entry 3), none where
HOST_ON_YIELD is identity. Rests on the spec's own decisions D12, D30, D31 (log entries 3, 4, 22). -/
def Obligations.TraceIsAppendOnly : Prop :=
  ∀ s t : State, step s = .next t → s.io <+: t.io ∧
    (s.cfg.mmio = .absent → t.io = s.io ∨
      (∃ w, Fetches s w ∧ ((bitsAt w 0 7 = 0x51 ∧ ∃ es, t.io = s.io ++ .yield :: es ∧
          (s.cfg.hostOnYield = .identity → es = [])) ∨
        (bitsAt w 0 7 = 0x52 ∧ ∃ b, t.io = s.io ++ [.debugChar b]))))

/-- No step changes a launch parameter. The form is the model's own (log entry 10). -/
def Obligations.LaunchParametersNeverChange : Prop :=
  ∀ s t : State, step s = .next t → t.cfg = s.cfg

/-- An instruction changes no register but the one its encoding names as destination, and never r0 (at a YIELD, when the
host does nothing). Rests on the spec's own decisions D31, D39 (log entries 3, 24). -/
def Obligations.OnlyTheNamedRegisterChanges : Prop :=
  ∀ (i : Instr) (s t : State), exec i s = .next t → (i = .yield → s.cfg.hostOnYield = .identity) →
    ∀ r : Reg, (i.dest ≠ some r ∨ r = 0) → t.reg r = s.reg r

/-- An instruction with a source register that cannot be read takes UnspecifiedRead of such a register. Rests on the
spec's own decision D3 (log entry 14). -/
def Obligations.UnreadableRegisterFaults : Prop :=
  ∀ (i : Instr) (s : State), (∃ r ∈ i.sources, s.regReadable r = false) →
    ∃ r ∈ i.sources, s.regReadable r = false ∧ Takes (exec i s) s (.unspecifiedRead (.register r))

/-! ## Reset and launch (spec/10_state.md R33) -/

/-- The reset state: pc 0, r0 zero, the stack pointer at 0x0FFFFFF0, Running, an empty trace, nothing in memory. Rests on
the spec's own decisions D2, D3, D4, D5, D28, D30 (log entries 2, 6, 8, 14, 22). -/
def Obligations.ResetState : Prop :=
  State.reset.pc = 0x00000000 ∧ State.reset.reg 0 = 0 ∧ State.reset.reg 29 = 0x0FFFFFF0 ∧
  State.reset.status = .running ∧ State.reset.io = [] ∧ ∀ a, Memory.read State.reset.mem a = none

/-- The launch state. It starts at RESET_PC, running with an empty trace and a device that has seen nothing; each word of
CodeImage is what a fetch at its address reads, each byte of DataImage is the content of its address, and an address outside
both holds no value. r0 is zero; a register the launch defines holds its value, and r29 SP_AT_RESET where that is given and
the launch does not define it otherwise; every other register can be read under any-value alone, and then holds the model's
free value of its number (log entry 2). Each of the three lists names an address or a register once, being a map. Rests on
the spec's own decisions D2, D3, D4, D5, D40 (log entries 2, 6, 10, 14). -/
def Obligations.LaunchState : Prop :=
  ∀ l : Launch, l.codeImage.Pairwise (fun p q => p.1 ≠ q.1) → l.dataImage.Pairwise (fun p q => p.1 ≠ q.1) →
    l.regs.Pairwise (fun p q => p.1 ≠ q.1) →
    (State.launch l).pc = l.resetPc ∧ (State.launch l).status = .running ∧ (State.launch l).io = [] ∧
    (State.launch l).mmioLog = [] ∧ (State.launch l).Inv ∧ (State.launch l).cfg = l.cfg ∧
    (∀ p ∈ l.codeImage, p.1.toNat % 4 = 0 → p.1.toNat ≤ 0x000FFFFF → (State.launch l).codeWord p.1 = some p.2) ∧
    (∀ p ∈ l.dataImage, 0x00100000 ≤ p.1.toNat → p.1.toNat < 0x10000000 →
      Memory.read (State.launch l).mem p.1.toNat = some p.2) ∧
    (∀ a : Nat,
      (∀ p ∈ l.codeImage, p.1.toNat % 4 = 0 → p.1.toNat ≤ 0x000FFFFF → ¬(p.1.toNat ≤ a ∧ a < p.1.toNat + 4)) →
      (∀ p ∈ l.dataImage, 0x00100000 ≤ p.1.toNat → p.1.toNat < 0x10000000 → p.1.toNat ≠ a) →
      Memory.read (State.launch l).mem a = none) ∧
    (State.launch l).reg 0 = 0 ∧
    (∀ p ∈ l.regs, p.1 ≠ 0 → (State.launch l).reg p.1 = p.2 ∧ (State.launch l).regReadable p.1 = true) ∧
    (∀ sp, l.spAtReset = some sp → (∀ p ∈ l.regs, p.1 ≠ 29) →
      (State.launch l).reg 29 = sp ∧ (State.launch l).regReadable 29 = true) ∧
    (∀ r : Reg, r ≠ 0 → (∀ p ∈ l.regs, p.1 ≠ r) → (r = 29 → l.spAtReset = none) →
      (State.launch l).reg r = Config.unspecifiedReg r ∧
      ((State.launch l).regReadable r = true ↔ l.cfg.unwrittenReg = .anyValue))

/-! ## Arithmetic (spec/40_arithmetic.md) -/

/-- ADD, SUB, MUL: the canonical word, the 32-bit result modulo 2^32, the same whether the operands are read as unsigned
or as signed, and nothing else changes. -/
def Obligations.AddSubMul : Prop :=
  CanonicalR 0x00 .add ∧ CanonicalR 0x01 .sub ∧ CanonicalR 0x0A .mul ∧
  ∀ (rd rs1 rs2 : Reg) (s : State), s.CanRead [rs1, rs2] →
    (∃ t v, exec (.add rd rs1 rs2) s = .next t ∧ Computes s t rd v ∧
      v = BitVec.ofNat 32 ((s.reg rs1).toNat + (s.reg rs2).toNat) ∧
      v = BitVec.ofInt 32 ((s.reg rs1).toInt + (s.reg rs2).toInt)) ∧
    (∃ t v, exec (.sub rd rs1 rs2) s = .next t ∧ Computes s t rd v ∧
      v = BitVec.ofInt 32 ((s.reg rs1).toNat - (s.reg rs2).toNat) ∧
      v = BitVec.ofInt 32 ((s.reg rs1).toInt - (s.reg rs2).toInt)) ∧
    (∃ t v, exec (.mul rd rs1 rs2) s = .next t ∧ Computes s t rd v ∧
      v = BitVec.ofNat 32 ((s.reg rs1).toNat * (s.reg rs2).toNat) ∧
      v = BitVec.ofInt 32 ((s.reg rs1).toInt * (s.reg rs2).toInt))

/-- ADDI: the canonical word, the sum with the sign-extended immediate modulo 2^32, and nothing else changes. -/
def Obligations.Addi : Prop :=
  CanonicalI 0x10 .addi ∧
  ∀ (rd rs1 : Reg) (imm : BitVec 12) (s : State), s.CanRead [rs1] →
    ∃ t, exec (.addi rd rs1 imm) s = .next t ∧ Computes s t rd (BitVec.ofInt 32 ((s.reg rs1).toNat + imm.toInt))

/-- MULH: bits 63 to 32 of the exact product, of unsigned operands or, by the parameter, of signed ones. Rests on the
spec's own decisions D15, D23 (log entries 13, 19). -/
def Obligations.MulhIsTheHighHalf : Prop :=
  EncodedR 0x0B .mulh ∧
  ∀ (rd rs1 rs2 : Reg) (s : State), s.CanRead [rs1, rs2] →
    ∃ t v, exec (.mulh rd rs1 rs2) s = .next t ∧ Computes s t rd v ∧
      (s.cfg.mulhSignedness = .unsignedUnsigned →
        v = ((s.reg rs1).setWidth 64 * (s.reg rs2).setWidth 64).extractLsb' 32 32) ∧
      (s.cfg.mulhSignedness = .signedSigned →
        v = ((s.reg rs1).signExtend 64 * (s.reg rs2).signExtend 64).extractLsb' 32 32)

/-- DIV and REM away from the two corners: the quotient is rounded toward zero and the remainder is zero or of the
dividend's sign, with `a = b*q + r` and `|r| < |b|`. Rests on the spec's own decisions D15, D24 (log entries 13, 20). -/
def Obligations.DivRemTruncate : Prop :=
  EncodedR 0x0C .div ∧ EncodedR 0x0D .rem ∧
  ∀ (rd rs1 rs2 : Reg) (s : State), s.CanRead [rs1, rs2] → s.reg rs2 ≠ 0 →
    ¬(s.reg rs1 = 0x80000000 ∧ s.reg rs2 = 0xFFFFFFFF) →
    ∃ t u q r, exec (.div rd rs1 rs2) s = .next t ∧ Computes s t rd q ∧
      exec (.rem rd rs1 rs2) s = .next u ∧ Computes s u rd r ∧
      q.toInt = (s.reg rs1).toInt.tdiv (s.reg rs2).toInt ∧
      (s.reg rs1).toInt = (s.reg rs2).toInt * q.toInt + r.toInt ∧
      r.toInt.natAbs < (s.reg rs2).toInt.natAbs ∧ (r.toInt = 0 ∨ r.toInt.sign = (s.reg rs1).toInt.sign)

/-- DIV and REM at a zero divisor and at -2^31 by -1: DivideByZero and DivideOverflow under DIV_CORNER = fault; under
riscv-values the results are all ones and the dividend, and -2^31 and 0. Rests on the spec's own decision D25 (log entry
20). -/
def Obligations.DivRemCorners : Prop :=
  ∀ (rd rs1 rs2 : Reg) (s : State), s.CanRead [rs1, rs2] →
    (s.reg rs2 = 0 →
      (s.cfg.divCorner = .fault →
        Takes (exec (.div rd rs1 rs2) s) s (.divideByZero s.pc) ∧
        Takes (exec (.rem rd rs1 rs2) s) s (.divideByZero s.pc)) ∧
      (s.cfg.divCorner = .riscvValues →
        (∃ t, exec (.div rd rs1 rs2) s = .next t ∧ Computes s t rd 0xFFFFFFFF) ∧
        (∃ t, exec (.rem rd rs1 rs2) s = .next t ∧ Computes s t rd (s.reg rs1)))) ∧
    (s.reg rs1 = 0x80000000 ∧ s.reg rs2 = 0xFFFFFFFF →
      (s.cfg.divCorner = .fault →
        Takes (exec (.div rd rs1 rs2) s) s (.divideOverflow s.pc) ∧
        Takes (exec (.rem rd rs1 rs2) s) s (.divideOverflow s.pc)) ∧
      (s.cfg.divCorner = .riscvValues →
        (∃ t, exec (.div rd rs1 rs2) s = .next t ∧ Computes s t rd 0x80000000) ∧
        (∃ t, exec (.rem rd rs1 rs2) s = .next t ∧ Computes s t rd 0)))

/-! ## Logical (spec/41_logical.md) -/

/-- XOR, OR, AND: bit by bit over all 32 bits, and nothing else changes. -/
def Obligations.XorOrAnd : Prop :=
  CanonicalR 0x02 .xor ∧ CanonicalR 0x03 .or ∧ CanonicalR 0x04 .and ∧
  ∀ (rd rs1 rs2 : Reg) (s : State), s.CanRead [rs1, rs2] →
    (∃ t v, exec (.xor rd rs1 rs2) s = .next t ∧ Computes s t rd v ∧
      ∀ k, v.getLsbD k = ((s.reg rs1).getLsbD k ^^ (s.reg rs2).getLsbD k)) ∧
    (∃ t v, exec (.or rd rs1 rs2) s = .next t ∧ Computes s t rd v ∧
      ∀ k, v.getLsbD k = ((s.reg rs1).getLsbD k || (s.reg rs2).getLsbD k)) ∧
    (∃ t v, exec (.and rd rs1 rs2) s = .next t ∧ Computes s t rd v ∧
      ∀ k, v.getLsbD k = ((s.reg rs1).getLsbD k && (s.reg rs2).getLsbD k))

/-- ORI zero-extends and XORI sign-extends: ORI keeps bits 31 to 12, XORI flips them all when immediate bit 11 is set.
Rests on the spec's own decisions D15, D19, D20 (log entries 13, 17). -/
def Obligations.OriZeroExtendsXoriSignExtends : Prop :=
  EncodedI 0x11 .ori ∧ EncodedI 0x1E .xori ∧
  ∀ (rd rs1 : Reg) (imm : BitVec 12) (s : State), s.CanRead [rs1] →
    (∃ t v, exec (.ori rd rs1 imm) s = .next t ∧ Computes s t rd v ∧
      ∀ k, k < 32 → v.getLsbD k = ((s.reg rs1).getLsbD k || (decide (k < 12) && imm.getLsbD k))) ∧
    (∃ t v, exec (.xori rd rs1 imm) s = .next t ∧ Computes s t rd v ∧
      ∀ k, k < 32 → v.getLsbD k = ((s.reg rs1).getLsbD k ^^ imm.getLsbD (min k 11)))

/-- ANDI: with immediate bit 11 clear the result is the same whatever the parameter says; with it set the parameter
decides, the refusal AndiImmOpen answers a launch that gave no value, and where the extension is left free (the model's
choice, log entry 1) the instruction runs and the result is that of one of the two readings. Rests on the spec's own
decisions D15, D21 (log entries 1, 13). -/
def Obligations.AndiByItsParameter : Prop :=
  EncodedI 0x12 .andi ∧
  ∀ (rd rs1 : Reg) (imm : BitVec 12) (s : State), s.CanRead [rs1] →
    (imm.getLsbD 11 = false →
      ∃ t, exec (.andi rd rs1 imm) s = .next t ∧ Computes s t rd (s.reg rs1 &&& imm.setWidth 32)) ∧
    (imm.getLsbD 11 = true →
      (s.cfg.andiImmExt = .zero →
        ∃ t, exec (.andi rd rs1 imm) s = .next t ∧ Computes s t rd (s.reg rs1 &&& imm.setWidth 32)) ∧
      (s.cfg.andiImmExt = .sign →
        ∃ t, exec (.andi rd rs1 imm) s = .next t ∧ Computes s t rd (s.reg rs1 &&& imm.signExtend 32)) ∧
      (s.cfg.andiImmExt = .free →
        ∃ t v, exec (.andi rd rs1 imm) s = .next t ∧ Computes s t rd v ∧
          (v = s.reg rs1 &&& imm.setWidth 32 ∨ v = s.reg rs1 &&& imm.signExtend 32)) ∧
      (s.cfg.andiImmExt = .notGiven → exec (.andi rd rs1 imm) s = .refused (.andiImmOpen s.pc)))

/-! ## Shifts (spec/42_shift.md) -/

/-- SLL, SRL, SRA under SHAMT_RULE = mask5: the amount is the low five bits of rs2, zeros or copies of bit 31 enter. Rests
on the spec's own decisions D15, D22 (log entries 13, 18). -/
def Obligations.RegisterShifts : Prop :=
  EncodedR 0x05 .sll ∧ EncodedR 0x06 .srl ∧ EncodedR 0x07 .sra ∧
  ∀ (rd rs1 rs2 : Reg) (s : State), s.CanRead [rs1, rs2] → s.cfg.shamtRule = .mask5 →
    (∃ t, exec (.sll rd rs1 rs2) s = .next t ∧ Computes s t rd (s.reg rs1 <<< ((s.reg rs2).extractLsb' 0 5).toNat)) ∧
    (∃ t, exec (.srl rd rs1 rs2) s = .next t ∧ Computes s t rd (s.reg rs1 >>> ((s.reg rs2).extractLsb' 0 5).toNat)) ∧
    (∃ t, exec (.sra rd rs1 rs2) s = .next t ∧
      Computes s t rd ((s.reg rs1).sshiftRight ((s.reg rs2).extractLsb' 0 5).toNat))

/-- SLLI, SRLI, SRAI under SHAMT_RULE = mask5: the amount is the low five bits of the immediate. Rests on the spec's own
decisions D15, D22 (log entries 13, 18). -/
def Obligations.ImmediateShifts : Prop :=
  EncodedI 0x13 .slli ∧ EncodedI 0x14 .srli ∧ EncodedI 0x15 .srai ∧
  ∀ (rd rs1 : Reg) (imm : BitVec 12) (s : State), s.CanRead [rs1] → s.cfg.shamtRule = .mask5 →
    (∃ t, exec (.slli rd rs1 imm) s = .next t ∧ Computes s t rd (s.reg rs1 <<< (imm.extractLsb' 0 5).toNat)) ∧
    (∃ t, exec (.srli rd rs1 imm) s = .next t ∧ Computes s t rd (s.reg rs1 >>> (imm.extractLsb' 0 5).toNat)) ∧
    (∃ t, exec (.srai rd rs1 imm) s = .next t ∧ Computes s t rd ((s.reg rs1).sshiftRight (imm.extractLsb' 0 5).toNat))

/-- Under SHAMT_RULE = fault-if-over-31 a shift whose operand has a set bit above the low five takes
ShiftAmountOutOfRange, and any other gives what it gives under mask5. Rests on the spec's own decision D22 (log entry 18).
-/
def Obligations.ShiftAmountRule : Prop :=
  ∀ (rd rs1 rs2 : Reg) (imm : BitVec 12) (s : State), s.cfg.shamtRule = .faultIfOver31 →
    (∀ i ∈ [Instr.sll rd rs1 rs2, .srl rd rs1 rs2, .sra rd rs1 rs2], s.CanRead [rs1, rs2] →
      (32 ≤ (s.reg rs2).toNat → Takes (exec i s) s (.shiftAmountOutOfRange s.pc)) ∧
      ((s.reg rs2).toNat < 32 → ∃ t, exec i s = .next t ∧
        exec i { s with cfg := { s.cfg with shamtRule := .mask5 } } =
          .next { t with cfg := { t.cfg with shamtRule := .mask5 } })) ∧
    (∀ i ∈ [Instr.slli rd rs1 imm, .srli rd rs1 imm, .srai rd rs1 imm], s.CanRead [rs1] →
      (32 ≤ imm.toNat → Takes (exec i s) s (.shiftAmountOutOfRange s.pc)) ∧
      (imm.toNat < 32 → ∃ t, exec i s = .next t ∧
        exec i { s with cfg := { s.cfg with shamtRule := .mask5 } } =
          .next { t with cfg := { t.cfg with shamtRule := .mask5 } }))

/-! ## Comparisons (spec/43_comparison.md) -/

/-- SLT, SLTU, SEQ, SNE write 1 when the condition holds and 0 when it does not, and nothing else changes. -/
def Obligations.SltSltuSeqSne : Prop :=
  CanonicalR 0x08 .slt ∧ CanonicalR 0x09 .sltu ∧ CanonicalR 0x0E .seq ∧ CanonicalR 0x0F .sne ∧
  ∀ (rd rs1 rs2 : Reg) (s : State), s.CanRead [rs1, rs2] →
    (∃ t, exec (.slt rd rs1 rs2) s = .next t ∧
      Computes s t rd (if (s.reg rs1).toInt < (s.reg rs2).toInt then 1 else 0)) ∧
    (∃ t, exec (.sltu rd rs1 rs2) s = .next t ∧
      Computes s t rd (if (s.reg rs1).toNat < (s.reg rs2).toNat then 1 else 0)) ∧
    (∃ t, exec (.seq rd rs1 rs2) s = .next t ∧ Computes s t rd (if s.reg rs1 = s.reg rs2 then 1 else 0)) ∧
    (∃ t, exec (.sne rd rs1 rs2) s = .next t ∧ Computes s t rd (if s.reg rs1 ≠ s.reg rs2 then 1 else 0))

/-- SGT, SGTU, SLE, SLEU, SGE, SGEU write 1 when the condition holds and 0 when it does not, and nothing else changes. -/
def Obligations.SgtSleSgeSignedAndUnsigned : Prop :=
  CanonicalR 0x18 .sgt ∧ CanonicalR 0x19 .sgtu ∧ CanonicalR 0x1A .sle ∧ CanonicalR 0x1B .sleu ∧ CanonicalR 0x1C .sge ∧
  CanonicalR 0x1D .sgeu ∧
  ∀ (rd rs1 rs2 : Reg) (s : State), s.CanRead [rs1, rs2] →
    (∃ t, exec (.sgt rd rs1 rs2) s = .next t ∧
      Computes s t rd (if (s.reg rs1).toInt > (s.reg rs2).toInt then 1 else 0)) ∧
    (∃ t, exec (.sgtu rd rs1 rs2) s = .next t ∧
      Computes s t rd (if (s.reg rs1).toNat > (s.reg rs2).toNat then 1 else 0)) ∧
    (∃ t, exec (.sle rd rs1 rs2) s = .next t ∧
      Computes s t rd (if (s.reg rs1).toInt ≤ (s.reg rs2).toInt then 1 else 0)) ∧
    (∃ t, exec (.sleu rd rs1 rs2) s = .next t ∧
      Computes s t rd (if (s.reg rs1).toNat ≤ (s.reg rs2).toNat then 1 else 0)) ∧
    (∃ t, exec (.sge rd rs1 rs2) s = .next t ∧
      Computes s t rd (if (s.reg rs1).toInt ≥ (s.reg rs2).toInt then 1 else 0)) ∧
    (∃ t, exec (.sgeu rd rs1 rs2) s = .next t ∧
      Computes s t rd (if (s.reg rs1).toNat ≥ (s.reg rs2).toNat then 1 else 0))

/-- SLTI compares signed with the sign-extended immediate; SLTIU compares unsigned with the immediate widened as
SLTIU_IMM_EXT says, sign by default. Rests on the spec's own decisions D15, D17, D18 (log entries 13, 17). -/
def Obligations.SltiSltiu : Prop :=
  EncodedI 0x16 .slti ∧ EncodedI 0x17 .sltiu ∧
  ∀ (rd rs1 : Reg) (imm : BitVec 12) (s : State), s.CanRead [rs1] →
    (∃ t, exec (.slti rd rs1 imm) s = .next t ∧ Computes s t rd (if (s.reg rs1).toInt < imm.toInt then 1 else 0)) ∧
    (s.cfg.sltiuImmExt = .sign → ∃ t, exec (.sltiu rd rs1 imm) s = .next t ∧
      Computes s t rd (if (s.reg rs1).toNat < (imm.signExtend 32).toNat then 1 else 0)) ∧
    (s.cfg.sltiuImmExt = .zero → ∃ t, exec (.sltiu rd rs1 imm) s = .next t ∧
      Computes s t rd (if (s.reg rs1).toNat < imm.toNat then 1 else 0))

/-! ## Branches and jumps (spec/44_branch.md, spec/45_jump.md) -/

/-- The six branches: pc plus the sign-extended offset when the condition holds, pc + 4 when not, and nothing else
changes. Rests on the spec's own decisions D15, D26 (log entries 13, 21). -/
def Obligations.Branches : Prop :=
  EncodedB 0x48 .beq ∧ EncodedB 0x49 .bne ∧ EncodedB 0x4A .blt ∧ EncodedB 0x4B .bge ∧ EncodedB 0x4C .bltu ∧
  EncodedB 0x4D .bgeu ∧
  ∀ (rs1 rs2 : Reg) (imm : BitVec 13) (s : State), s.CanRead [rs1, rs2] →
    (∃ t, exec (.beq rs1 rs2 imm) s = .next t ∧
      OnlyMovesPc s t (if s.reg rs1 = s.reg rs2 then s.pc + BitVec.ofInt 32 imm.toInt else s.pc + 4)) ∧
    (∃ t, exec (.bne rs1 rs2 imm) s = .next t ∧
      OnlyMovesPc s t (if s.reg rs1 ≠ s.reg rs2 then s.pc + BitVec.ofInt 32 imm.toInt else s.pc + 4)) ∧
    (∃ t, exec (.blt rs1 rs2 imm) s = .next t ∧
      OnlyMovesPc s t (if (s.reg rs1).toInt < (s.reg rs2).toInt then s.pc + BitVec.ofInt 32 imm.toInt else s.pc + 4)) ∧
    (∃ t, exec (.bge rs1 rs2 imm) s = .next t ∧
      OnlyMovesPc s t (if (s.reg rs1).toInt ≥ (s.reg rs2).toInt then s.pc + BitVec.ofInt 32 imm.toInt else s.pc + 4)) ∧
    (∃ t, exec (.bltu rs1 rs2 imm) s = .next t ∧
      OnlyMovesPc s t (if (s.reg rs1).toNat < (s.reg rs2).toNat then s.pc + BitVec.ofInt 32 imm.toInt else s.pc + 4)) ∧
    (∃ t, exec (.bgeu rs1 rs2 imm) s = .next t ∧
      OnlyMovesPc s t (if (s.reg rs1).toNat ≥ (s.reg rs2).toNat then s.pc + BitVec.ofInt 32 imm.toInt else s.pc + 4))

/-- JAL: rd gets the address of the next instruction, the pc moves by the sign-extended offset, and nothing else changes.
Rests on the spec's own decision D26 (log entry 21). -/
def Obligations.JalLinksAndJumps : Prop :=
  EncodedJ 0x40 .jal ∧
  ∀ (rd : Reg) (imm : BitVec 21) (s : State),
    ∃ t, exec (.jal rd imm) s = .next t ∧ WritesReg s t rd (s.pc + 4) ∧
      t.pc = s.pc + BitVec.ofInt 32 imm.toInt ∧ KeepsMemory s t ∧ KeepsRest s t

/-- JALR: the target is the old rs1 plus the sign-extended offset with no bit cleared, even when rd is rs1. Rests on the
spec's own decisions D15, D16, D27 (log entries 13, 17, 21). -/
def Obligations.JalrUsesTheOldBase : Prop :=
  EncodedI 0x41 .jalr ∧
  ∀ (rd rs1 : Reg) (imm : BitVec 12) (s : State), s.CanRead [rs1] →
    ∃ t, exec (.jalr rd rs1 imm) s = .next t ∧ WritesReg s t rd (s.pc + 4) ∧
      t.pc = s.reg rs1 + BitVec.ofInt 32 imm.toInt ∧ KeepsMemory s t ∧ KeepsRest s t

/-- JAL, JALR and a taken branch to a bad target complete, the link of a jump written, and the next step takes the fetch fault
with the pc at the target: FetchMisaligned where the target is no multiple of 4, FetchAccessFault where it is one above the
Code region or at a word with a byte outside CodeImage (the last reading of CodeImage is the model's, log entry 9). Rests on
the spec's own decisions D4, D8, D11, D16, D26, D27 (log entries 6, 16, 17, 21). -/
def Obligations.JumpCompletesThenFetchFaults : Prop :=
  ∀ (rd rs1 rs2 : Reg) (s : State), s.status = .running →
    (∀ imm : BitVec 21, ∃ t, exec (.jal rd imm) s = .next t ∧ WritesReg s t rd (s.pc + 4) ∧ KeepsMemory s t ∧
      KeepsRest s t ∧ FetchFaultsAt t (s.pc + imm.signExtend 32)) ∧
    (∀ imm : BitVec 12, s.CanRead [rs1] → ∃ t, exec (.jalr rd rs1 imm) s = .next t ∧ WritesReg s t rd (s.pc + 4) ∧
      KeepsMemory s t ∧ KeepsRest s t ∧ FetchFaultsAt t (s.reg rs1 + imm.signExtend 32)) ∧
    (∀ (imm : BitVec 13) (i : Instr) (taken : Bool), s.CanRead [rs1, rs2] →
      (i, taken) ∈ [(Instr.beq rs1 rs2 imm, decide (s.reg rs1 = s.reg rs2)),
        (.bne rs1 rs2 imm, decide (s.reg rs1 ≠ s.reg rs2)),
        (.blt rs1 rs2 imm, decide ((s.reg rs1).toInt < (s.reg rs2).toInt)),
        (.bge rs1 rs2 imm, decide ((s.reg rs1).toInt ≥ (s.reg rs2).toInt)),
        (.bltu rs1 rs2 imm, decide ((s.reg rs1).toNat < (s.reg rs2).toNat)),
        (.bgeu rs1 rs2 imm, decide ((s.reg rs1).toNat ≥ (s.reg rs2).toNat))] →
      taken = true →
      ∃ t, exec i s = .next t ∧ KeepsRegs s t ∧ KeepsMemory s t ∧ KeepsRest s t ∧
        FetchFaultsAt t (s.pc + imm.signExtend 32))

/-- A call leaves the return address in r31, and a return from a state with the same r31 goes to the instruction after it.
Rests on the spec's own decisions D26, D27, D39 (log entries 21, 24). -/
def Obligations.CallThenReturn : Prop :=
  ∀ (imm : BitVec 21) (s t u : State),
    execAll (Pseudo.call imm).expand s = .next t → u.reg 31 = t.reg 31 → u.regReadable 31 = true →
    t.pc = s.pc + imm.signExtend 32 ∧
    ∃ v, execAll Pseudo.ret.expand u = .next v ∧ OnlyMovesPc u v (s.pc + 4)

/-! ## Loads and stores (spec/46_load_store.md, spec/20_memory.md) -/

/-- The five loads from Data memory: the bytes at the address, assembled and widened, go to rd, and nothing else changes. An
aligned access assembles them in the data byte order (R47), and a misaligned bytewise one in little-endian order, whatever
that is (R52). Rests on the spec's own decisions D1, D7, D15, D16 (log entries 13, 15, 16, 17) and, for DATA_BYTE_ORDER =
big, on the reading of log entry 12. -/
def Obligations.LoadsReadDataMemory : Prop :=
  EncodedI 0x30 .ldb ∧ EncodedI 0x31 .ldh ∧ EncodedI 0x32 .ldw ∧ EncodedI 0x33 .ldbu ∧ EncodedI 0x34 .ldhu ∧
  ∀ (rd rs1 : Reg) (imm : BitVec 12) (s : State) (b : Nat → Byte), s.CanRead [rs1] →
    (DataAccess s (s.reg rs1 + imm.signExtend 32) 1 → Holds s (s.reg rs1 + imm.signExtend 32) 1 b →
      (∃ t, exec (.ldb rd rs1 imm) s = .next t ∧ Computes s t rd ((b 0).signExtend 32)) ∧
      (∃ t, exec (.ldbu rd rs1 imm) s = .next t ∧ Computes s t rd ((b 0).setWidth 32))) ∧
    (DataAccess s (s.reg rs1 + imm.signExtend 32) 2 → Holds s (s.reg rs1 + imm.signExtend 32) 2 b →
      (∃ t, exec (.ldh rd rs1 imm) s = .next t ∧ Computes s t rd ((halfOf (s.orderAt (s.reg rs1 + imm.signExtend 32) 2) b).signExtend 32)) ∧
      (∃ t, exec (.ldhu rd rs1 imm) s = .next t ∧ Computes s t rd ((halfOf (s.orderAt (s.reg rs1 + imm.signExtend 32) 2) b).setWidth 32))) ∧
    (DataAccess s (s.reg rs1 + imm.signExtend 32) 4 → Holds s (s.reg rs1 + imm.signExtend 32) 4 b →
      ∃ t, exec (.ldw rd rs1 imm) s = .next t ∧ Computes s t rd (wordOf (s.orderAt (s.reg rs1 + imm.signExtend 32) 4) b))

/-- The three stores to Data memory: exactly the bytes of the width at the address computed from the base register change.
An aligned store places them in the data byte order (R47), and a misaligned bytewise one in little-endian order, whatever
that is (R52). Rests on the spec's own decisions D1, D7, D15, D16 (log entries 13, 15, 16, 17) and, for DATA_BYTE_ORDER =
big, on the reading of log entry 12. -/
def Obligations.StoresWriteDataMemory : Prop :=
  EncodedS 0x38 .stb ∧ EncodedS 0x39 .sth ∧ EncodedS 0x3A .stw ∧
  ∀ (rs1 rs2 : Reg) (imm : BitVec 12) (s : State), s.CanRead [rs1, rs2] →
    (DataAccess s (effectiveAddress (s.reg rs1) imm) 1 →
      ∃ t, exec (.stb rs1 rs2 imm) s = .next t ∧ Stores s t (effectiveAddress (s.reg rs1) imm) 1 (s.reg rs2)) ∧
    (DataAccess s (effectiveAddress (s.reg rs1) imm) 2 →
      ∃ t, exec (.sth rs1 rs2 imm) s = .next t ∧ Stores s t (effectiveAddress (s.reg rs1) imm) 2 (s.reg rs2)) ∧
    (DataAccess s (effectiveAddress (s.reg rs1) imm) 4 →
      ∃ t, exec (.stw rs1 rs2 imm) s = .next t ∧ Stores s t (effectiveAddress (s.reg rs1) imm) 4 (s.reg rs2))

/-- Data bytes nothing has written: under any-value a load takes for each of them a byte fixed at launch, the same at
every read (the model's free value, log entry 2); under fault-on-read it takes UnspecifiedRead of the lowest of them. Rests
on the spec's own decisions D1, D5, D16 (log entries 2, 15, 17) and, for DATA_BYTE_ORDER = big, on the reading of log entry
12. That the fault names the LOWEST such byte is the model's own choice, which R236 does not say (log entry 25). -/
def Obligations.UnwrittenDataBytes : Prop :=
  ∀ (rd rs1 : Reg) (imm : BitVec 12) (s : State) (a : Word), s.CanRead [rs1] → a = s.reg rs1 + imm.signExtend 32 →
    (s.cfg.unwrittenReg = .anyValue → ∀ b : Nat → Byte,
      (∀ k, b k = (Memory.read s.mem (a.toNat + k)).getD (Config.unspecifiedByte (a + BitVec.ofNat 32 k))) →
      (DataAccess s a 1 →
        (∃ t, exec (.ldb rd rs1 imm) s = .next t ∧ Computes s t rd ((b 0).signExtend 32)) ∧
        (∃ t, exec (.ldbu rd rs1 imm) s = .next t ∧ Computes s t rd ((b 0).setWidth 32))) ∧
      (DataAccess s a 2 →
        (∃ t, exec (.ldh rd rs1 imm) s = .next t ∧ Computes s t rd ((halfOf (s.orderAt a 2) b).signExtend 32)) ∧
        (∃ t, exec (.ldhu rd rs1 imm) s = .next t ∧ Computes s t rd ((halfOf (s.orderAt a 2) b).setWidth 32))) ∧
      (DataAccess s a 4 →
        ∃ t, exec (.ldw rd rs1 imm) s = .next t ∧ Computes s t rd (wordOf (s.orderAt a 4) b))) ∧
    (s.cfg.unwrittenReg = .faultOnRead → ∀ (i : Instr) (n k : Nat),
      (i, n) ∈ [(Instr.ldb rd rs1 imm, 1), (.ldbu rd rs1 imm, 1), (.ldh rd rs1 imm, 2), (.ldhu rd rs1 imm, 2),
        (.ldw rd rs1 imm, 4)] →
      DataAccess s a n → k < n → (∀ j, j < k → Memory.read s.mem (a.toNat + j) ≠ none) →
      Memory.read s.mem (a.toNat + k) = none →
      Takes (exec i s) s (.unspecifiedRead (.byteAt (a + BitVec.ofNat 32 k))))

/-- The checks of a load under MISALIGNED_DATA = fault, in their order: alignment, Code region, MMIO without a device,
Data limit; the first that fails decides, and nothing but the status changes. Rests on the spec's own decisions D6, D7,
D9, D12, D16, D29 (log entries 4, 16, 17, 25). -/
def Obligations.LoadChecksInOrder : Prop :=
  ∀ (rd rs1 : Reg) (imm : BitVec 12) (s : State) (a : Word) (i : Instr) (n : Nat),
    s.CanRead [rs1] → s.cfg.misalignedData = .fault → a = s.reg rs1 + imm.signExtend 32 →
    (i, n) ∈ [(Instr.ldb rd rs1 imm, 1), (.ldbu rd rs1 imm, 1), (.ldh rd rs1 imm, 2), (.ldhu rd rs1 imm, 2),
      (.ldw rd rs1 imm, 4)] →
    (a.toNat % n ≠ 0 → Takes (exec i s) s (.loadMisaligned a)) ∧
    (a.toNat % n = 0 →
      (a.toNat ≤ 0x000FFFFF → Takes (exec i s) s (.loadAccessFault a)) ∧
      (0x10000000 ≤ a.toNat → s.cfg.mmio = .absent → exec i s = .refused (.mmioUnmodelled a)) ∧
      (0x000FFFFF < a.toNat → a.toNat < 0x10000000 → s.cfg.dataLimit.toNat < a.toNat + n - 1 →
        Takes (exec i s) s (.loadAccessFault a)))

/-- The same checks of a store; no byte is written where one fails. Rests on the spec's own decisions D6, D7, D10, D12,
D16, D29 (log entries 4, 16, 17, 25). -/
def Obligations.StoreChecksInOrder : Prop :=
  ∀ (rs1 rs2 : Reg) (imm : BitVec 12) (s : State) (a : Word) (i : Instr) (n : Nat),
    s.CanRead [rs1, rs2] → s.cfg.misalignedData = .fault → a = s.reg rs1 + imm.signExtend 32 →
    (i, n) ∈ [(Instr.stb rs1 rs2 imm, 1), (.sth rs1 rs2 imm, 2), (.stw rs1 rs2 imm, 4)] →
    (a.toNat % n ≠ 0 → Takes (exec i s) s (.storeMisaligned a)) ∧
    (a.toNat % n = 0 →
      (a.toNat ≤ 0x000FFFFF → Takes (exec i s) s (.storeAccessFault a)) ∧
      (0x10000000 ≤ a.toNat → s.cfg.mmio = .absent → exec i s = .refused (.mmioUnmodelled a)) ∧
      (0x000FFFFF < a.toNat → a.toNat < 0x10000000 → s.cfg.dataLimit.toNat < a.toNat + n - 1 →
        Takes (exec i s) s (.storeAccessFault a)))

/-- Under MISALIGNED_DATA = bytewise the bytes of an access are checked one by one, lowest first, and the first that fails
decides, for a load and for the store of the same width, with a device or without; the info is that byte's address (the
model's reading, log entry 7). Rests on the spec's own decisions D6, D7, D9, D10, D12, D16, D29 (log entries 4, 16, 17,
25). -/
def Obligations.BytewiseFirstFailingByteDecides : Prop :=
  ∀ (rd rs1 rs2 : Reg) (imm : BitVec 12) (s : State) (k n : Nat) (a : Word) (load store : Instr),
    s.CanRead [rs1, rs2] → s.cfg.misalignedData = .bytewise → k < n → a = s.reg rs1 + imm.signExtend 32 →
    (load, store, n) ∈ [(Instr.ldb rd rs1 imm, Instr.stb rs1 rs2 imm, 1), (.ldbu rd rs1 imm, .stb rs1 rs2 imm, 1),
      (.ldh rd rs1 imm, .sth rs1 rs2 imm, 2), (.ldhu rd rs1 imm, .sth rs1 rs2 imm, 2),
      (.ldw rd rs1 imm, .stw rs1 rs2 imm, 4)] →
    (∀ j, j < k →
      (0x00100000 ≤ (a + BitVec.ofNat 32 j).toNat ∧ (a + BitVec.ofNat 32 j).toNat < 0x10000000 ∧
        (a + BitVec.ofNat 32 j).toNat ≤ s.cfg.dataLimit.toNat) ∨
      (0x10000000 ≤ (a + BitVec.ofNat 32 j).toNat ∧ s.cfg.mmio = .device)) →
    ((a + BitVec.ofNat 32 k).toNat ≤ 0x000FFFFF →
      Takes (exec load s) s (.loadAccessFault (a + BitVec.ofNat 32 k)) ∧
      Takes (exec store s) s (.storeAccessFault (a + BitVec.ofNat 32 k))) ∧
    (0x10000000 ≤ (a + BitVec.ofNat 32 k).toNat → s.cfg.mmio = .absent →
      exec load s = .refused (.mmioUnmodelled (a + BitVec.ofNat 32 k)) ∧
      exec store s = .refused (.mmioUnmodelled (a + BitVec.ofNat 32 k))) ∧
    (0x000FFFFF < (a + BitVec.ofNat 32 k).toNat → (a + BitVec.ofNat 32 k).toNat < 0x10000000 →
      s.cfg.dataLimit.toNat < (a + BitVec.ofNat 32 k).toNat →
      Takes (exec load s) s (.loadAccessFault (a + BitVec.ofNat 32 k)) ∧
      Takes (exec store s) s (.storeAccessFault (a + BitVec.ofNat 32 k)))

/-- A narrow load sees the bytes a wider store wrote: after STW, LDW gives the word back, LDHU its halves and LDBU its bytes,
in little-endian order. Rests on the spec's own decisions D1, D16 (log entries 15, 17). -/
def Obligations.MixedWidthAccess : Prop :=
  ∀ (rd rs1 rs2 rb : Reg) (imm : BitVec 12) (s t u : State) (k : Nat),
    exec (.stw rs1 rs2 imm) s = .next t → s.CanRead [rs1, rs2] → DataAccess s (s.reg rs1 + imm.signExtend 32) 4 →
    s.cfg.dataByteOrder = .little → u.mem = t.mem → u.cfg = s.cfg → u.CanRead [rb] →
    (u.reg rb = s.reg rs1 + imm.signExtend 32 →
      (∃ v, exec (.ldw rd rb 0) u = .next v ∧ Computes u v rd (s.reg rs2)) ∧
      (∃ v, exec (.ldhu rd rb 0) u = .next v ∧ Computes u v rd ((s.reg rs2).setWidth 16 |>.setWidth 32)) ∧
      (∃ v, exec (.ldhu rd rb 2) u = .next v ∧ Computes u v rd (s.reg rs2 >>> 16))) ∧
    (k < 4 → u.reg rb = s.reg rs1 + imm.signExtend 32 + BitVec.ofNat 32 k →
      ∃ v, exec (.ldbu rd rb 0) u = .next v ∧ Computes u v rd (((s.reg rs2).extractLsb' (8 * k) 8).setWidth 32))

/-- A wide load sees the bytes several narrow stores wrote, and only those they wrote: LDW after four STB or two STH, LDHU after
two STB, LDW after an STB into a stored word; and LDBU sees the bytes of an STH. Little-endian order. Rests on the spec's own
decisions D1, D16 (log entries 15, 17). -/
def Obligations.NarrowStoresThenWiderLoad : Prop :=
  ∀ (rd rb ra r1 r2 r3 : Reg) (s : State), s.CanRead [rb, ra, r1, r2, r3] → s.cfg.dataByteOrder = .little →
    DataAccess s (s.reg rb) 4 →
    (∃ t, execAll [.stb rb ra 0, .stb rb r1 1, .stb rb r2 2, .stb rb r3 3, .ldw rd rb 0] s = .next t ∧
      WritesReg s t rd ((s.reg r3).setWidth 8 ++ (s.reg r2).setWidth 8 ++ (s.reg r1).setWidth 8 ++
        (s.reg ra).setWidth 8)) ∧
    (∃ t, execAll [.sth rb ra 0, .sth rb r1 2, .ldw rd rb 0] s = .next t ∧
      WritesReg s t rd ((s.reg r1).setWidth 16 ++ (s.reg ra).setWidth 16)) ∧
    (∃ t, execAll [.stb rb ra 0, .stb rb r1 1, .ldhu rd rb 0] s = .next t ∧
      WritesReg s t rd (((s.reg r1).setWidth 8 ++ (s.reg ra).setWidth 8 : BitVec 16).setWidth 32)) ∧
    (∀ k, k < 4 → ∃ t v, execAll [.stw rb ra 0, .stb rb r1 (BitVec.ofNat 12 k), .ldw rd rb 0] s = .next t ∧
      WritesReg s t rd v ∧ ∀ j, j < 4 → v.extractLsb' (8 * j) 8 =
        if j = k then (s.reg r1).setWidth 8 else (s.reg ra).extractLsb' (8 * j) 8) ∧
    (∀ k, k < 2 → ∃ t, execAll [.sth rb ra 0, .ldbu rd rb (BitVec.ofNat 12 k)] s = .next t ∧
      WritesReg s t rd (((s.reg ra).extractLsb' (8 * k) 8).setWidth 32))

/-- An aligned access to a supplied MMIO device, under either setting of MISALIGNED_DATA, changes no register but rd and no
memory: the device sees one access with the address, the width and the low bits of a stored value; the low bits of its answer,
widened, are what a load puts in rd, and the events it adds end the io trace (both the model's free values, log entry 4).
Rests on the spec's own decisions D12, D16 (log entries 4, 17). -/
def Obligations.DeviceSeesTheAccess : Prop :=
  ∀ (rd rs1 rs2 : Reg) (imm : BitVec 12) (s : State) (a : Word), s.CanRead [rs1, rs2] → s.cfg.mmio = .device →
    a = s.reg rs1 + imm.signExtend 32 → 0x10000000 ≤ a.toNat →
    (∀ (i : Instr) (w : Width) (widen : Word → Word),
      (i, w, widen) ∈ [(Instr.ldb rd rs1 imm, Width.byte, fun v => (v.setWidth 8).signExtend 32),
        (.ldbu rd rs1 imm, .byte, fun v => (v.setWidth 8).setWidth 32),
        (.ldh rd rs1 imm, .half, fun v => (v.setWidth 16).signExtend 32),
        (.ldhu rd rs1 imm, .half, fun v => (v.setWidth 16).setWidth 32), (.ldw rd rs1 imm, .word, fun v => v)] →
      a.toNat % w.bytes = 0 →
      ∃ t, exec i s = .next t ∧ WritesReg s t rd (widen (Config.mmioReadValue (s.mmioLog ++ [.read a w]))) ∧
        t.pc = s.pc + 4 ∧ KeepsMemory s t ∧ t.status = s.status ∧ t.cfg = s.cfg ∧
        t.mmioLog = s.mmioLog ++ [.read a w] ∧ t.io = s.io ++ Config.mmioEvents (s.mmioLog ++ [.read a w])) ∧
    (∀ (i : Instr) (w : Width) (v : Word),
      (i, w, v) ∈ [(Instr.stb rs1 rs2 imm, Width.byte, ((s.reg rs2).setWidth 8).setWidth 32),
        (.sth rs1 rs2 imm, .half, ((s.reg rs2).setWidth 16).setWidth 32), (.stw rs1 rs2 imm, .word, s.reg rs2)] →
      a.toNat % w.bytes = 0 →
      ∃ t, exec i s = .next t ∧ KeepsRegs s t ∧ t.pc = s.pc + 4 ∧ KeepsMemory s t ∧ t.status = s.status ∧
        t.cfg = s.cfg ∧ t.mmioLog = s.mmioLog ++ [.write a w v] ∧
        t.io = s.io ++ Config.mmioEvents (s.mmioLog ++ [.write a w v]))

/-- A misaligned access under MISALIGNED_DATA = bytewise that reaches a supplied MMIO device, all of it or from its first MMIO
byte on: the device sees one byte access for each byte in its region, lowest first, the others are Data memory's, and a
load puts the bytes, assembled in little-endian order (R52) and widened, in rd. Rests on the spec's own decisions D7, D12, D16
(log entries 4, 16, 17); that the device sees single bytes, its answers, and what a Data byte nothing has written reads as
are the model's choices (log entries 2, 4). -/
def Obligations.DeviceSeesBytewiseAccess : Prop :=
  ∀ (rd rs1 rs2 : Reg) (imm : BitVec 12) (s : State) (a : Word) (n : Nat), s.CanRead [rs1, rs2] →
    s.cfg.mmio = .device → s.cfg.misalignedData = .bytewise → a = s.reg rs1 + imm.signExtend 32 →
    a.toNat % n ≠ 0 → 0x10000000 < a.toNat + n → a.toNat + n ≤ 2 ^ 32 →
    (∀ k, k < n → a.toNat + k < 0x10000000 → a.toNat + k ≤ s.cfg.dataLimit.toNat) →
    (∀ b : Nat → Byte,
      (∀ k, k < n → a.toNat + k < 0x10000000 → Memory.read s.mem (a.toNat + k) = some (b k) ∨
        (Memory.read s.mem (a.toNat + k) = none ∧ s.cfg.unwrittenReg = .anyValue ∧
          b k = Config.unspecifiedByte (a + BitVec.ofNat 32 k))) →
      (∀ k, k < n → 0x10000000 ≤ a.toNat + k →
        b k = (Config.mmioReadValue (s.mmioLog ++ byteReads a (k + 1))).setWidth 8) →
      ∀ (i : Instr) (v : Word),
        (i, n, v) ∈ [(Instr.ldh rd rs1 imm, 2, (halfOf .little b).signExtend 32),
          (.ldhu rd rs1 imm, 2, (halfOf .little b).setWidth 32),
          (.ldw rd rs1 imm, 4, wordOf .little b)] →
        ∃ t, exec i s = .next t ∧ WritesReg s t rd v ∧ t.pc = s.pc + 4 ∧ KeepsMemory s t ∧ t.status = s.status ∧
          t.cfg = s.cfg ∧ t.mmioLog = s.mmioLog ++ byteReads a n ∧ s.io <+: t.io) ∧
    (∀ i : Instr, (i, n) ∈ [(Instr.sth rs1 rs2 imm, 2), (.stw rs1 rs2 imm, 4)] →
      ∃ t, exec i s = .next t ∧ KeepsRegs s t ∧ t.pc = s.pc + 4 ∧
        (∀ x, Memory.read t.mem x = if a.toNat ≤ x ∧ x < a.toNat + n ∧ x < 0x10000000
          then some (storedByte .little n (x - a.toNat) (s.reg rs2)) else Memory.read s.mem x) ∧
        t.status = s.status ∧ t.cfg = s.cfg ∧
        t.mmioLog = s.mmioLog ++ byteWrites a n (s.reg rs2) ∧ s.io <+: t.io)

/-! ## Special instructions (spec/47_special.md) -/

/-- LUI: the 20-bit field in bits 31 to 12 and zeros below, whatever rd held; for a word `w`, `w & 0xFFFFF000`. -/
def Obligations.LuiPlacesTheUpperField : Prop :=
  EncodedU 0x20 .lui ∧
  (∀ (rd : Reg) (imm : BitVec 20) (s : State),
    ∃ t, exec (.lui rd imm) s = .next t ∧ Computes s t rd (BitVec.ofNat 32 (imm.toNat * 2 ^ 12))) ∧
  ∀ (w : Word) (s : State), bitsAt w 0 7 = 0x20 →
    ∃ i t, decodeWord w = .ok i ∧ exec i s = .next t ∧ Computes s t (regAt w 7) (w &&& 0xFFFFF000)

/-- ASSERT_EQ: only the pc moves when the registers are equal; AssertFailed with the pc when they differ. Rests on the
spec's own decisions D15, D28 (log entries 8, 13). -/
def Obligations.AssertEqTrapsWhenDifferent : Prop :=
  (∀ w : Word, bitsAt w 0 7 = 0x3F → decodeWord w = .ok (.assertEq (regAt w 15) (regAt w 20))) ∧
  ∀ (rs1 rs2 : Reg) (s : State), s.CanRead [rs1, rs2] →
    (s.reg rs1 = s.reg rs2 → ∃ t, exec (.assertEq rs1 rs2) s = .next t ∧ OnlyMovesPc s t (s.pc + 4)) ∧
    (s.reg rs1 ≠ s.reg rs2 → Takes (exec (.assertEq rs1 rs2) s) s (.assertFailed s.pc))

/-- NOP only advances the pc, whatever bits 31 to 7 of its word hold. Rests on the spec's own decisions D15, D33 (log
entries 13, 22). -/
def Obligations.NopOnlyAdvances : Prop :=
  (∀ w : Word, bitsAt w 0 7 = 0x50 → decodeWord w = .ok .nop) ∧
  ∀ s : State, ∃ t, exec .nop s = .next t ∧ OnlyMovesPc s t (s.pc + 4)

/-- YIELD with HOST_ON_YIELD = identity appends a Yield event, advances the pc and changes nothing else. Rests on the
spec's own decisions D15, D31 (log entries 3, 13). -/
def Obligations.YieldRecordsAndContinues : Prop :=
  (∀ w : Word, bitsAt w 0 7 = 0x51 → decodeWord w = .ok .yield) ∧
  ∀ s : State, s.cfg.hostOnYield = .identity →
    ∃ t, exec .yield s = .next t ∧ KeepsRegs s t ∧ t.pc = s.pc + 4 ∧ KeepsMemory s t ∧ t.status = s.status ∧
      t.io = s.io ++ [.yield] ∧ t.mmioLog = s.mmioLog ∧ t.cfg = s.cfg

/-- YIELD whatever the host does: the pc advances by 4, one Yield event is appended and after it only what the host appends,
the machine keeps its status, r0 reads zero and Code memory is as before. That a host leaves the status, r0 and Code memory
alone is the model's reading (log entry 3). Rests on the spec's own decision D31 (log entry 3). -/
def Obligations.YieldUnderAnyHost : Prop :=
  ∀ s : State, ∃ t, exec .yield s = .next t ∧ t.pc = s.pc + 4 ∧ s.io ++ [.yield] <+: t.io ∧
    t.status = s.status ∧ t.cfg = s.cfg ∧ t.reg 0 = 0 ∧ ∀ a : Nat, a ≤ 0x000FFFFF → Memory.read t.mem a = Memory.read s.mem a

/-- DEBUG appends the low byte of rs1 to the io trace, advances the pc and changes nothing else. Rests on the spec's own
decisions D15, D30 (log entries 13, 22). -/
def Obligations.DebugOutputsTheLowByte : Prop :=
  (∀ w : Word, bitsAt w 0 7 = 0x52 → decodeWord w = .ok (.debug (regAt w 15))) ∧
  ∀ (rs1 : Reg) (s : State), s.CanRead [rs1] →
    ∃ t, exec (.debug rs1) s = .next t ∧ KeepsRegs s t ∧ t.pc = s.pc + 4 ∧ KeepsMemory s t ∧ t.status = s.status ∧
      t.io = s.io ++ [.debugChar (BitVec.ofNat 8 ((s.reg rs1).toNat % 256))] ∧ t.mmioLog = s.mmioLog ∧ t.cfg = s.cfg

/-- HALT sets the status to Halted and changes nothing else, the pc included; after it there is no step. Rests on the
spec's own decisions D15, D32 (log entries 13, 22). -/
def Obligations.HaltStopsTheMachine : Prop :=
  (∀ w : Word, bitsAt w 0 7 = 0x7F → decodeWord w = .ok .halt) ∧
  ∀ s : State, ∃ t, exec .halt s = .next t ∧ t.status = .halted ∧ KeepsRegs s t ∧ t.pc = s.pc ∧ KeepsMemory s t ∧
    t.io = s.io ∧ t.mmioLog = s.mmioLog ∧ t.cfg = s.cfg ∧ step t = .fault .afterHalt

/-! ## Programs of one line: the pseudo-instructions (spec/30_encoding.md R96 to R111) -/

/-- `li` loads every 32-bit constant, and `la` every address, whichever expansion is used; only rd and the pc change.
Rests on the spec's own decisions D19, D38 (log entries 17, 24). -/
def Obligations.LiAndLaLoadAnyConstant : Prop :=
  ∀ (rd : Reg) (v : Word) (s : State),
    (∃ t, execAll (Pseudo.li rd v).expand s = .next t ∧ WritesReg s t rd v ∧ KeepsMemory s t ∧ KeepsRest s t ∧
      t.pc = s.pc + BitVec.ofNat 32 (4 * (Pseudo.li rd v).expand.length)) ∧
    (∃ t, execAll (Pseudo.la rd v).expand s = .next t ∧ WritesReg s t rd v ∧ KeepsMemory s t ∧ KeepsRest s t ∧
      t.pc = s.pc + 8)

/-- `mv`, `not`, `neg`, `seqz` and `snez` do what their descriptions say: copy, complement all 32 bits, negate, test.
Rests on the spec's own decision D20 (log entry 17). -/
def Obligations.OneOperandPseudos : Prop :=
  ∀ (rd rs : Reg) (s : State), s.CanRead [rs] →
    (∃ t, execAll (Pseudo.mv rd rs).expand s = .next t ∧ Computes s t rd (s.reg rs)) ∧
    (∃ t, execAll (Pseudo.not rd rs).expand s = .next t ∧ Computes s t rd (~~~(s.reg rs))) ∧
    (∃ t, execAll (Pseudo.neg rd rs).expand s = .next t ∧ Computes s t rd (-(s.reg rs))) ∧
    (∃ t, execAll (Pseudo.seqz rd rs).expand s = .next t ∧ Computes s t rd (if s.reg rs = 0 then 1 else 0)) ∧
    (∃ t, execAll (Pseudo.snez rd rs).expand s = .next t ∧ Computes s t rd (if s.reg rs = 0 then 0 else 1))

/-- `nop` and `j` write no register, and `bgt`, `ble`, `bgtu`, `bleu` branch on the comparison they are named for, the
operands of the native branch swapped. Rests on the spec's own decisions D26, D33 (log entries 21, 22). -/
def Obligations.BranchPseudosAndNop : Prop :=
  ∀ (rs1 rs2 : Reg) (imm : BitVec 13) (jimm : BitVec 21) (s : State), s.CanRead [rs1, rs2] →
    (∃ t, execAll Pseudo.nop.expand s = .next t ∧ OnlyMovesPc s t (s.pc + 4)) ∧
    (∃ t, execAll (Pseudo.j jimm).expand s = .next t ∧ OnlyMovesPc s t (s.pc + jimm.signExtend 32)) ∧
    (∃ t, execAll (Pseudo.bgt rs1 rs2 imm).expand s = .next t ∧
      OnlyMovesPc s t (if (s.reg rs1).toInt > (s.reg rs2).toInt then s.pc + imm.signExtend 32 else s.pc + 4)) ∧
    (∃ t, execAll (Pseudo.ble rs1 rs2 imm).expand s = .next t ∧
      OnlyMovesPc s t (if (s.reg rs1).toInt ≤ (s.reg rs2).toInt then s.pc + imm.signExtend 32 else s.pc + 4)) ∧
    (∃ t, execAll (Pseudo.bgtu rs1 rs2 imm).expand s = .next t ∧
      OnlyMovesPc s t (if (s.reg rs1).toNat > (s.reg rs2).toNat then s.pc + imm.signExtend 32 else s.pc + 4)) ∧
    (∃ t, execAll (Pseudo.bleu rs1 rs2 imm).expand s = .next t ∧
      OnlyMovesPc s t (if (s.reg rs1).toNat ≤ (s.reg rs2).toNat then s.pc + imm.signExtend 32 else s.pc + 4))
end

