-- ==== Sys2Proof/Laws/Memory.lean ====
section
/-! SUPPORT. The laws of memory: read after write, the canonical form, and the regions. -/

namespace Sys2Proof.Machine

/-! ## Read after write -/

/-- A read of the written address gives the written byte. -/
@[simp] theorem Memory.read_write_same (m : Memory) (a : Nat) (v : Byte) : Memory.read (Memory.write m a v) a = some v := by
  induction m with
  | nil => simp [Memory.write, Memory.read]
  | cons c m ih =>
    simp only [Memory.write]
    split
    · simp [Memory.read]
    · split
      · simp [Memory.read]
      · simp [Memory.read, *]

/-- A read of any other address is as before the write. -/
theorem Memory.read_write_other (m : Memory) {a b : Nat} (v : Byte) (h : b ≠ a) :
    Memory.read (Memory.write m a v) b = Memory.read m b := by
  induction m with
  | nil => simp [Memory.write, Memory.read, h]
  | cons c m ih =>
    simp only [Memory.write]
    split
    · simp [Memory.read, h]
    · split
      · subst_vars; simp [Memory.read, h]
      · simp [Memory.read, ih]

/-- Both at once. -/
theorem Memory.read_write (m : Memory) (a b : Nat) (v : Byte) :
    Memory.read (Memory.write m a v) b = if b = a then some v else Memory.read m b := by
  by_cases h : b = a
  · simp [h]
  · simp [h, Memory.read_write_other m v h]

/-! ## The canonical form -/

/-- What a write lists: the new entry and entries of before. -/
theorem Memory.mem_write {m : Memory} {a : Nat} {v : Byte} {c : Host.Cell} (h : c ∈ Memory.write m a v) :
    c = (a, v) ∨ c ∈ m := by
  induction m with
  | nil => simpa [Memory.write] using h
  | cons d m ih =>
    simp only [Memory.write] at h
    split at h
    · simpa using h
    · split at h
      · rcases List.mem_cons.1 h with h | h
        · exact .inl h
        · exact .inr (List.mem_cons_of_mem _ h)
      · rcases List.mem_cons.1 h with h | h
        · exact .inr (h ▸ List.mem_cons_self)
        · exact (ih h).imp id (List.mem_cons_of_mem _)

/-- A write keeps the canonical form. -/
theorem Memory.write_wf {m : Memory} (a : Nat) (v : Byte) (h : Memory.wf m) : Memory.wf (Memory.write m a v) := by
  induction m with
  | nil => simp [Memory.write, Memory.wf]
  | cons c m ih =>
    obtain ⟨hc, hm⟩ := List.pairwise_cons.1 h
    simp only [Memory.write]
    split
    · rename_i hlt
      refine List.pairwise_cons.2 ⟨?_, h⟩
      intro d hd
      rcases List.mem_cons.1 hd with rfl | hd
      · exact hlt
      · exact Nat.lt_trans hlt (hc d hd)
    · split
      · rename_i heq
        exact List.pairwise_cons.2 ⟨fun d hd => heq ▸ hc d hd, hm⟩
      · refine List.pairwise_cons.2 ⟨?_, ih hm⟩
        intro d hd
        rcases Memory.mem_write hd with rfl | hd
        · simp only; omega
        · exact hc d hd

/-! ## Several bytes -/

/-- Addresses no byte is written to read as before. -/
theorem Memory.read_writeBytes_other (bs : List Byte) : ∀ (m : Memory) (a : Word) (b : Nat),
    (∀ k, k < bs.length → b ≠ (a + BitVec.ofNat 32 k).toNat) →
    Memory.read (Memory.writeBytes m a bs) b = Memory.read m b := by
  induction bs with
  | nil => intros; rfl
  | cons x xs ih =>
    intro m a b h
    simp only [Memory.writeBytes]
    have h0 : b ≠ a.toNat := by simpa using h 0 (by simp)
    rw [ih _ _ _ ?_, Memory.read_write_other m x h0]
    intro k hk
    have := h (k + 1) (by simpa using hk)
    rwa [show a + 1 + BitVec.ofNat 32 k = a + BitVec.ofNat 32 (k + 1) by
      rw [BitVec.add_assoc]; congr 1; apply BitVec.eq_of_toNat_eq; simp; omega]

/-- The canonical form is kept. -/
theorem Memory.writeBytes_wf (bs : List Byte) : ∀ (m : Memory) (a : Word), Memory.wf m → Memory.wf (Memory.writeBytes m a bs) := by
  induction bs with
  | nil => intro m a h; exact h
  | cons x xs ih => intro m a h; exact ih _ _ (Memory.write_wf _ _ h)

/-- What is listed after writing several bytes: entries of before, and the written addresses. -/
theorem Memory.mem_writeBytes (bs : List Byte) : ∀ (m : Memory) (a : Word) (c : Host.Cell),
    c ∈ Memory.writeBytes m a bs → c ∈ m ∨ ∃ k, k < bs.length ∧ c.1 = (a + BitVec.ofNat 32 k).toNat := by
  induction bs with
  | nil => intro m a c h; exact .inl h
  | cons x xs ih =>
    intro m a c h
    rcases ih _ _ _ h with h | ⟨k, hk, h⟩
    · rcases Memory.mem_write h with rfl | h
      · exact .inr ⟨0, by simp, by simp⟩
      · exact .inl h
    · refine .inr ⟨k + 1, by simpa using hk, ?_⟩
      rw [h, show a + 1 + BitVec.ofNat 32 k = a + BitVec.ofNat 32 (k + 1) by
        rw [BitVec.add_assoc]; congr 1; apply BitVec.eq_of_toNat_eq; simp; omega]

/-! ## Regions -/

theorem regionOf_code {a : Word} : regionOf a = .code ↔ a.toNat ≤ codeLast := by
  unfold regionOf; split
  · simp [*]
  · split <;> simp [*]

theorem regionOf_data {a : Word} : regionOf a = .data ↔ codeLast < a.toNat ∧ a.toNat < mmioBase := by
  unfold regionOf
  split
  · rename_i h; simp; omega
  · split
    · rename_i h1 h2; simp; omega
    · rename_i h1 h2; simp; omega

theorem regionOf_mmio {a : Word} : regionOf a = .mmio ↔ mmioBase ≤ a.toNat := by
  unfold regionOf
  split
  · rename_i h; simp [codeLast, mmioBase] at *; omega
  · split
    · rename_i h1 h2; simp; omega
    · rename_i h1 h2; simp; omega

end Sys2Proof.Machine
end

