-- ==== Sys2Proof/Laws/State.lean ====
section
/-! SUPPORT. The small lemmas of the state: what each field is after each plain update, and reading a register after a write. -/

namespace Sys2Proof.Machine

variable (s : State) (r q : Reg) (v t : Word) (e : Event) (x : MmioAccess)

/-! ## jump and advance -/

@[simp] theorem State.jump_regs : (s.jump t).regs = s.regs := rfl
@[simp] theorem State.jump_regDefined : (s.jump t).regDefined = s.regDefined := rfl
@[simp] theorem State.jump_pc : (s.jump t).pc = t := rfl
@[simp] theorem State.jump_mem : (s.jump t).mem = s.mem := rfl
@[simp] theorem State.jump_status : (s.jump t).status = s.status := rfl
@[simp] theorem State.jump_io : (s.jump t).io = s.io := rfl
@[simp] theorem State.jump_mmioLog : (s.jump t).mmioLog = s.mmioLog := rfl
@[simp] theorem State.jump_cfg : (s.jump t).cfg = s.cfg := rfl
@[simp] theorem State.jump_reg : (s.jump t).reg r = s.reg r := rfl
@[simp] theorem State.jump_regReadable : (s.jump t).regReadable r = s.regReadable r := rfl

@[simp] theorem State.advance_regs : s.advance.regs = s.regs := rfl
@[simp] theorem State.advance_regDefined : s.advance.regDefined = s.regDefined := rfl
@[simp] theorem State.advance_pc : s.advance.pc = s.pc + 4 := rfl
@[simp] theorem State.advance_mem : s.advance.mem = s.mem := rfl
@[simp] theorem State.advance_status : s.advance.status = s.status := rfl
@[simp] theorem State.advance_io : s.advance.io = s.io := rfl
@[simp] theorem State.advance_mmioLog : s.advance.mmioLog = s.mmioLog := rfl
@[simp] theorem State.advance_cfg : s.advance.cfg = s.cfg := rfl
@[simp] theorem State.advance_reg : s.advance.reg r = s.reg r := rfl
@[simp] theorem State.advance_regReadable : s.advance.regReadable r = s.regReadable r := rfl

/-! ## halt -/

@[simp] theorem State.halt_regs : s.halt.regs = s.regs := rfl
@[simp] theorem State.halt_regDefined : s.halt.regDefined = s.regDefined := rfl
@[simp] theorem State.halt_pc : s.halt.pc = s.pc := rfl
@[simp] theorem State.halt_mem : s.halt.mem = s.mem := rfl
@[simp] theorem State.halt_status : s.halt.status = .halted := rfl
@[simp] theorem State.halt_io : s.halt.io = s.io := rfl
@[simp] theorem State.halt_mmioLog : s.halt.mmioLog = s.mmioLog := rfl
@[simp] theorem State.halt_cfg : s.halt.cfg = s.cfg := rfl

/-! ## emit -/

@[simp] theorem State.emit_regs : (s.emit e).regs = s.regs := rfl
@[simp] theorem State.emit_regDefined : (s.emit e).regDefined = s.regDefined := rfl
@[simp] theorem State.emit_pc : (s.emit e).pc = s.pc := rfl
@[simp] theorem State.emit_mem : (s.emit e).mem = s.mem := rfl
@[simp] theorem State.emit_status : (s.emit e).status = s.status := rfl
@[simp] theorem State.emit_io : (s.emit e).io = s.io ++ [e] := rfl
@[simp] theorem State.emit_mmioLog : (s.emit e).mmioLog = s.mmioLog := rfl
@[simp] theorem State.emit_cfg : (s.emit e).cfg = s.cfg := rfl
@[simp] theorem State.emit_reg : (s.emit e).reg r = s.reg r := rfl
@[simp] theorem State.emit_regReadable : (s.emit e).regReadable r = s.regReadable r := rfl

/-! ## deviceAccess -/

@[simp] theorem State.deviceAccess_regs : (s.deviceAccess x).regs = s.regs := rfl
@[simp] theorem State.deviceAccess_regDefined : (s.deviceAccess x).regDefined = s.regDefined := rfl
@[simp] theorem State.deviceAccess_pc : (s.deviceAccess x).pc = s.pc := rfl
@[simp] theorem State.deviceAccess_mem : (s.deviceAccess x).mem = s.mem := rfl
@[simp] theorem State.deviceAccess_status : (s.deviceAccess x).status = s.status := rfl
@[simp] theorem State.deviceAccess_mmioLog : (s.deviceAccess x).mmioLog = s.mmioLog ++ [x] := rfl
@[simp] theorem State.deviceAccess_cfg : (s.deviceAccess x).cfg = s.cfg := rfl
@[simp] theorem State.deviceAccess_reg : (s.deviceAccess x).reg r = s.reg r := rfl
@[simp] theorem State.deviceAccess_regReadable : (s.deviceAccess x).regReadable r = s.regReadable r := rfl

/-! ## writeReg -/

@[simp] theorem State.writeReg_pc : (s.writeReg r v).pc = s.pc := by unfold State.writeReg; split <;> rfl
@[simp] theorem State.writeReg_mem : (s.writeReg r v).mem = s.mem := by unfold State.writeReg; split <;> rfl
@[simp] theorem State.writeReg_status : (s.writeReg r v).status = s.status := by unfold State.writeReg; split <;> rfl
@[simp] theorem State.writeReg_io : (s.writeReg r v).io = s.io := by unfold State.writeReg; split <;> rfl
@[simp] theorem State.writeReg_mmioLog : (s.writeReg r v).mmioLog = s.mmioLog := by unfold State.writeReg; split <;> rfl
@[simp] theorem State.writeReg_cfg : (s.writeReg r v).cfg = s.cfg := by unfold State.writeReg; split <;> rfl

/-- r0 reads as zero in every state. -/
@[simp] theorem State.reg_zero : s.reg 0 = 0 := rfl

/-- r0 can be read in every state. -/
@[simp] theorem State.regReadable_zero : s.regReadable 0 = true := rfl

/-- A write to r0 is discarded. -/
@[simp] theorem State.writeReg_zero : s.writeReg 0 v = s := rfl

/-- Reading a register after a write: the written one holds the value unless it is r0, the others are as before. -/
theorem State.reg_writeReg : (s.writeReg r v).reg q = if q = r ∧ r ≠ 0 then v else s.reg q := by
  by_cases hr : r = 0
  · simp [hr]
  · by_cases hq : q = r
    · subst hq; simp [State.writeReg, State.reg, hr]
    · have : r.val ≠ q.val := fun h => hq (Fin.ext h.symm)
      simp [State.writeReg, State.reg, hr, hq, Vector.getElem_set_ne, this]

/-- What can be read after a write: what could be read before, and the written register. -/
theorem State.regReadable_writeReg : (s.writeReg r v).regReadable q = (s.regReadable q || q == r) := by
  by_cases hr : r = 0
  · subst hr; by_cases hq : q = 0 <;> simp [hq]
  · by_cases hq : q = r
    · subst hq; simp [State.writeReg, State.regReadable, hr]
    · have : r.val ≠ q.val := fun h => hq (Fin.ext h.symm)
      simp [State.writeReg, State.regReadable, hr, hq, Vector.getElem_set_ne, this]

/-- A write never touches the stored r0. -/
theorem State.writeReg_get_zero : (s.writeReg r v).regs[0] = s.regs[0] := by
  by_cases hr : r = 0
  · simp [hr]
  · have : r.val ≠ 0 := fun h => hr (Fin.ext h)
    simp [State.writeReg, hr, Vector.getElem_set_ne, this]

/-- A write never makes r0 undefined. -/
theorem State.writeReg_defined_zero : (s.writeReg r v).regDefined[0] = s.regDefined[0] := by
  by_cases hr : r = 0
  · simp [hr]
  · have : r.val ≠ 0 := fun h => hr (Fin.ext h)
    simp [State.writeReg, hr, Vector.getElem_set_ne, this]

end Sys2Proof.Machine
end

