-- ==== Sys2Proof/Laws/Ops.lean ====
section
/-! SUPPORT. One lemma for each shared operation that says once what it can do: reading operands, the checks of an access, and
what reading, writing, the device and the host leave alone. -/

namespace Sys2Proof.Machine

/-! ## Reading operands -/

/-- A readable register is read and the instruction goes on. -/
theorem State.withReg_readable {s : State} {r : Reg} (h : s.regReadable r = true) (k : Word → Outcome) :
    s.withReg r k = k (s.reg r) := by simp [State.withReg, h]

/-- Two readable registers. -/
theorem State.withRegs_readable {s : State} {r q : Reg} (h : s.regReadable r = true) (h' : s.regReadable q = true)
    (k : Word → Word → Outcome) : s.withRegs r q k = k (s.reg r) (s.reg q) := by
  simp [State.withRegs, State.withReg, h, h']

/-- Reading a register either goes on with its value or takes UnspecifiedRead. -/
theorem State.withReg_cases (s : State) (r : Reg) (k : Word → Outcome) :
    s.withReg r k = k (s.reg r) ∨ s.withReg r k = s.raise (.unspecifiedRead (.register r)) := by
  unfold State.withReg; split
  · exact .inl rfl
  · exact .inr rfl

/-- Reading two registers either goes on with both values or takes UnspecifiedRead. -/
theorem State.withRegs_cases (s : State) (r q : Reg) (k : Word → Word → Outcome) :
    s.withRegs r q k = k (s.reg r) (s.reg q) ∨ ∃ c, s.withRegs r q k = s.raise c := by
  unfold State.withRegs
  rcases s.withReg_cases r (fun a => s.withReg q fun b => k a b) with h | h
  · rcases s.withReg_cases q (fun b => k (s.reg r) b) with h' | h'
    · exact .inl (h.trans h')
    · exact .inr ⟨_, h.trans h'⟩
  · exact .inr ⟨_, h⟩

/-! ## The checks of an access -/

/-- An access passes the checks of each place only where none is in the Code region. -/
theorem checkAt_not_code {cfg : Config} {kind : AccessKind} {a : Word} {w : Width} (h : checkAt cfg kind a w = none) :
    regionOf a ≠ .code := by
  intro hc; simp [checkAt, hc] at h

theorem checkEach_none {cfg : Config} {kind : AccessKind} {ps : List (Word × Width)} (h : checkEach cfg kind ps = none) :
    ∀ p ∈ ps, checkAt cfg kind p.1 p.2 = none := by
  induction ps with
  | nil => simp
  | cons q qs ih =>
    simp only [checkEach] at h
    split at h
    · cases h
    · intro p hp
      rcases List.mem_cons.1 hp with rfl | hp
      · assumption
      · exact ih h p hp

theorem aligned_byte (a : Word) : aligned a .byte = true := by simp [aligned, Width.bytes, Nat.mod_one]

/-- An access that passed its checks is made at aligned places, none of them in the Code region. -/
theorem checkData_none {cfg : Config} {kind : AccessKind} {a : Word} {w : Width} (h : checkData cfg kind a w = none) :
    ∀ p ∈ accessPlaces a w, regionOf p.1 ≠ .code ∧ aligned p.1 p.2 = true := by
  unfold checkData at h
  split at h
  · split at h
    · rename_i ha
      intro p hp
      simp only [accessPlaces, ha, if_true, List.mem_singleton] at hp
      subst hp
      exact ⟨checkAt_not_code h, ha⟩
    · cases h
  · have hb := checkEach_none h
    intro p hp
    unfold accessPlaces at hp
    split at hp
    · rename_i ha
      simp only [List.mem_singleton] at hp
      subst hp
      have h0 : (a, Width.byte) ∈ bytePlaces a w := by
        simp only [bytePlaces, List.mem_map, List.mem_range]
        exact ⟨0, by cases w <;> decide, by simp⟩
      exact ⟨checkAt_not_code (hb (a, .byte) h0), ha⟩
    · refine ⟨checkAt_not_code (hb p hp), ?_⟩
      simp only [bytePlaces, List.mem_map] at hp
      obtain ⟨k, _, rfl⟩ := hp
      exact aligned_byte _

/-- Every byte of an aligned place in the Data region is a Data byte. -/
theorem data_byte_bounds {a : Word} {w : Width} (hr : regionOf a = .data) (ha : aligned a w = true) {k : Nat}
    (hk : k < w.bytes) : codeLast < (a + BitVec.ofNat 32 k).toNat ∧ (a + BitVec.ofNat 32 k).toNat < mmioBase := by
  have hb := regionOf_data.1 hr
  simp only [aligned, beq_iff_eq] at ha
  simp only [codeLast, mmioBase, BitVec.toNat_add, BitVec.toNat_ofNat] at *
  cases w <;> simp only [Width.bytes] at * <;> omega

/-- An aligned access is composed in the data byte order. -/
theorem accessOrder_aligned (cfg : Config) {a : Word} {w : Width} (h : aligned a w = true) :
    accessOrder cfg a w = cfg.dataByteOrder := by simp [accessOrder, h]

/-- A misaligned access is composed in little-endian order, whatever DATA_BYTE_ORDER says. -/
theorem accessOrder_misaligned (cfg : Config) {a : Word} {w : Width} (h : aligned a w = false) :
    accessOrder cfg a w = .little := by simp [accessOrder, h]

theorem toBytes_length (o : ByteOrder) (n : Nat) (v : Word) : (toBytes o n v).length = n := by
  have h : ∀ (n : Nat) (v : Word), (toLittle n v).length = n := by
    intro n; induction n with
    | zero => intro v; rfl
    | succ n ih => intro v; simp [toLittle, ih]
  cases o <;> simp [toBytes, h]

/-! ## What every operation leaves alone -/

/-- `t` comes after `s` with nothing changed that no instruction may change while the machine runs on: the status, the launch
parameters, the events of the io trace so far and Code memory; and the invariant's memory and r0 parts carry over. -/
structure Extends (s t : State) : Prop where
  status : t.status = s.status
  cfg    : t.cfg = s.cfg
  io     : s.io <+: t.io
  code   : ∀ a, a ≤ codeLast → Memory.read t.mem a = Memory.read s.mem a
  sorted : Memory.wf s.mem → Memory.wf t.mem
  backed : (∀ c ∈ s.mem, c.1 < mmioBase) → ∀ c ∈ t.mem, c.1 < mmioBase
  zero   : t.regs[0] = s.regs[0]
  known  : t.regDefined[0] = s.regDefined[0]

theorem Extends.refl (s : State) : Extends s s :=
  ⟨rfl, rfl, List.prefix_refl _, fun _ _ => rfl, id, id, rfl, rfl⟩

theorem Extends.trans {s t u : State} (h : Extends s t) (h' : Extends t u) : Extends s u :=
  ⟨h'.status.trans h.status, h'.cfg.trans h.cfg, h.io.trans h'.io, fun a ha => (h'.code a ha).trans (h.code a ha),
    fun hs => h'.sorted (h.sorted hs), fun hb => h'.backed (h.backed hb), h'.zero.trans h.zero, h'.known.trans h.known⟩

theorem Extends.of_jump (s : State) (t : Word) : Extends s (s.jump t) :=
  ⟨rfl, rfl, List.prefix_refl _, fun _ _ => rfl, id, id, rfl, rfl⟩

theorem Extends.of_advance (s : State) : Extends s s.advance := Extends.of_jump s _

theorem Extends.of_emit (s : State) (e : Event) : Extends s (s.emit e) :=
  ⟨rfl, rfl, List.prefix_append _ _, fun _ _ => rfl, id, id, rfl, rfl⟩

theorem Extends.of_writeReg (s : State) (r : Reg) (v : Word) : Extends s (s.writeReg r v) where
  status := by simp
  cfg := by simp
  io := by simp
  code := by simp
  sorted := by simp
  backed := by simp
  zero := s.writeReg_get_zero r v
  known := s.writeReg_defined_zero r v

theorem Extends.of_deviceAccess (s : State) (x : MmioAccess) : Extends s (s.deviceAccess x) :=
  ⟨rfl, rfl, List.prefix_append _ _, fun _ _ => rfl, id, id, rfl, rfl⟩

/-- Writing Data bytes. -/
theorem Extends.of_writeBytes (s : State) (a : Word) (bs : List Byte)
    (h : ∀ k, k < bs.length → codeLast < (a + BitVec.ofNat 32 k).toNat ∧ (a + BitVec.ofNat 32 k).toNat < mmioBase) :
    Extends s { s with mem := Memory.writeBytes s.mem a bs } where
  status := rfl
  cfg := rfl
  io := List.prefix_refl _
  code := fun b hb => Memory.read_writeBytes_other bs s.mem a b fun k hk => by
    have := (h k hk).1; omega
  sorted := Memory.writeBytes_wf bs s.mem a
  backed := fun hm c hc => by
    rcases Memory.mem_writeBytes bs s.mem a c hc with hc | ⟨k, hk, hc⟩
    · exact hm c hc
    · exact hc ▸ (h k hk).2
  zero := rfl
  known := rfl

/-! ## Loads -/

theorem Extends.of_readPlace {s t : State} {p : Word × Width} {bs : List Byte} (h : s.readPlace p = .ok (t, bs)) :
    Extends s t ∧ ∀ r, t.reg r = s.reg r ∧ t.regReadable r = s.regReadable r := by
  unfold State.readPlace at h
  split at h
  · cases h; exact ⟨Extends.of_deviceAccess _ _, fun _ => ⟨rfl, rfl⟩⟩
  all_goals
    split at h
    · cases h
    · cases h; exact ⟨Extends.refl _, fun _ => ⟨rfl, rfl⟩⟩

theorem Extends.of_readPlaces {ps : List (Word × Width)} : ∀ {s t : State} {bs : List Byte},
    s.readPlaces ps = .ok (t, bs) → Extends s t ∧ ∀ r, t.reg r = s.reg r ∧ t.regReadable r = s.regReadable r := by
  induction ps with
  | nil => intro s t bs h; cases h; exact ⟨Extends.refl _, fun _ => ⟨rfl, rfl⟩⟩
  | cons p ps ih =>
    intro s t bs h
    simp only [State.readPlaces] at h
    split at h
    · cases h
    · rename_i s1 b1 h1
      split at h
      · cases h
      · rename_i s2 b2 h2
        cases h
        have ⟨e1, r1⟩ := Extends.of_readPlace h1
        have ⟨e2, r2⟩ := ih h2
        exact ⟨e1.trans e2, fun r => ⟨(r2 r).1.trans (r1 r).1, (r2 r).2.trans (r1 r).2⟩⟩

/-- A read that gives a value leaves registers, memory, status and parameters alone: only a device can have changed. -/
theorem Extends.of_memRead {s t : State} {a : Word} {w : Width} {v : Word} (h : s.memRead a w = .ok (t, v)) :
    Extends s t ∧ ∀ r, t.reg r = s.reg r ∧ t.regReadable r = s.regReadable r := by
  unfold State.memRead at h
  split at h
  · cases h
  · split at h
    · cases h
    · rename_i t' bs h'
      cases h
      exact Extends.of_readPlaces h'

/-- What a load answers: the common end of a computation after a read, or the stop of the access. -/
theorem State.load_cases (s : State) (rd : Reg) (a : Word) (w : Width) (ext : Word → Word) :
    (∃ t v, s.memRead a w = .ok (t, v) ∧ s.load rd a w ext = .next (t.writeReg rd (ext v)).advance) ∨
    (∃ e, s.memRead a w = .error e ∧ s.load rd a w ext = s.stop e) := by
  unfold State.load
  cases h : s.memRead a w with
  | error e => exact .inr ⟨e, rfl, rfl⟩
  | ok q => exact .inl ⟨q.1, q.2, rfl, rfl⟩

/-! ## Stores -/

theorem Extends.of_writePlace (s : State) (p : Word × Width) (bs : List Byte) (hr : regionOf p.1 ≠ .code)
    (ha : aligned p.1 p.2 = true) (hl : bs.length ≤ p.2.bytes) :
    Extends s (s.writePlace p bs) ∧
      ∀ r, (s.writePlace p bs).reg r = s.reg r ∧ (s.writePlace p bs).regReadable r = s.regReadable r := by
  unfold State.writePlace
  split
  · exact ⟨Extends.of_deviceAccess _ _, fun _ => ⟨rfl, rfl⟩⟩
  · rename_i h; exact absurd h hr
  · rename_i h
    exact ⟨Extends.of_writeBytes s p.1 bs fun k hk => data_byte_bounds h ha (Nat.lt_of_lt_of_le hk hl), fun _ => ⟨rfl, rfl⟩⟩

theorem Extends.of_writePlaces {ps : List (Word × Width)} : ∀ (s : State) (bs : List Byte),
    (∀ p ∈ ps, regionOf p.1 ≠ .code ∧ aligned p.1 p.2 = true) →
    Extends s (s.writePlaces ps bs) ∧
      ∀ r, (s.writePlaces ps bs).reg r = s.reg r ∧ (s.writePlaces ps bs).regReadable r = s.regReadable r := by
  induction ps with
  | nil => intro s bs _; exact ⟨Extends.refl _, fun _ => ⟨rfl, rfl⟩⟩
  | cons p ps ih =>
    intro s bs h
    have hp := h p List.mem_cons_self
    have ⟨e1, r1⟩ := Extends.of_writePlace s p (bs.take p.2.bytes) hp.1 hp.2 (by rw [List.length_take]; exact Nat.min_le_left _ _)
    have ⟨e2, r2⟩ := ih (s.writePlace p (bs.take p.2.bytes)) (bs.drop p.2.bytes)
      fun q hq => h q (List.mem_cons_of_mem _ hq)
    exact ⟨e1.trans e2, fun r => ⟨(r2 r).1.trans (r1 r).1, (r2 r).2.trans (r1 r).2⟩⟩

/-- A write that passes its checks changes Data bytes or the device only. -/
theorem Extends.of_memWrite {s t : State} {a : Word} {w : Width} {v : Word} (h : s.memWrite a w v = .ok t) :
    Extends s t ∧ ∀ r, t.reg r = s.reg r ∧ t.regReadable r = s.regReadable r := by
  unfold State.memWrite at h
  split at h
  · cases h
  · rename_i hc
    cases h
    exact Extends.of_writePlaces s _ (checkData_none hc)

/-- What a store answers: the advanced state after the write, or the stop of the access. -/
theorem State.store_cases (s : State) (a : Word) (w : Width) (v : Word) :
    (∃ t, s.memWrite a w v = .ok t ∧ s.store a w v = .next t.advance) ∨
    (∃ e, s.memWrite a w v = .error e ∧ s.store a w v = s.stop e) := by
  unfold State.store
  cases h : s.memWrite a w v with
  | error e => exact .inr ⟨e, rfl, rfl⟩
  | ok t => exact .inl ⟨t, rfl, rfl⟩

/-! ## The host's turn -/

theorem Extends.of_hostPoke (s : State) (p : Word × Byte) : Extends s (s.hostPoke p) := by
  unfold State.hostPoke
  split
  · rename_i h
    have hb := regionOf_data.1 h
    refine Extends.of_writeBytes s p.1 [p.2] fun k hk => ?_
    have : k = 0 := by simpa using hk
    subst this
    simpa using hb
  all_goals exact Extends.refl _

theorem Extends.of_foldl {α : Type} (f : State → α → State) (hf : ∀ s a, Extends s (f s a)) (l : List α) :
    ∀ s, Extends s (l.foldl f s) := by
  induction l with
  | nil => intro s; exact Extends.refl s
  | cons a l ih => intro s; exact (hf s a).trans (ih (f s a))

theorem Extends.of_applyReply (s : State) (r : HostReply) : Extends s (s.applyReply r) := by
  refine Extends.trans (Extends.of_foldl _ (fun u p => Extends.of_writeReg u p.1 p.2) r.regWrites s) ?_
  refine Extends.trans (Extends.of_foldl _ Extends.of_hostPoke r.memWrites _) ?_
  exact ⟨rfl, rfl, List.prefix_append _ _, fun _ _ => rfl, id, id, rfl, rfl⟩

/-- Whatever the host does in its turn, it leaves the status, the trace so far, Code memory and r0 alone. -/
theorem Extends.of_hostTurn (s : State) : Extends s s.hostTurn := by
  unfold State.hostTurn
  split
  · exact Extends.refl _
  · exact Extends.of_applyReply _ _
  · exact Extends.of_applyReply _ _

theorem State.hostPoke_pc (s : State) (p : Word × Byte) : (s.hostPoke p).pc = s.pc := by
  unfold State.hostPoke; split <;> rfl

theorem State.hostPoke_io (s : State) (p : Word × Byte) : (s.hostPoke p).io = s.io := by
  unfold State.hostPoke; split <;> rfl

theorem State.hostPoke_mmioLog (s : State) (p : Word × Byte) : (s.hostPoke p).mmioLog = s.mmioLog := by
  unfold State.hostPoke; split <;> rfl

/-- A host's reply leaves the pc alone, appends its own events to the trace, and tells a supplied device of the turn. -/
theorem State.applyReply_effect (s : State) (r : HostReply) :
    (s.applyReply r).pc = s.pc ∧ (s.applyReply r).io = s.io ++ r.events ∧
      (s.applyReply r).mmioLog = s.mmioLog ++ [.hostTurn] := by
  have h1 : ∀ (l : List (Reg × Word)) (u : State), (l.foldl (fun u p => u.writeReg p.1 p.2) u).pc = u.pc ∧
      (l.foldl (fun u p => u.writeReg p.1 p.2) u).io = u.io ∧
      (l.foldl (fun u p => u.writeReg p.1 p.2) u).mmioLog = u.mmioLog := by
    intro l; induction l with
    | nil => intro u; exact ⟨rfl, rfl, rfl⟩
    | cons p l ih => intro u; simpa using ih (u.writeReg p.1 p.2)
  have h2 : ∀ (l : List (Word × Byte)) (u : State), (l.foldl State.hostPoke u).pc = u.pc ∧
      (l.foldl State.hostPoke u).io = u.io ∧ (l.foldl State.hostPoke u).mmioLog = u.mmioLog := by
    intro l; induction l with
    | nil => intro u; exact ⟨rfl, rfl, rfl⟩
    | cons p l ih =>
      intro u; simpa [State.hostPoke_pc, State.hostPoke_io, State.hostPoke_mmioLog] using ih (u.hostPoke p)
  have a := h1 r.regWrites s
  have b := h2 r.memWrites (r.regWrites.foldl (fun u p => u.writeReg p.1 p.2) s)
  refine ⟨b.1.trans a.1, ?_, ?_⟩
  · exact congrArg (· ++ r.events) (b.2.1.trans a.2.1)
  · exact congrArg (· ++ [MmioAccess.hostTurn]) (b.2.2.trans a.2.2)

/-- A host that does nothing. -/
theorem State.hostTurn_identity {s : State} (h : s.cfg.hostOnYield = .identity) : s.hostTurn = s := by
  simp [State.hostTurn, h]

/-- The host's turn leaves the pc alone. -/
theorem State.hostTurn_pc (s : State) : s.hostTurn.pc = s.pc := by
  unfold State.hostTurn
  split
  · rfl
  · exact (s.applyReply_effect _).1
  · exact (s.applyReply_effect _).1

end Sys2Proof.Machine
end

