-- ==== Sys2Proof/Laws/Launch.lean ====
section
/-! SUPPORT. The launch at R6's defaults with nothing loaded is the reset state but for the registers it leaves undefined; what
defining registers does to a state; and loading keeps the canonical form. -/

namespace Sys2Proof.Machine

/-- The launch with R6's defaults and no program (spec/10_state.md R33) is `State.reset`, but that the registers the launch
leaves undefined hold the free value of R34, where the reset state names a zero (log entry 5). -/
theorem launch_default_eq_reset :
    State.launch Launch.default = { State.reset with regs := blankRegs.set 29 stackTop } := by
  simp only [State.launch, Launch.default, State.defineRegs, List.foldl_nil, State.writeReg, State.reset]
  rfl

/-- Before the launch defines any register, r0 is zero and each other one holds its free value. -/
theorem blankRegs_get (r : Reg) : blankRegs[r.val] = if r = 0 then 0 else Config.unspecifiedReg r := by
  by_cases h : r = 0
  · subst h; rfl
  · have hv : (0 : Nat) ≠ r.val := fun e => h (Fin.ext e.symm)
    rw [if_neg h]
    simp [blankRegs, hv]

/-- Defining registers changes nothing but registers. -/
theorem State.defineRegs_rest (ps : List (Reg × Word)) : ∀ s : State,
    (s.defineRegs ps).pc = s.pc ∧ (s.defineRegs ps).mem = s.mem ∧ (s.defineRegs ps).status = s.status ∧
    (s.defineRegs ps).io = s.io ∧ (s.defineRegs ps).mmioLog = s.mmioLog ∧ (s.defineRegs ps).cfg = s.cfg := by
  induction ps with
  | nil => intro s; exact ⟨rfl, rfl, rfl, rfl, rfl, rfl⟩
  | cons p ps ih =>
    intro s
    obtain ⟨h1, h2, h3, h4, h5, h6⟩ := ih (s.writeReg p.1 p.2)
    exact ⟨h1.trans (by simp), h2.trans (by simp), h3.trans (by simp), h4.trans (by simp), h5.trans (by simp),
      h6.trans (by simp)⟩

/-- A register no pair names is as before. -/
theorem State.defineRegs_other {ps : List (Reg × Word)} {r : Reg} : ∀ {s : State}, (∀ p ∈ ps, p.1 ≠ r) →
    (s.defineRegs ps).reg r = s.reg r ∧ (s.defineRegs ps).regReadable r = s.regReadable r := by
  induction ps with
  | nil => intro s _; exact ⟨rfl, rfl⟩
  | cons p ps ih =>
    intro s h
    have hp : r ≠ p.1 := (h p List.mem_cons_self).symm
    obtain ⟨h1, h2⟩ := ih (s := s.writeReg p.1 p.2) fun q hq => h q (List.mem_cons_of_mem _ hq)
    exact ⟨h1.trans (by rw [State.reg_writeReg, if_neg fun e => hp e.1]),
      h2.trans (by rw [State.regReadable_writeReg]; simp [hp])⟩

/-- A register one pair names holds the pair's value, where no two pairs name one register. -/
theorem State.defineRegs_named {ps : List (Reg × Word)} {p : Reg × Word} : ∀ {s : State}, ps.Pairwise (fun p q => p.1 ≠ q.1) →
    p ∈ ps → p.1 ≠ 0 → (s.defineRegs ps).reg p.1 = p.2 ∧ (s.defineRegs ps).regReadable p.1 = true := by
  induction ps with
  | nil => intro s _ h; cases h
  | cons q ps ih =>
    intro s hd h h0
    rcases List.mem_cons.1 h with rfl | h'
    · obtain ⟨h1, h2⟩ := State.defineRegs_other (s := s.writeReg p.1 p.2) fun q hq => ((List.pairwise_cons.1 hd).1 q hq).symm
      exact ⟨h1.trans (by rw [State.reg_writeReg, if_pos ⟨rfl, h0⟩]), h2.trans (by rw [State.regReadable_writeReg]; simp)⟩
    · exact ih (s := s.writeReg q.1 q.2) (List.pairwise_cons.1 hd).2 h' h0

/-- Loading code words keeps the canonical form. -/
theorem loadCode_wf {m : Memory} (p : Word × Word) (h : Memory.wf m) : Memory.wf (loadCode m p) := by
  unfold loadCode; split
  · exact Memory.writeBytes_wf _ _ _ h
  · exact h

/-- Loading data bytes keeps the canonical form. -/
theorem loadData_wf {m : Memory} (p : Word × Byte) (h : Memory.wf m) : Memory.wf (loadData m p) := by
  unfold loadData; split
  · exact Memory.write_wf _ _ h
  · exact h

end Sys2Proof.Machine
end

