-- ==== Sys2Proof/Laws/PerInstr.lean ====
section
/-! SUPPORT. Statements made once per instruction. Family OpcodeField: the encoded word of an instruction carries in bits 6 to 0
the opcode the opcode map R86 lists for it, whatever its operands are. -/

namespace Sys2Proof.Laws.OpcodeField

/-- The word's opcode field is the instruction's opcode. -/
def Statement (i : Instr) : Prop := opcodeOf (encode i) = i.opcode

theorem wordR_opcode (op : BitVec 7) (rd rs1 rs2 : Reg) : opcodeOf (wordR op rd rs1 rs2) = op :=
  BitVec.extractLsb'_append_eq_right

theorem wordI_opcode (op : BitVec 7) (rd rs1 : Reg) (imm : BitVec 12) : opcodeOf (wordI op rd rs1 imm) = op :=
  BitVec.extractLsb'_append_eq_right

theorem wordS_opcode (op : BitVec 7) (rs1 rs2 : Reg) (imm : BitVec 12) : opcodeOf (wordS op rs1 rs2 imm) = op :=
  BitVec.extractLsb'_append_eq_right

theorem wordB_opcode (op : BitVec 7) (rs1 rs2 : Reg) (imm : BitVec 13) : opcodeOf (wordB op rs1 rs2 imm) = op :=
  BitVec.extractLsb'_append_eq_right

theorem wordU_opcode (op : BitVec 7) (rd : Reg) (imm : BitVec 20) : opcodeOf (wordU op rd imm) = op :=
  BitVec.extractLsb'_append_eq_right

theorem wordJ_opcode (op : BitVec 7) (rd : Reg) (imm : BitVec 21) : opcodeOf (wordJ op rd imm) = op :=
  BitVec.extractLsb'_append_eq_right

theorem add (rd rs1 rs2 : Reg) : Statement (.add rd rs1 rs2) := wordR_opcode _ _ _ _
theorem sub (rd rs1 rs2 : Reg) : Statement (.sub rd rs1 rs2) := wordR_opcode _ _ _ _
theorem xor (rd rs1 rs2 : Reg) : Statement (.xor rd rs1 rs2) := wordR_opcode _ _ _ _
theorem or (rd rs1 rs2 : Reg) : Statement (.or rd rs1 rs2) := wordR_opcode _ _ _ _
theorem and (rd rs1 rs2 : Reg) : Statement (.and rd rs1 rs2) := wordR_opcode _ _ _ _
theorem sll (rd rs1 rs2 : Reg) : Statement (.sll rd rs1 rs2) := wordR_opcode _ _ _ _
theorem srl (rd rs1 rs2 : Reg) : Statement (.srl rd rs1 rs2) := wordR_opcode _ _ _ _
theorem sra (rd rs1 rs2 : Reg) : Statement (.sra rd rs1 rs2) := wordR_opcode _ _ _ _
theorem slt (rd rs1 rs2 : Reg) : Statement (.slt rd rs1 rs2) := wordR_opcode _ _ _ _
theorem sltu (rd rs1 rs2 : Reg) : Statement (.sltu rd rs1 rs2) := wordR_opcode _ _ _ _
theorem mul (rd rs1 rs2 : Reg) : Statement (.mul rd rs1 rs2) := wordR_opcode _ _ _ _
theorem mulh (rd rs1 rs2 : Reg) : Statement (.mulh rd rs1 rs2) := wordR_opcode _ _ _ _
theorem div (rd rs1 rs2 : Reg) : Statement (.div rd rs1 rs2) := wordR_opcode _ _ _ _
theorem rem (rd rs1 rs2 : Reg) : Statement (.rem rd rs1 rs2) := wordR_opcode _ _ _ _
theorem seq (rd rs1 rs2 : Reg) : Statement (.seq rd rs1 rs2) := wordR_opcode _ _ _ _
theorem sne (rd rs1 rs2 : Reg) : Statement (.sne rd rs1 rs2) := wordR_opcode _ _ _ _
theorem addi (rd rs1 : Reg) (imm : BitVec 12) : Statement (.addi rd rs1 imm) := wordI_opcode _ _ _ _
theorem ori (rd rs1 : Reg) (imm : BitVec 12) : Statement (.ori rd rs1 imm) := wordI_opcode _ _ _ _
theorem andi (rd rs1 : Reg) (imm : BitVec 12) : Statement (.andi rd rs1 imm) := wordI_opcode _ _ _ _
theorem slli (rd rs1 : Reg) (imm : BitVec 12) : Statement (.slli rd rs1 imm) := wordI_opcode _ _ _ _
theorem srli (rd rs1 : Reg) (imm : BitVec 12) : Statement (.srli rd rs1 imm) := wordI_opcode _ _ _ _
theorem srai (rd rs1 : Reg) (imm : BitVec 12) : Statement (.srai rd rs1 imm) := wordI_opcode _ _ _ _
theorem slti (rd rs1 : Reg) (imm : BitVec 12) : Statement (.slti rd rs1 imm) := wordI_opcode _ _ _ _
theorem sltiu (rd rs1 : Reg) (imm : BitVec 12) : Statement (.sltiu rd rs1 imm) := wordI_opcode _ _ _ _
theorem sgt (rd rs1 rs2 : Reg) : Statement (.sgt rd rs1 rs2) := wordR_opcode _ _ _ _
theorem sgtu (rd rs1 rs2 : Reg) : Statement (.sgtu rd rs1 rs2) := wordR_opcode _ _ _ _
theorem sle (rd rs1 rs2 : Reg) : Statement (.sle rd rs1 rs2) := wordR_opcode _ _ _ _
theorem sleu (rd rs1 rs2 : Reg) : Statement (.sleu rd rs1 rs2) := wordR_opcode _ _ _ _
theorem sge (rd rs1 rs2 : Reg) : Statement (.sge rd rs1 rs2) := wordR_opcode _ _ _ _
theorem sgeu (rd rs1 rs2 : Reg) : Statement (.sgeu rd rs1 rs2) := wordR_opcode _ _ _ _
theorem xori (rd rs1 : Reg) (imm : BitVec 12) : Statement (.xori rd rs1 imm) := wordI_opcode _ _ _ _
theorem lui (rd : Reg) (imm : BitVec 20) : Statement (.lui rd imm) := wordU_opcode _ _ _
theorem ldb (rd rs1 : Reg) (imm : BitVec 12) : Statement (.ldb rd rs1 imm) := wordI_opcode _ _ _ _
theorem ldh (rd rs1 : Reg) (imm : BitVec 12) : Statement (.ldh rd rs1 imm) := wordI_opcode _ _ _ _
theorem ldw (rd rs1 : Reg) (imm : BitVec 12) : Statement (.ldw rd rs1 imm) := wordI_opcode _ _ _ _
theorem ldbu (rd rs1 : Reg) (imm : BitVec 12) : Statement (.ldbu rd rs1 imm) := wordI_opcode _ _ _ _
theorem ldhu (rd rs1 : Reg) (imm : BitVec 12) : Statement (.ldhu rd rs1 imm) := wordI_opcode _ _ _ _
theorem stb (rs1 rs2 : Reg) (imm : BitVec 12) : Statement (.stb rs1 rs2 imm) := wordS_opcode _ _ _ _
theorem sth (rs1 rs2 : Reg) (imm : BitVec 12) : Statement (.sth rs1 rs2 imm) := wordS_opcode _ _ _ _
theorem stw (rs1 rs2 : Reg) (imm : BitVec 12) : Statement (.stw rs1 rs2 imm) := wordS_opcode _ _ _ _
theorem assertEq (rs1 rs2 : Reg) : Statement (.assertEq rs1 rs2) := wordR_opcode _ _ _ _
theorem jal (rd : Reg) (imm : BitVec 21) : Statement (.jal rd imm) := wordJ_opcode _ _ _
theorem jalr (rd rs1 : Reg) (imm : BitVec 12) : Statement (.jalr rd rs1 imm) := wordI_opcode _ _ _ _
theorem beq (rs1 rs2 : Reg) (imm : BitVec 13) : Statement (.beq rs1 rs2 imm) := wordB_opcode _ _ _ _
theorem bne (rs1 rs2 : Reg) (imm : BitVec 13) : Statement (.bne rs1 rs2 imm) := wordB_opcode _ _ _ _
theorem blt (rs1 rs2 : Reg) (imm : BitVec 13) : Statement (.blt rs1 rs2 imm) := wordB_opcode _ _ _ _
theorem bge (rs1 rs2 : Reg) (imm : BitVec 13) : Statement (.bge rs1 rs2 imm) := wordB_opcode _ _ _ _
theorem bltu (rs1 rs2 : Reg) (imm : BitVec 13) : Statement (.bltu rs1 rs2 imm) := wordB_opcode _ _ _ _
theorem bgeu (rs1 rs2 : Reg) (imm : BitVec 13) : Statement (.bgeu rs1 rs2 imm) := wordB_opcode _ _ _ _
theorem nop : Statement .nop := wordR_opcode _ _ _ _
theorem yield : Statement .yield := wordR_opcode _ _ _ _
theorem debug (rs1 : Reg) : Statement (.debug rs1) := wordR_opcode _ _ _ _
theorem halt : Statement .halt := wordR_opcode _ _ _ _

end Sys2Proof.Laws.OpcodeField
end

