-- ==== Sys2Proof/Machine/Timing.lean ====
section
/-! DEFINITION. The cost table (spec/70_reset_and_hazards.md R258). It is not normative and no part of the state (R259): no
instruction reads a cycle count. -/

namespace Sys2Proof.Machine

/-- The cycles R258 gives an instruction. -/
def cycles : Instr → Nat
  | .ldb _ _ _ | .ldh _ _ _ | .ldw _ _ _ | .ldbu _ _ _ | .ldhu _ _ _ | .stb _ _ _ | .sth _ _ _ | .stw _ _ _ => 3
  | .mul _ _ _ | .mulh _ _ _ => 32
  | .div _ _ _ | .rem _ _ _ => 64
  | .add _ _ _ | .sub _ _ _ | .addi _ _ _ | .xor _ _ _ | .or _ _ _ | .and _ _ _ => 1
  | .ori _ _ _ | .andi _ _ _ | .xori _ _ _ => 1
  | .sll _ _ _ | .srl _ _ _ | .sra _ _ _ | .slli _ _ _ | .srli _ _ _ | .srai _ _ _ => 1
  | .slt _ _ _ | .sltu _ _ _ | .seq _ _ _ | .sne _ _ _ | .slti _ _ _ | .sltiu _ _ _ => 1
  | .sgt _ _ _ | .sgtu _ _ _ | .sle _ _ _ | .sleu _ _ _ | .sge _ _ _ | .sgeu _ _ _ => 1
  | .beq _ _ _ | .bne _ _ _ | .blt _ _ _ | .bge _ _ _ | .bltu _ _ _ | .bgeu _ _ _ => 1
  | .jal _ _ | .jalr _ _ _ | .lui _ _ | .assertEq _ _ | .nop | .yield | .debug _ | .halt => 1

/-- The cost of the completed steps of a run: the sum over its instructions (R259). -/
def cyclesOf (is : List Instr) : Nat := (is.map cycles).sum

end Sys2Proof.Machine
end

