-- ==== Sys2Proof/Tests/Slice0.lean ====
section
/-! SUPPORT. Tests of decoding, well-formedness and one step of each instruction, and a witness for each statement that has
hypotheses. Expected values are those of spec/95_test_vectors.md, or worked out by hand from the rule named. -/

namespace Sys2Proof.Tests

open Sys2Proof Sys2Proof.Machine

/-! ## Well-formedness: an odd offset is refused in each place that takes an offset (R82, R84) -/

theorem test_wf_refuses_odd_branch_offset :
    (Instr.beq 2 3 1).wf = false ∧ (Instr.bne 2 3 3).wf = false ∧ (Instr.blt 2 3 0x1FFF).wf = false ∧
    (Instr.bge 2 3 5).wf = false ∧ (Instr.bltu 2 3 7).wf = false ∧ (Instr.bgeu 2 3 0xFFF).wf = false := by decide

theorem test_wf_refuses_odd_jal_offset : (Instr.jal 1 1).wf = false ∧ (Instr.jal 0 0x1FFFFF).wf = false := by decide

theorem test_wf_accepts_two_modulo_four :
    (Instr.beq 2 3 2).wf = true ∧ (Instr.jal 1 0x1FFFFA).wf = true ∧ (Instr.jalr 1 2 1).wf = true := by decide

/-! ## Decoding: the words of spec/95_test_vectors.md section 2, one for every constructor -/

theorem test_decode_arithmetic :
    decodeWord 0x00310080 = .ok (.add 1 2 3) ∧ decodeWord 0x00310081 = .ok (.sub 1 2 3) ∧
    decodeWord 0x0031008A = .ok (.mul 1 2 3) ∧ decodeWord 0x0031008B = .ok (.mulh 1 2 3) ∧
    decodeWord 0x0031008C = .ok (.div 1 2 3) ∧ decodeWord 0x0031008D = .ok (.rem 1 2 3) ∧
    decodeWord 0xFFD10090 = .ok (.addi 1 2 0xFFD) := by decide

theorem test_decode_logical :
    decodeWord 0x00310082 = .ok (.xor 1 2 3) ∧ decodeWord 0x00310083 = .ok (.or 1 2 3) ∧
    decodeWord 0x00310084 = .ok (.and 1 2 3) ∧ decodeWord 0xFFD10091 = .ok (.ori 1 2 0xFFD) ∧
    decodeWord 0xFFD10092 = .ok (.andi 1 2 0xFFD) ∧ decodeWord 0xFFD1009E = .ok (.xori 1 2 0xFFD) := by decide

theorem test_decode_shift :
    decodeWord 0x00310085 = .ok (.sll 1 2 3) ∧ decodeWord 0x00310086 = .ok (.srl 1 2 3) ∧
    decodeWord 0x00310087 = .ok (.sra 1 2 3) ∧ decodeWord 0x01D10093 = .ok (.slli 1 2 29) ∧
    decodeWord 0x01D10094 = .ok (.srli 1 2 29) ∧ decodeWord 0x01D10095 = .ok (.srai 1 2 29) := by decide

theorem test_decode_comparison :
    decodeWord 0x00310088 = .ok (.slt 1 2 3) ∧ decodeWord 0x00310089 = .ok (.sltu 1 2 3) ∧
    decodeWord 0x0031008E = .ok (.seq 1 2 3) ∧ decodeWord 0x0031008F = .ok (.sne 1 2 3) ∧
    decodeWord 0xFFD10096 = .ok (.slti 1 2 0xFFD) ∧ decodeWord 0xFFD10097 = .ok (.sltiu 1 2 0xFFD) ∧
    decodeWord 0x00310098 = .ok (.sgt 1 2 3) ∧ decodeWord 0x00310099 = .ok (.sgtu 1 2 3) ∧
    decodeWord 0x0031009A = .ok (.sle 1 2 3) ∧ decodeWord 0x0031009B = .ok (.sleu 1 2 3) ∧
    decodeWord 0x0031009C = .ok (.sge 1 2 3) ∧ decodeWord 0x0031009D = .ok (.sgeu 1 2 3) := by decide

theorem test_decode_load_store :
    decodeWord 0xFFD100B0 = .ok (.ldb 1 2 0xFFD) ∧ decodeWord 0xFFD100B1 = .ok (.ldh 1 2 0xFFD) ∧
    decodeWord 0xFFD100B2 = .ok (.ldw 1 2 0xFFD) ∧ decodeWord 0xFFD100B3 = .ok (.ldbu 1 2 0xFFD) ∧
    decodeWord 0xFFD100B4 = .ok (.ldhu 1 2 0xFFD) ∧ decodeWord 0xFE310EB8 = .ok (.stb 2 3 0xFFD) ∧
    decodeWord 0xFE310EB9 = .ok (.sth 2 3 0xFFD) ∧ decodeWord 0xFE310EBA = .ok (.stw 2 3 0xFFD) := by decide

theorem test_decode_branch :
    decodeWord 0xFE310DC8 = .ok (.beq 2 3 0x1FFA) ∧ decodeWord 0xFE310DC9 = .ok (.bne 2 3 0x1FFA) ∧
    decodeWord 0xFE310DCA = .ok (.blt 2 3 0x1FFA) ∧ decodeWord 0xFE310DCB = .ok (.bge 2 3 0x1FFA) ∧
    decodeWord 0xFE310DCC = .ok (.bltu 2 3 0x1FFA) ∧ decodeWord 0xFE310DCD = .ok (.bgeu 2 3 0x1FFA) := by decide

theorem test_decode_jump :
    decodeWord 0xFFBFF0C0 = .ok (.jal 1 0x1FFFFA) ∧ decodeWord 0xFFD100C1 = .ok (.jalr 1 2 0xFFD) := by decide

theorem test_decode_special :
    decodeWord 0xABCDE0A0 = .ok (.lui 1 0xABCDE) ∧ decodeWord 0x0031003F = .ok (.assertEq 2 3) ∧
    decodeWord 0x00000050 = .ok .nop ∧ decodeWord 0x00000051 = .ok .yield ∧
    decodeWord 0x00010052 = .ok (.debug 2) ∧ decodeWord 0x0000007F = .ok .halt := by decide

/-- The same words from the table's numbering: shown on one word of each format. -/
theorem test_decode_table_words :
    decodeTableWord 32 0x00310081 = some (.sub 1 2 3) ∧ decodeTableWord 32 0xFFD10090 = some (.addi 1 2 0xFFD) ∧
    decodeTableWord 32 0xFE310EBA = some (.stw 2 3 0xFFD) ∧ decodeTableWord 32 0xFE310DC8 = some (.beq 2 3 0x1FFA) ∧
    decodeTableWord 32 0xABCDE0A0 = some (.lui 1 0xABCDE) ∧ decodeTableWord 32 0xFFBFF0C0 = some (.jal 1 0x1FFFFA) ∧
    decodeTableWord 32 0x0000001F = none := by decide

/-- Unused bits are ignored (section 2, the non-canonical words). -/
theorem test_decode_ignores_unused_bits :
    decodeWord 0x003100BF = .ok (.assertEq 2 3) ∧ decodeWord 0x003100D1 = .ok .yield ∧
    decodeWord 0x003100D2 = .ok (.debug 2) ∧ decodeWord 0xFFFFFFD0 = .ok .nop ∧
    decodeWord 0xFFFFFFFF = .ok .halt ∧ decodeWord 0xFE317080 = .ok (.add 1 2 3) := by decide

/-- Unlisted opcodes (section 3.8). -/
theorem test_decode_unlisted :
    decodeWord 0x0000001F = .illegal 0x0000001F ∧ decodeWord 0x0000002F = .illegal 0x0000002F ∧
    decodeWord 0x0000007E = .illegal 0x0000007E ∧ decodeWord 0xFFFFFFD3 = .illegal 0xFFFFFFD3 := by decide

/-- Where each immediate bit of a branch lies (section 3.5). -/
theorem test_encode_branch_bits :
    encode (.beq 0 0 2) = 0x00000148 ∧ encode (.beq 0 0 16) = 0x00000848 ∧ encode (.beq 0 0 32) = 0x02000048 ∧
    encode (.beq 0 0 1024) = 0x40000048 ∧ encode (.beq 0 0 2048) = 0x000000C8 ∧
    encode (.beq 0 0 0x1000) = 0x80000048 ∧ encode (.beq 0 0 4094) = 0x7E000FC8 := by decide

/-- Where each immediate bit of a JAL lies (section 3.6). -/
theorem test_encode_jump_bits :
    encode (.jal 1 2) = 0x002000C0 ∧ encode (.jal 1 2048) = 0x001000C0 ∧ encode (.jal 1 4096) = 0x000010C0 ∧
    encode (.jal 1 0x80000) = 0x000800C0 ∧ encode (.jal 1 0x100000) = 0x800000C0 ∧
    encode (.jal 1 1048574) = 0x7FFFF0C0 := by decide

/-- Bytes lie in memory as R46's example says. -/
theorem test_encode_bytes : encodeBytes (.addi 3 0 10) = [0x90, 0x01, 0xA0, 0x00] := by decide

theorem test_decode_bytes :
    decodeBytes [0x90, 0x01, 0xA0, 0x00, 0x7F] = .instr (.addi 3 0 10) [0x7F] ∧
    decodeBytes [0x90, 0x01, 0xA0] = .tooShort := by decide

/-! ## Small states -/

/-- The reset state with r3 and r4 set, at a pc, with eight Data bytes from 0x00100000 up (section 3.7). -/
def small (pc x3 x4 : Word) : State :=
  let s := (State.reset.writeReg 3 x3).writeReg 4 x4
  { s with pc := pc, mem := Memory.writeBytes [] 0x00100000 [0x80, 0x7F, 0xFF, 0x01, 0xEF, 0xCD, 0xAB, 0x89] }

/-- The small state with one parameter changed. -/
def tuned (f : Config → Config) (x3 x4 : Word) : State :=
  { small 0x40 x3 x4 with cfg := f (small 0x40 x3 x4).cfg }

/-- One step of the small state at pc 0x40 from the word given. -/
def after (w : Nat) (x3 x4 : Word) : Outcome := step ((small 0x40 x3 x4).withFetchWord 32 w)

/-- One step of a tuned state. -/
def afterTuned (f : Config → Config) (w : Nat) (x3 x4 : Word) : Outcome := step ((tuned f x3 x4).withFetchWord 32 w)

/-- The word in r5 after a step that went on to the next instruction. -/
def r5 : Outcome → Option Word
  | .next t => if t.status = .running ∧ t.pc = 0x44 then some (t.reg 5) else none
  | .fault _ | .refused _ => none

/-- The pc after a step that kept the machine running. -/
def pcOf : Outcome → Option Word
  | .next t => if t.status = .running then some t.pc else none
  | .fault _ | .refused _ => none

/-- A register after a step. -/
def regOf (r : Reg) : Outcome → Option Word
  | .next t => some (t.reg r)
  | .fault _ | .refused _ => none

/-- The status, pc and r5 after a step. -/
def endOf : Outcome → Option (Status × Word × Word)
  | .next t => some (t.status, t.pc, t.reg 5)
  | .fault _ | .refused _ => none

/-- The bytes listed from 0x00100000 up after a step. -/
def bytesOf : Outcome → List Byte
  | .next t => (t.mem.filter fun c => 0x00100000 ≤ c.1).map fun c => c.2
  | .fault _ | .refused _ => []

/-- The io trace after a step that went on to the next instruction. -/
def ioOf : Outcome → Option (List Event)
  | .next t => if t.status = .running ∧ t.pc = 0x44 then some t.io else none
  | .fault _ | .refused _ => none

/-- Why a step is refused. -/
def refusalOf : Outcome → Option Refusal
  | .refused r => some r
  | .next _ | .fault _ => none

/-! ## Arithmetic (section 3.1) -/

theorem test_add_wraps : r5 (after 0x00418280 0x12345678 0x9ABCDEF0) = some 0xACF13568 := by decide
theorem test_sub_borrows : r5 (after 0x00418281 0x00000001 0x00000002) = some 0xFFFFFFFF := by decide
theorem test_mul_low : r5 (after 0x0041828A 0x12345678 0x9ABCDEF0) = some 0x242D2080 := by decide
theorem test_mulh_unsigned : r5 (after 0x0041828B 0x12345678 0x9ABCDEF0) = some 0x0B00EA4E := by decide
theorem test_mulh_signed :
    r5 (afterTuned (fun c => { c with mulhSignedness := .signedSigned }) 0x0041828B 0x12345678 0x9ABCDEF0) =
      some 0xF8CC93D6 := by decide
theorem test_div_rounds_to_zero : r5 (after 0x0041828C 0xFFFFFFF9 0x00000002) = some 0xFFFFFFFD := by decide
theorem test_div_by_zero : endOf (after 0x0041828C 7 0) = some (.faulted (.divideByZero 0x40), 0x40, 0) := by decide
theorem test_rem_has_dividend_sign : r5 (after 0x0041828D 0xFFFFFFF9 0x00000002) = some 0xFFFFFFFF := by decide
theorem test_rem_overflow :
    endOf (after 0x0041828D 0x80000000 0xFFFFFFFF) = some (.faulted (.divideOverflow 0x40), 0x40, 0) ∧
    r5 (afterTuned (fun c => { c with divCorner := .riscvValues }) 0x0041828D 0x80000000 0xFFFFFFFF) = some 0 := by decide
theorem test_addi_negative : r5 (after 0xFFF18290 0x00001000 0) = some 0x00000FFF := by decide
theorem test_addi_zero_destination : endOf (after 0x00718010 5 0) = some (.running, 0x44, 0) ∧
    regOf 0 (after 0x00718010 5 0) = some 0 := by decide

/-! ## Logical (section 3.2) -/

theorem test_xor : r5 (after 0x00418282 0xFF00FF00 0x0F0F0F0F) = some 0xF00FF00F := by decide
theorem test_or : r5 (after 0x00418283 0xFF00FF00 0x0F0F0F0F) = some 0xFF0FFF0F := by decide
theorem test_and : r5 (after 0x00418284 0xFF00FF00 0x0F0F0F0F) = some 0x0F000F00 := by decide
theorem test_ori_zero_extends : r5 (after 0x80018291 0 0) = some 0x00000800 := by decide
theorem test_andi_low_half : r5 (after 0x7FF18292 0x12345678 0) = some 0x00000678 := by decide
theorem test_andi_parameter :
    r5 (afterTuned (fun c => { c with andiImmExt := .zero }) 0x80018292 0xFFFFFFFF 0) = some 0x00000800 ∧
    r5 (afterTuned (fun c => { c with andiImmExt := .sign }) 0x80018292 0xFFFFFFFF 0) = some 0xFFFFF800 ∧
    refusalOf (afterTuned (fun c => { c with andiImmExt := .notGiven }) 0x80018292 0xFFFFFFFF 0) =
      some (.andiImmOpen 0x40) := by decide
theorem test_xori_sign_extends : r5 (after 0xFFF1829E 0x12345678 0) = some 0xEDCBA987 := by decide

/-! ## Shifts (section 3.3) -/

theorem test_sll_masks : r5 (after 0x00418285 0xFFFFFFFF 0xFFFFFFFF) = some 0x80000000 := by decide
theorem test_srl : r5 (after 0x00418286 0x80000001 1) = some 0x40000000 := by decide
theorem test_sra : r5 (after 0x00418287 0x80000000 0x21) = some 0xC0000000 := by decide
theorem test_sra_over_31 :
    endOf (afterTuned (fun c => { c with shamtRule := .faultIfOver31 }) 0x00418287 0x80000000 0x21) =
      some (.faulted (.shiftAmountOutOfRange 0x40), 0x40, 0) := by decide
theorem test_slli_ignores_high_bits : r5 (after 0x02018293 0x12345678 0) = some 0x12345678 := by decide
theorem test_srli : r5 (after 0x7E118294 0x80000000 0) = some 0x40000000 := by decide
theorem test_srai : r5 (after 0x01F18295 0x80000000 0) = some 0xFFFFFFFF := by decide

/-! ## Comparisons (section 3.4) -/

theorem test_slt : r5 (after 0x00418288 0x80000000 0x7FFFFFFF) = some 1 := by decide
theorem test_sltu : r5 (after 0x00418289 0x80000000 0x7FFFFFFF) = some 0 := by decide
theorem test_seq : r5 (after 0x0041828E 3 3) = some 1 ∧ r5 (after 0x0041828E 1 2) = some 0 := by decide
theorem test_sne : r5 (after 0x0041828F 3 3) = some 0 ∧ r5 (after 0x0041828F 1 2) = some 1 := by decide
theorem test_sgt : r5 (after 0x00418298 1 0xFFFFFFFF) = some 1 ∧ r5 (after 0x00418298 3 3) = some 0 := by decide
theorem test_sgtu : r5 (after 0x00418299 0xFFFFFFFF 1) = some 1 ∧ r5 (after 0x00418299 3 3) = some 0 := by decide
theorem test_sle : r5 (after 0x0041829A 3 3) = some 1 ∧ r5 (after 0x0041829A 1 0xFFFFFFFF) = some 0 := by decide
theorem test_sleu : r5 (after 0x0041829B 3 3) = some 1 ∧ r5 (after 0x0041829B 0xFFFFFFFF 1) = some 0 := by decide
theorem test_sge : r5 (after 0x0041829C 3 3) = some 1 ∧ r5 (after 0x0041829C 0xFFFFFFFF 1) = some 0 := by decide
theorem test_sgeu : r5 (after 0x0041829D 3 3) = some 1 ∧ r5 (after 0x0041829D 1 0xFFFFFFFF) = some 0 := by decide
theorem test_slti : r5 (after 0xFFF18296 0xFFFFFFFE 0) = some 1 ∧ r5 (after 0x00518296 5 0) = some 0 := by decide
theorem test_sltiu_sign_extends : r5 (after 0x80018297 0x00000900 0) = some 1 := by decide
theorem test_sltiu_zero_extends :
    r5 (afterTuned (fun c => { c with sltiuImmExt := .zero }) 0x80018297 0x00000900 0) = some 0 := by decide

/-! ## Branches (section 3.5, at pc 0x40): offset 16 leads to 0x50 -/

theorem test_beq : pcOf (after 0x00418848 1 1) = some 0x50 ∧ pcOf (after 0x00418848 1 2) = some 0x44 := by decide
theorem test_bne : pcOf (after 0x00418849 1 1) = some 0x44 ∧ pcOf (after 0x00418849 1 2) = some 0x50 := by decide
theorem test_blt :
    pcOf (after 0x0041884A 0xFFFFFFFF 1) = some 0x50 ∧ pcOf (after 0x0041884A 1 1) = some 0x44 := by decide
theorem test_bge :
    pcOf (after 0x0041884B 0xFFFFFFFF 1) = some 0x44 ∧ pcOf (after 0x0041884B 1 1) = some 0x50 := by decide
theorem test_bltu :
    pcOf (after 0x0041884C 0xFFFFFFFF 1) = some 0x44 ∧ pcOf (after 0x0041884C 1 2) = some 0x50 := by decide
theorem test_bgeu :
    pcOf (after 0x0041884D 0xFFFFFFFF 1) = some 0x50 ∧ pcOf (after 0x0041884D 1 2) = some 0x44 := by decide

/-! ## Jumps (section 3.6, at pc 0x40) -/

theorem test_jal :
    pcOf (after 0x10000FC0 0 0) = some 0x140 ∧ regOf 31 (after 0x10000FC0 0 0) = some 0x44 := by decide
theorem test_jal_backward_no_link :
    pcOf (after 0xFC1FF040 0 0) = some 0 ∧ regOf 0 (after 0xFC1FF040 0 0) = some 0 := by decide
/-- `jalr r3, r3, -4`: the old r3 is the base (R181; the word by R73: 0xFFC << 20, rs1 3, rd 3, opcode 0x41). -/
theorem test_jalr_uses_old_base :
    pcOf (after 0xFFC181C1 0x200 0) = some 0x1FC ∧ regOf 3 (after 0xFFC181C1 0x200 0) = some 0x44 := by decide
/-- `jalr r1, r3, 1`: no bit of the target is cleared. -/
theorem test_jalr_odd_target : pcOf (after 0x001180C1 0x200 0) = some 0x201 := by decide

/-! ## Loads and stores (section 3.7) -/

theorem test_ldb : r5 (after 0x000182B0 0x00100000 0) = some 0xFFFFFF80 := by decide
theorem test_ldb_last_code_byte :
    endOf (after 0x000182B0 0x000FFFFF 0) = some (.faulted (.loadAccessFault 0x000FFFFF), 0x40, 0) := by decide
theorem test_ldh : r5 (after 0x004182B1 0x00100000 0) = some 0xFFFFCDEF := by decide
theorem test_ldh_misaligned :
    endOf (after 0x001182B1 0x00100000 0) = some (.faulted (.loadMisaligned 0x00100001), 0x40, 0) := by decide
theorem test_ldw : r5 (after 0xFFC182B2 0x00100008 0) = some 0x89ABCDEF := by decide
theorem test_ldw_mmio : refusalOf (after 0x004182B2 0x0FFFFFFC 0) = some (.mmioUnmodelled 0x10000000) := by decide
theorem test_ldbu : r5 (after 0x000182B3 0x00100000 0) = some 0x00000080 := by decide
theorem test_ldhu : r5 (after 0x006182B4 0x00100000 0) = some 0x000089AB := by decide
/-- Aligned, in the data byte order (R47); misaligned under bytewise, little-endian all the same (R52). -/
theorem test_ldhu_big_endian :
    r5 (afterTuned (fun c => { c with dataByteOrder := .big }) 0x006182B4 0x00100000 0) = some 0x0000AB89 ∧
    r5 (afterTuned (fun c => { c with misalignedData := .bytewise, dataByteOrder := .big }) 0x005182B4 0x00100000 0) =
      some 0x0000ABCD := by decide
theorem test_stb :
    bytesOf (after 0x004183B8 0x00100000 0xFFFFFF00) = [0x80, 0x7F, 0xFF, 0x01, 0xEF, 0xCD, 0xAB, 0x00] := by decide
theorem test_stb_code :
    endOf (after 0x00418038 0x000FFFFF 1) = some (.faulted (.storeAccessFault 0x000FFFFF), 0x40, 0) := by decide
theorem test_sth :
    bytesOf (after 0x00418139 0x00100000 0x12345678) = [0x80, 0x7F, 0x78, 0x56, 0xEF, 0xCD, 0xAB, 0x89] := by decide
/-- Little-endian also under DATA_BYTE_ORDER = big (R52). -/
theorem test_sth_bytewise :
    bytesOf (afterTuned (fun c => { c with misalignedData := .bytewise, dataByteOrder := .big }) 0x004180B9 0x00100000 0x1234) =
      [0x80, 0x34, 0x12, 0x01, 0xEF, 0xCD, 0xAB, 0x89] := by decide
theorem test_stw :
    bytesOf (after 0x7E418FBA 0x000FF801 0xCAFEF00D) = [0x0D, 0xF0, 0xFE, 0xCA, 0xEF, 0xCD, 0xAB, 0x89] := by decide
theorem test_stw_misaligned :
    endOf (after 0x0041813A 0x00100000 1) = some (.faulted (.storeMisaligned 0x00100002), 0x40, 0) := by decide

/-! ## Special (section 3.8) -/

theorem test_lui : r5 (after 0x123452A0 0 0) = some 0x12345000 := by decide
theorem test_assert_eq_passes : pcOf (after 0x0041803F 1 1) = some 0x44 := by decide
theorem test_assert_eq_traps : endOf (after 0x0041803F 1 2) = some (.faulted (.assertFailed 0x40), 0x40, 0) := by decide
theorem test_nop : pcOf (after 0xFFFFFFD0 0 0) = some 0x44 := by decide
theorem test_yield : ioOf (after 0x00000051 0 0) = some [.yield] := by decide
/-- A host's reply, of the shape HOST_ON_YIELD gives: a result in r1, a Data byte, an event of its own; r0 and Code memory stay
(R213, R22, R59). -/
theorem test_host_reply :
    let t := (small 0x40 1 2).applyReply ⟨[(1, 7), (0, 9)], [(0x00100000, 0x55), (0x40, 0x66)], [.debugChar 0x21]⟩
    t.reg 1 = 7 ∧ t.reg 0 = 0 ∧ t.reg 3 = 1 ∧ Memory.read t.mem 0x00100000 = some 0x55 ∧ Memory.read t.mem 0x40 = none ∧
    t.io = [.debugChar 0x21] ∧ t.pc = 0x40 := by decide
theorem test_debug : ioOf (after 0x00018052 0xFFFFFF0A 0) = some [.debugChar 0x0A] := by decide
theorem test_halt : endOf (after 0x0000007F 0 0) = some (.halted, 0x40, 0) := by decide
theorem test_unlisted_opcode :
    endOf (after 0xFFFFFFD3 0 0) = some (.faulted (.illegalInstruction 0x40 0xFFFFFFD3), 0x40, 0) := by decide

/-! ## The step and reset -/

/-- From reset with nothing loaded the fetch faults (R225, R253 (a)). -/
theorem test_reset_fetch :
    endOf (step State.reset) = some (.faulted (.fetchAccessFault 0), 0, 0) := by decide

/-- The first instruction after reset: `li sp` first half (R253 (b)). -/
theorem test_reset_first_instruction :
    regOf 29 (step (State.reset.withFetchWord 32 0x0FFFFEA0)) = some 0x0FFFF000 := by decide

/-! ## The assembler layer and timing -/

/-- The words of section 1. -/
theorem test_pseudo_words :
    (Pseudo.li 3 10).expand.map encode = [0x00A00190] ∧
    (Pseudo.li 3 2048).expand.map encode = [0x000001A0, 0x80018191] ∧
    (Pseudo.li 29 0x0FFFFFF0).expand.map encode = [0x0FFFFEA0, 0xFF0E8E91] ∧
    (Pseudo.la 11 0x00100000).expand.map encode = [0x001005A0, 0x00058591] ∧
    (Pseudo.mv 5 3).expand.map encode = [0x00018280] ∧ (Pseudo.not 5 3).expand.map encode = [0xFFF1829E] ∧
    (Pseudo.neg 5 3).expand.map encode = [0x00300281] ∧ (Pseudo.seqz 5 3).expand.map encode = [0x0001828E] := by decide

theorem test_pseudo_words_of_control_flow :
    (Pseudo.snez 5 3).expand.map encode = [0x0001828F] ∧ (Pseudo.j 16).expand.map encode = [0x01000040] ∧
    (Pseudo.jal 16).expand.map encode = [0x01000FC0] ∧ Pseudo.ret.expand.map encode = [0x000F8041] ∧
    (Pseudo.call 16).expand.map encode = [0x01000FC0] ∧ Pseudo.nop.expand.map encode = [0x00000000] ∧
    (Pseudo.bgt 3 4 16).expand.map encode = [0x0032084A] ∧ (Pseudo.ble 3 4 16).expand.map encode = [0x0032084B] ∧
    (Pseudo.bgtu 3 4 16).expand.map encode = [0x0032084C] ∧
    (Pseudo.bleu 3 4 16).expand.map encode = [0x0032084D] := by decide

/-- R94's ranges at their ends. -/
theorem test_operand_ranges :
    signedOperand (-2048) = some 0x800 ∧ signedOperand 2048 = none ∧ unsignedOperand (-1) = none ∧
    unsignedOperand 4095 = some 0xFFF ∧ logicalOperand (-1) = some 0xFFF ∧ shiftOperand 32 = none ∧
    upperOperand 0xFFFFF = some 0xFFFFF ∧ branchOperand 4094 = some 4094 ∧ branchOperand 4095 = none ∧
    jumpOperand (-1048576) = some 0x100000 ∧ jumpOperand 1048576 = none := by decide

/-- R46's word, R112's little-endian pair, and P8's string. -/
theorem test_directives :
    (Directive.word [0x00A00190]).bytes = [0x90, 0x01, 0xA0, 0x00] ∧
    (Directive.quad [0x0102030405060708]).bytes = [0x08, 0x07, 0x06, 0x05, 0x04, 0x03, 0x02, 0x01] ∧
    dataImageAt 0x00100000 [.asciz [0x48, 0x69, 0x0A]] =
      [(0x00100000, 0x48), (0x00100001, 0x69), (0x00100002, 0x0A), (0x00100003, 0x00)] ∧
    alignUp 5 = 8 ∧ alignUp 8 3 = 8 := by decide

/-- The operand order of R91, and R93's example. -/
theorem test_operands :
    operands (.stw 3 4 0xFF8) = [.address 3 (-8), .reg 4] ∧ operands (.ldw 5 3 4) = [.reg 5, .address 3 4] ∧
    (ConstExpr.add (.mul (.lit 10) (.lit 4)) (.lit 5)).value = 45 := by decide

/-- P4's total (R260): 9 Standard, one DIV, one REM. -/
theorem test_cycles :
    cyclesOf [.addi 3 0 72, .debug 3, .addi 3 0 105, .debug 3, .yield, .addi 4 0 0xFF9, .addi 5 0 2, .div 6 4 5,
      .rem 7 4 5, .addi 8 0 0xFFD, .assertEq 6 8] = 137 := by decide

/-! ## Witnesses: for each statement of Obligations.lean that has hypotheses, a concrete case that meets them all -/

/-- r3 and r4 are readable in every small state, and unreadable ones exist under fault-on-read. -/
def strict (x3 x4 : Word) : State := tuned (fun c => { c with unwrittenReg := .faultOnRead }) x3 x4

/-- A small state that can fetch the word given at its pc. -/
def loaded (w : Nat) : State := (small 0x40 0x00100000 7).withFetchWord 32 w

/-- A small state whose pc is the one given. -/
def movedTo (pc : Word) : State := { loaded 0x50 with pc := pc }

theorem witness_DecodeOfEncodeIsIdentity : (Instr.beq 2 3 0x1FFE).wf = true ∧ (Instr.jal 1 0x100000).wf = true := by decide

theorem witness_DecoderIsTotalAndClosed :
    bitsAt 0x0000001F 0 7 ∈ unlistedOpcodes ∧ bitsAt 0xFFFFFFFE 0 7 ∈ unlistedOpcodes ∧
    bitsAt 0x0000001E 0 7 ∉ unlistedOpcodes ∧ bitsAt 0x00000020 0 7 ∉ unlistedOpcodes ∧
    bitsAt 0xFFFFFFFF 0 7 ∉ unlistedOpcodes := by decide

/-- The opcodes of the statements about words are those of words. -/
theorem witness_encodings :
    bitsAt 0x00310080 0 7 = 0x00 ∧ bitsAt 0xFFD10090 0 7 = 0x10 ∧ bitsAt 0xFE310EB8 0 7 = 0x38 ∧
    bitsAt 0xFE310DC8 0 7 = 0x48 ∧ bitsAt 0xABCDE0A0 0 7 = 0x20 ∧ bitsAt 0xFFBFF0C0 0 7 = 0x40 ∧
    bitsAt 0xFFFFFFBF 0 7 = 0x3F ∧ bitsAt 0xFFFFFFD0 0 7 = 0x50 ∧ bitsAt 0xFFFFFFD1 0 7 = 0x51 ∧
    bitsAt 0xFFFFFFD2 0 7 = 0x52 ∧ bitsAt 0xFFFFFFFF 0 7 = 0x7F := by decide

/-- For each opcode of the statement a word with every funct bit set. -/
theorem witness_UnusedBitsAreIgnored :
    ∀ op ∈ [0x00, 0x01, 0x02, 0x03, 0x04, 0x08, 0x09, 0x0A, 0x0E, 0x0F, 0x10, 0x18, 0x19, 0x1A, 0x1B, 0x1C, 0x1D],
      bitsAt (BitVec.ofNat 32 (0xFE007000 + op)) 0 7 = op := by decide

theorem witness_StepRunsTheDecodedInstruction :
    (loaded 0x00310080).status = .running ∧ Fetches (loaded 0x00310080) 0x00310080 ∧
    decodeWord 0x00310080 = .ok (.add 1 2 3) ∧
    (loaded 0x1F).status = .running ∧ Fetches (loaded 0x1F) 0x1F ∧ bitsAt 0x1F 0 7 ∈ unlistedOpcodes := by
  unfold Fetches; decide

theorem witness_BadPcFaultsAtFetch :
    (movedTo 0x41).status = .running ∧ (movedTo 0x41).pc.toNat % 4 ≠ 0 ∧
    (movedTo 0x00100000).pc.toNat % 4 = 0 ∧ 0x000FFFFF < (movedTo 0x00100000).pc.toNat ∧
    (movedTo 0x000FFFFC).pc.toNat % 4 = 0 ∧ Memory.read (movedTo 0x000FFFFC).mem ((movedTo 0x000FFFFC).pc.toNat + 0) = none ∧
    (movedTo 0x3C).pc.toNat % 4 = 0 ∧ Memory.read (movedTo 0x3C).mem ((movedTo 0x3C).pc.toNat + 3) = none := by decide

theorem witness_TerminalStatesHaveNoStep :
    (State.reset.halt).status = .halted ∧
    ({ State.reset with status := .faulted (.divideByZero 0) } : State).status = .faulted (.divideByZero 0) := by decide

theorem witness_FaultsChangeOnlyTheStatus :
    ∃ t, step (loaded 0x1F) = .next t ∧ t.status = .faulted (.illegalInstruction 0x40 0x1F) := ⟨_, rfl, rfl⟩

theorem witness_OnlyHaltHalts : ∃ t, step (loaded 0x7F) = .next t ∧ t.status = .halted := ⟨_, rfl, rfl⟩

/-- An instruction that goes on, a taken branch, JAL and JALR. -/
theorem witness_PcAdvancesOrTransfers :
    (loaded 0x50).status = .running ∧
    (∃ t, exec .nop (loaded 0x50) = .next t ∧ t.status = .running ∧ t.pc = 0x44) ∧
    (∃ t, exec (.beq 0 0 16) (loaded 0x50) = .next t ∧ t.status = .running ∧ t.pc = 0x50) ∧
    (∃ t, exec (.jal 1 16) (loaded 0x50) = .next t ∧ t.status = .running ∧ t.pc = 0x50) ∧
    (∃ t, exec (.jalr 1 3 16) (loaded 0x50) = .next t ∧ t.status = .running ∧ t.pc = 0x00100010) :=
  ⟨rfl, ⟨_, rfl, rfl, rfl⟩, ⟨_, rfl, rfl, rfl⟩, ⟨_, rfl, rfl, rfl⟩, ⟨_, rfl, rfl, rfl⟩⟩

/-- Also a case of the statements about every step: CodeMemoryIsConstant and LaunchParametersNeverChange. -/
theorem witness_StepKeepsTheInvariant :
    (loaded 0x0041823A).Inv ∧ ∃ t, step (loaded 0x0041823A) = .next t ∧ t.status = .running :=
  ⟨⟨by decide, by decide, by decide, by decide⟩, _, rfl, rfl⟩

theorem witness_MemoryFormIsCanonical :
    Memory.wf [(0, 0x7F), (0x00100000, 1)] ∧ Memory.wf (Memory.write [(0x00100000, 1)] 0 0x7F) ∧
    Memory.write [(0x00100000, 1)] 0 0x7F = [(0, 0x7F), (0x00100000, 1)] := by decide

/-- DEBUG and YIELD with no device. -/
theorem witness_TraceIsAppendOnly :
    (loaded 0x00018052).cfg.mmio = .absent ∧
    (∃ t, step (loaded 0x00018052) = .next t ∧ t.io = [.debugChar 0]) ∧
    (∃ t, step (loaded 0x51) = .next t ∧ t.io = [.yield]) := ⟨rfl, ⟨_, rfl, rfl⟩, ⟨_, rfl, rfl⟩⟩

theorem witness_OnlyTheNamedRegisterChanges :
    (∃ t, exec (.addi 5 3 1) (loaded 0x50) = .next t) ∧ (Instr.addi 5 3 1).dest ≠ some 4 ∧
    (∃ t, exec .yield (loaded 0x50) = .next t) ∧ (loaded 0x50).cfg.hostOnYield = .identity := by
  refine ⟨⟨_, rfl⟩, by decide, ⟨_, rfl⟩, rfl⟩

theorem witness_UnreadableRegisterFaults :
    6 ∈ (Instr.add 5 6 3).sources ∧ (strict 0 0).regReadable 6 = false ∧
    7 ∈ (Instr.stw 3 7 0).sources ∧ (strict 0 0).regReadable 7 = false := by decide

/-- A launch with a program, data and two registers, sp given, under fault-on-read. -/
def launched : Launch :=
  { Launch.default with
    regs := [(5, 7), (31, 0x40)],
    codeImage := [(0, 0x000182B0), (0x000FFFFC, 0x0000007F)],
    dataImage := [(0x00100000, 0x48), (0x0FFFFFFF, 0x69)],
    cfg := Config.specDefault }

/-- The last word of CodeImage and the last byte of DataImage are in their domains. -/
theorem witness_LaunchState :
    launched.codeImage.Pairwise (fun p q => p.1 ≠ q.1) ∧ launched.dataImage.Pairwise (fun p q => p.1 ≠ q.1) ∧
    launched.regs.Pairwise (fun p q => p.1 ≠ q.1) ∧
    (0x000FFFFC, 0x0000007F) ∈ launched.codeImage ∧ (0x000FFFFC : Word).toNat % 4 = 0 ∧
    (0x000FFFFC : Word).toNat ≤ 0x000FFFFF ∧
    (0x0FFFFFFF, 0x69) ∈ launched.dataImage ∧ 0x00100000 ≤ (0x0FFFFFFF : Word).toNat ∧
    (0x0FFFFFFF : Word).toNat < 0x10000000 := by decide

/-- The address below that word, and the one above the first Data byte, are in neither image. -/
theorem witness_LaunchState_outside :
    (∀ a ∈ [0x000FFFFB, 0x00100001], ∀ p ∈ launched.codeImage,
      p.1.toNat % 4 = 0 → p.1.toNat ≤ 0x000FFFFF → ¬(p.1.toNat ≤ a ∧ a < p.1.toNat + 4)) ∧
    (∀ a ∈ [0x000FFFFB, 0x00100001], ∀ p ∈ launched.dataImage,
      0x00100000 ≤ p.1.toNat → p.1.toNat < 0x10000000 → p.1.toNat ≠ a) := by
  constructor <;> intro a ha p hp <;> simp [launched] at ha hp <;> rcases ha with rfl | rfl <;> rcases hp with rfl | rfl <;>
    decide

/-- r31 is defined, r29 is not defined otherwise, and nothing defines r6. -/
theorem witness_LaunchState_registers :
    (31, 0x40) ∈ launched.regs ∧ (31 : Reg) ≠ 0 ∧ launched.spAtReset = some 0x0FFFFFF0 ∧
    (∀ p ∈ launched.regs, p.1 ≠ 29) ∧ (6 : Reg) ≠ 0 ∧ (∀ p ∈ launched.regs, p.1 ≠ 6) ∧
    launched.cfg.unwrittenReg = .faultOnRead :=
  ⟨by decide, by decide, rfl, by simp [launched], by decide, by simp [launched], rfl⟩

/-- The same launch with no value for sp, under any-value. -/
def launchedWithoutSp : Launch := { launched with spAtReset := none, cfg := Config.atReset }

/-- Nothing defines r29 there. -/
theorem witness_LaunchState_no_sp :
    launchedWithoutSp.regs.Pairwise (fun p q => p.1 ≠ q.1) ∧ (29 : Reg) ≠ 0 ∧
    (∀ p ∈ launchedWithoutSp.regs, p.1 ≠ 29) ∧ launchedWithoutSp.spAtReset = none ∧
    launchedWithoutSp.cfg.unwrittenReg = .anyValue :=
  ⟨by decide, by decide, by simp [launchedWithoutSp, launched], rfl, rfl⟩

/-- A launch under any-value leaves the free value of its number in a register nothing defines, r29 among them where no
SP_AT_RESET is given (R34, R252). -/
theorem test_launch_undefined_registers :
    (State.launch { Launch.default with spAtReset := none }).reg 6 = Config.unspecifiedReg 6 ∧
    (State.launch { Launch.default with spAtReset := none }).reg 29 = Config.unspecifiedReg 29 ∧
    (State.launch { Launch.default with spAtReset := none }).reg 0 = 0 := ⟨rfl, rfl, rfl⟩

/-- A launch loads its images and defines its registers, and an address outside the images holds nothing (R33, R62). -/
theorem test_launch_loads :
    (State.launch launched).reg 31 = 0x40 ∧ (State.launch launched).reg 29 = 0x0FFFFFF0 ∧
    (State.launch launched).codeWord 0x000FFFFC = some 0x0000007F ∧
    Memory.read (State.launch launched).mem 0x0FFFFFFF = some 0x69 ∧
    Memory.read (State.launch launched).mem 0x00100001 = none := by decide

/-- Registers that can be read: under any-value, and under fault-on-read when they were written. It serves every statement
whose hypothesis is that the source registers can be read: AddSubMul, Addi, MulhIsTheHighHalf, XorOrAnd,
OriZeroExtendsXoriSignExtends, SltSltuSeqSne, SgtSleSgeSignedAndUnsigned, SltiSltiu, Branches, JalrUsesTheOldBase,
DebugOutputsTheLowByte, OneOperandPseudos, BranchPseudosAndNop. -/
theorem witness_CanRead :
    (small 0x40 1 2).CanRead [3, 4] ∧ (strict 1 2).CanRead [3, 4] ∧ (strict 1 2).CanRead [0] ∧
    (small 0x40 1 2).CanRead [3] ∧ (small 0x40 1 2).CanRead [4] := by unfold State.CanRead; decide

theorem witness_MulhIsTheHighHalf :
    (small 0x40 1 2).cfg.mulhSignedness = .unsignedUnsigned ∧
    (tuned (fun c => { c with mulhSignedness := .signedSigned }) 1 2).cfg.mulhSignedness = .signedSigned := by decide

theorem witness_DivRemTruncate :
    (small 0x40 0x80000000 2).CanRead [3, 4] ∧ (small 0x40 0x80000000 2).reg 4 ≠ 0 ∧
    ¬((small 0x40 0x80000000 2).reg 3 = 0x80000000 ∧ (small 0x40 0x80000000 2).reg 4 = 0xFFFFFFFF) := by
  unfold State.CanRead; decide

/-- Both corners, under both values of DIV_CORNER. -/
theorem witness_DivRemCorners :
    (small 0x40 7 0).CanRead [3, 4] ∧ (small 0x40 7 0).reg 4 = 0 ∧ (small 0x40 7 0).cfg.divCorner = .fault ∧
    (small 0x40 0x80000000 0xFFFFFFFF).reg 3 = 0x80000000 ∧ (small 0x40 0x80000000 0xFFFFFFFF).reg 4 = 0xFFFFFFFF ∧
    (tuned (fun c => { c with divCorner := .riscvValues }) 7 0).CanRead [3, 4] ∧
    (tuned (fun c => { c with divCorner := .riscvValues }) 7 0).cfg.divCorner = .riscvValues := by
  unfold State.CanRead; decide

/-- Each value of ANDI_IMM_EXT, and immediates on either side of bit 11. -/
theorem witness_AndiByItsParameter :
    (0x7FF : BitVec 12).getLsbD 11 = false ∧ (0x800 : BitVec 12).getLsbD 11 = true ∧
    (small 0x40 1 2).cfg.andiImmExt = .free ∧
    (tuned (fun c => { c with andiImmExt := .zero }) 1 2).cfg.andiImmExt = .zero ∧
    (tuned (fun c => { c with andiImmExt := .sign }) 1 2).cfg.andiImmExt = .sign ∧
    (tuned (fun c => { c with andiImmExt := .notGiven }) 1 2).cfg.andiImmExt = .notGiven ∧
    (tuned (fun c => { c with andiImmExt := .notGiven }) 1 2).CanRead [3] := by unfold State.CanRead; decide

/-- It serves RegisterShifts and ImmediateShifts. -/
theorem witness_RegisterShifts :
    (small 0x40 1 0x21).CanRead [3, 4] ∧ (small 0x40 1 0x21).CanRead [3] ∧ (small 0x40 1 0x21).cfg.shamtRule = .mask5 := by
  unfold State.CanRead; decide

/-- The state of the other SHAMT_RULE. -/
def guarded (x3 x4 : Word) : State := tuned (fun c => { c with shamtRule := .faultIfOver31 }) x3 x4

theorem witness_ShiftAmountRule :
    (guarded 1 32).cfg.shamtRule = .faultIfOver31 ∧ (guarded 1 32).CanRead [3, 4] ∧ 32 ≤ ((guarded 1 32).reg 4).toNat ∧
    ((guarded 1 31).reg 4).toNat < 32 ∧ 32 ≤ (0x020 : BitVec 12).toNat ∧ (0x01F : BitVec 12).toNat < 32 := by
  unfold State.CanRead; decide

theorem witness_SltiSltiu :
    (small 0x40 1 2).cfg.sltiuImmExt = .sign ∧
    (tuned (fun c => { c with sltiuImmExt := .zero }) 1 2).cfg.sltiuImmExt = .zero := by decide

/-- Targets of a JALR, a JAL and a taken branch that are misaligned, that lie just above the Code region, and that are words
of Code nothing has loaded: 0x3C just below the loaded one, and the last word of Code. -/
theorem witness_JumpCompletesThenFetchFaults :
    (loaded 0x50).CanRead [3, 4] ∧ (loaded 0x50).status = .running ∧
    ((small 0x40 0x201 0).reg 3 + (0 : BitVec 12).signExtend 32).toNat % 4 ≠ 0 ∧
    ((small 0x40 0x000FFFFC 0).reg 3 + (4 : BitVec 12).signExtend 32).toNat % 4 = 0 ∧
    0x000FFFFF < ((small 0x40 0x000FFFFC 0).reg 3 + (4 : BitVec 12).signExtend 32).toNat ∧
    ((loaded 0x50).pc + (2 : BitVec 21).signExtend 32).toNat % 4 ≠ 0 ∧
    ((loaded 0x50).pc + (0x000FFFBC : BitVec 21).signExtend 32).toNat = 0x000FFFFC ∧
    Memory.read (loaded 0x50).mem (0x000FFFFC + 0) = none ∧
    ((loaded 0x50).pc + (0x1FFFBC : BitVec 21).signExtend 32).toNat = 0xFFFFFFFC ∧
    ((loaded 0x50).pc + (0x1FFE : BitVec 13).signExtend 32).toNat % 4 ≠ 0 ∧
    ((loaded 0x50).pc + (0x1FFC : BitVec 13).signExtend 32).toNat = 0x3C ∧
    Memory.read (loaded 0x50).mem (0x3C + 3) = none := by
  unfold State.CanRead; decide

/-- The branch rows: a pair of registers that takes each of the six. -/
theorem witness_JumpCompletesThenFetchFaults_taken :
    decide ((small 0x40 1 1).reg 3 = (small 0x40 1 1).reg 4) = true ∧
    decide ((small 0x40 1 2).reg 3 ≠ (small 0x40 1 2).reg 4) = true ∧
    decide (((small 0x40 0x80000000 0).reg 3).toInt < ((small 0x40 0x80000000 0).reg 4).toInt) = true ∧
    decide (((small 0x40 1 1).reg 3).toInt ≥ ((small 0x40 1 1).reg 4).toInt) = true ∧
    decide (((small 0x40 1 2).reg 3).toNat < ((small 0x40 1 2).reg 4).toNat) = true ∧
    decide (((small 0x40 0x80000000 0).reg 3).toNat ≥ ((small 0x40 0x80000000 0).reg 4).toNat) = true := by decide

theorem witness_CallThenReturn :
    ∃ t, execAll (Pseudo.call 16).expand (small 0x40 0 0) = .next t ∧ t.reg 31 = 0x44 ∧ t.regReadable 31 = true :=
  ⟨_, rfl, rfl, rfl⟩

/-- The bytes at an address in the small state. -/
def listed (n : Nat) : Byte := [0x80, 0x7F, 0xFF, 0x01, 0xEF, 0xCD, 0xAB, 0x89].getD n 0

/-- Loads at the first Data byte. -/
theorem witness_LoadsReadDataMemory :
    (small 0x40 0x00100000 0).CanRead [3] ∧
    DataAccess (small 0x40 0x00100000 0) ((small 0x40 0x00100000 0).reg 3 + (0 : BitVec 12).signExtend 32) 1 ∧
    DataAccess (small 0x40 0x00100000 0) ((small 0x40 0x00100000 0).reg 3 + (0 : BitVec 12).signExtend 32) 2 ∧
    DataAccess (small 0x40 0x00100000 0) ((small 0x40 0x00100000 0).reg 3 + (0 : BitVec 12).signExtend 32) 4 ∧
    Holds (small 0x40 0x00100000 0) ((small 0x40 0x00100000 0).reg 3 + (0 : BitVec 12).signExtend 32) 1 listed ∧
    Holds (small 0x40 0x00100000 0) ((small 0x40 0x00100000 0).reg 3 + (0 : BitVec 12).signExtend 32) 2 listed ∧
    Holds (small 0x40 0x00100000 0) ((small 0x40 0x00100000 0).reg 3 + (0 : BitVec 12).signExtend 32) 4 listed := by
  unfold State.CanRead DataAccess Holds; decide

/-- Misaligned accesses made byte by byte, under DATA_BYTE_ORDER = big: the last misaligned word of Data, and listed bytes. -/
theorem witness_LoadsAndStores_misaligned :
    let s := tuned (fun c => { c with misalignedData := .bytewise, dataByteOrder := .big }) 0x00100001 7
    s.CanRead [3, 4] ∧ DataAccess s 0x00100001 4 ∧ DataAccess s 0x0FFFFFFB 4 ∧ s.orderAt 0x00100001 4 = .little ∧
    s.orderAt 0x00100004 4 = .big ∧ Holds s 0x00100001 4 (fun k => listed (k + 1)) := by
  unfold State.CanRead DataAccess Holds; decide

/-- Stores at the last Data byte, halfword and word. -/
theorem witness_StoresWriteDataMemory :
    (small 0x40 0x0FFFFFFF 7).CanRead [3, 4] ∧
    DataAccess (small 0x40 0x0FFFFFFF 7) (effectiveAddress ((small 0x40 0x0FFFFFFF 7).reg 3) 0) 1 ∧
    DataAccess (small 0x40 0x0FFFFFFF 7) (effectiveAddress ((small 0x40 0x0FFFFFFF 7).reg 3) 0xFFF) 2 ∧
    DataAccess (small 0x40 0x0FFFFFFF 7) (effectiveAddress ((small 0x40 0x0FFFFFFF 7).reg 3) 0xFFD) 4 := by
  unfold State.CanRead DataAccess; decide

/-- Bytes nothing has written, under each parameter. -/
theorem witness_UnwrittenDataBytes :
    (small 0x40 0x00100008 0).CanRead [3] ∧ (small 0x40 0x00100008 0).cfg.unwrittenReg = .anyValue ∧
    DataAccess (small 0x40 0x00100008 0) ((small 0x40 0x00100008 0).reg 3 + (0 : BitVec 12).signExtend 32) 1 ∧
    DataAccess (small 0x40 0x00100006 0) ((small 0x40 0x00100006 0).reg 3 + (0 : BitVec 12).signExtend 32) 2 ∧
    DataAccess (small 0x40 0x00100008 0) ((small 0x40 0x00100008 0).reg 3 + (0 : BitVec 12).signExtend 32) 4 ∧
    (strict 0x00100008 0).CanRead [3] ∧ (strict 0x00100008 0).cfg.unwrittenReg = .faultOnRead ∧
    (Instr.ldw 5 3 0, 4) ∈ [(Instr.ldb 5 3 0, 1), (.ldbu 5 3 0, 1), (.ldh 5 3 0, 2), (.ldhu 5 3 0, 2), (.ldw 5 3 0, 4)] ∧
    DataAccess (strict 0x00100008 0) ((strict 0x00100008 0).reg 3 + (0 : BitVec 12).signExtend 32) 4 ∧
    Memory.read (strict 0x00100008 0).mem (((strict 0x00100008 0).reg 3 + (0 : BitVec 12).signExtend 32).toNat + 0) = none := by
  unfold State.CanRead DataAccess; decide

/-- A small state that makes misaligned accesses byte by byte, under fault-on-read. -/
def halfWritten : State :=
  tuned (fun c => { c with misalignedData := .bytewise, unwrittenReg := .faultOnRead }) 0x00100005 7

theorem witness_UnwrittenDataBytes_last :
    halfWritten.CanRead [3] ∧ DataAccess halfWritten (halfWritten.reg 3 + (0 : BitVec 12).signExtend 32) 4 ∧
    (∀ j, j < 3 → Memory.read halfWritten.mem ((halfWritten.reg 3 + (0 : BitVec 12).signExtend 32).toNat + j) ≠ none) ∧
    Memory.read halfWritten.mem ((halfWritten.reg 3 + (0 : BitVec 12).signExtend 32).toNat + 3) = none := by
  unfold State.CanRead DataAccess; decide

/-- The address a load or store of offset 0 computes from r3. -/
def based (x3 : Word) : Word := (small 0x40 x3 7).reg 3 + (0 : BitVec 12).signExtend 32

/-- The clauses of LoadChecksInOrder and StoreChecksInOrder at the ends of their ranges: a misaligned address; the last word of
Code; the first of MMIO; the first above a lowered DATA_LIMIT. -/
theorem witness_LoadChecksInOrder :
    (small 0x40 0x00100001 7).CanRead [3, 4] ∧ (small 0x40 0x00100001 7).CanRead [3] ∧
    (small 0x40 0x00100001 7).cfg.misalignedData = .fault ∧ (small 0x40 0x00100001 7).cfg.mmio = .absent ∧
    (Instr.ldw 5 3 0, 4) ∈ [(Instr.ldb 5 3 0, 1), (.ldbu 5 3 0, 1), (.ldh 5 3 0, 2), (.ldhu 5 3 0, 2), (.ldw 5 3 0, 4)] ∧
    (based 0x00100001).toNat % 4 ≠ 0 ∧ (based 0x000FFFFC).toNat % 4 = 0 ∧ (based 0x000FFFFC).toNat ≤ 0x000FFFFF ∧
    (based 0x10000000).toNat % 4 = 0 ∧ 0x10000000 ≤ (based 0x10000000).toNat := by
  unfold State.CanRead; decide

/-- A small state with DATA_LIMIT lowered to 0x001000FF. -/
def limited (x3 x4 : Word) : State := tuned (fun c => { c with dataLimit := 0x001000FF }) x3 x4

theorem witness_LoadChecksInOrder_limit :
    (limited 0x00100100 7).CanRead [3, 4] ∧ (limited 0x00100100 7).cfg.misalignedData = .fault ∧
    (based 0x00100100).toNat % 4 = 0 ∧ 0x000FFFFF < (based 0x00100100).toNat ∧ (based 0x00100100).toNat < 0x10000000 ∧
    (limited 0x00100100 7).cfg.dataLimit.toNat < (based 0x00100100).toNat + 4 - 1 := by
  unfold State.CanRead; decide

theorem witness_StoreChecksInOrder :
    (Instr.sth 3 4 0, 2) ∈ [(Instr.stb 3 4 0, 1), (.sth 3 4 0, 2), (.stw 3 4 0, 4)] ∧
    (based 0x00100001).toNat % 2 ≠ 0 ∧ (based 0x000FFFFE).toNat % 2 = 0 ∧ (based 0x000FFFFE).toNat ≤ 0x000FFFFF := by
  decide

/-- A small state that makes misaligned accesses byte by byte. -/
def bytewise (x3 x4 : Word) : State := tuned (fun c => { c with misalignedData := .bytewise }) x3 x4

/-- A word that begins in Code fails at byte 0; one that ends in MMIO fails at its last byte. -/
theorem witness_BytewiseFirstFailingByteDecides :
    (Instr.ldw 5 3 0, Instr.stw 3 4 0, 4) ∈ [(Instr.ldb 5 3 0, Instr.stb 3 4 0, 1), (.ldbu 5 3 0, .stb 3 4 0, 1),
      (.ldh 5 3 0, .sth 3 4 0, 2), (.ldhu 5 3 0, .sth 3 4 0, 2), (.ldw 5 3 0, .stw 3 4 0, 4)] ∧
    (bytewise 0x000FFFFF 7).CanRead [3, 4] ∧ (bytewise 0x000FFFFF 7).cfg.misalignedData = .bytewise ∧
    (bytewise 0x000FFFFF 7).cfg.mmio = .absent ∧ (based 0x000FFFFF + BitVec.ofNat 32 0).toNat ≤ 0x000FFFFF ∧
    (∀ j, j < 3 → 0x00100000 ≤ (based 0x0FFFFFFD + BitVec.ofNat 32 j).toNat ∧
      (based 0x0FFFFFFD + BitVec.ofNat 32 j).toNat < 0x10000000 ∧
      (based 0x0FFFFFFD + BitVec.ofNat 32 j).toNat ≤ (bytewise 0x0FFFFFFD 7).cfg.dataLimit.toNat) ∧
    0x10000000 ≤ (based 0x0FFFFFFD + BitVec.ofNat 32 3).toNat := by
  unfold State.CanRead; decide

/-- A small state that does so, with an MMIO device. -/
def bytewiseEquipped (x3 x4 : Word) : State :=
  tuned (fun c => { c with misalignedData := .bytewise, mmio := .device }) x3 x4

/-- A word at the top of the address space with a device: its first three bytes are the device's, and its last is the first
byte of Code. -/
theorem witness_BytewiseFirstFailingByteDecides_device :
    (bytewiseEquipped 0xFFFFFFFD 7).CanRead [3, 4] ∧ (bytewiseEquipped 0xFFFFFFFD 7).cfg.misalignedData = .bytewise ∧
    (bytewiseEquipped 0xFFFFFFFD 7).cfg.mmio = .device ∧
    (∀ j, j < 3 → 0x10000000 ≤ (based 0xFFFFFFFD + BitVec.ofNat 32 j).toNat) ∧
    (based 0xFFFFFFFD + BitVec.ofNat 32 3).toNat = 0 := by
  unfold State.CanRead; decide

/-- A small state that does so with DATA_LIMIT lowered to 0x001000FF. -/
def narrow (x3 x4 : Word) : State := tuned (fun c => { c with misalignedData := .bytewise, dataLimit := 0x001000FF }) x3 x4

theorem witness_BytewiseFirstFailingByteDecides_limit :
    (narrow 0x001000FF 7).CanRead [3, 4] ∧ (narrow 0x001000FF 7).cfg.misalignedData = .bytewise ∧
    (narrow 0x001000FF 7).cfg.mmio = .absent ∧
    (∀ j, j < 1 → 0x00100000 ≤ (based 0x001000FF + BitVec.ofNat 32 j).toNat ∧
      (based 0x001000FF + BitVec.ofNat 32 j).toNat < 0x10000000 ∧
      (based 0x001000FF + BitVec.ofNat 32 j).toNat ≤ (narrow 0x001000FF 7).cfg.dataLimit.toNat) ∧
    0x000FFFFF < (based 0x001000FF + BitVec.ofNat 32 1).toNat ∧
    (based 0x001000FF + BitVec.ofNat 32 1).toNat < 0x10000000 ∧
    (narrow 0x001000FF 7).cfg.dataLimit.toNat < (based 0x001000FF + BitVec.ofNat 32 1).toNat := by
  unfold State.CanRead; decide

/-- A store of a word, and a state with its memory whose r3 points at the word or at one of its bytes. -/
theorem witness_MixedWidthAccess :
    ∃ t, exec (.stw 3 4 0) (small 0x40 0x00100000 7) = .next t ∧ (small 0x40 0x00100000 7).CanRead [3, 4] ∧
      DataAccess (small 0x40 0x00100000 7) (based 0x00100000) 4 ∧
      (small 0x40 0x00100000 7).cfg.dataByteOrder = .little ∧ t.cfg = (small 0x40 0x00100000 7).cfg ∧
      t.CanRead [3] ∧ t.reg 3 = based 0x00100000 ∧ (t.writeReg 3 0x00100003).mem = t.mem ∧
      (t.writeReg 3 0x00100003).CanRead [3] ∧
      (t.writeReg 3 0x00100003).reg 3 = based 0x00100000 + BitVec.ofNat 32 3 :=
  ⟨_, rfl, by unfold State.CanRead; decide, by unfold DataAccess; decide, rfl, rfl, by unfold State.CanRead; decide, rfl, rfl,
    by unfold State.CanRead; decide, rfl⟩

/-- The last word of Data, aligned, and under bytewise a misaligned one; the source registers are all readable. -/
theorem witness_NarrowStoresThenWiderLoad :
    (small 0x40 0x0FFFFFFC 7).CanRead [3, 4, 5, 6, 7] ∧ (small 0x40 0x0FFFFFFC 7).cfg.dataByteOrder = .little ∧
    DataAccess (small 0x40 0x0FFFFFFC 7) ((small 0x40 0x0FFFFFFC 7).reg 3) 4 ∧
    (bytewise 0x00100001 7).CanRead [3, 4, 5, 6, 7] ∧ (bytewise 0x00100001 7).cfg.dataByteOrder = .little ∧
    DataAccess (bytewise 0x00100001 7) ((bytewise 0x00100001 7).reg 3) 4 := by
  unfold State.CanRead DataAccess; decide

/-- A small state with an MMIO device. -/
def equipped (x3 x4 : Word) : State := tuned (fun c => { c with mmio := .device }) x3 x4

/-- The first word of the region and the last halfword, under each value of MISALIGNED_DATA. -/
theorem witness_DeviceSeesTheAccess :
    (equipped 0x10000000 7).CanRead [3, 4] ∧ (equipped 0x10000000 7).cfg.mmio = .device ∧
    (equipped 0x10000000 7).cfg.misalignedData = .fault ∧ (bytewiseEquipped 0x10000000 7).CanRead [3, 4] ∧
    (bytewiseEquipped 0x10000000 7).cfg.mmio = .device ∧ 0x10000000 ≤ (based 0x10000000).toNat ∧
    (based 0x10000000).toNat % Width.word.bytes = 0 ∧ (based 0xFFFFFFFE).toNat % Width.half.bytes = 0 := by
  unfold State.CanRead; decide

/-- Each row of the lists of DeviceSeesTheAccess is one of an instruction. -/
theorem witness_DeviceSeesTheAccess_rows :
    (Instr.ldw 5 3 0, Width.word, fun v : Word => v) ∈
      [(Instr.ldb 5 3 0, Width.byte, fun v : Word => (v.setWidth 8).signExtend 32), (.ldw 5 3 0, .word, fun v => v)] ∧
    (Instr.stw 3 4 0, Width.word, (7 : Word)) ∈ [(Instr.stb 3 4 0, Width.byte, (7 : Word)), (.stw 3 4 0, .word, 7)] := by
  constructor <;> simp

/-- A word over the last three Data bytes and the first of MMIO, and the last misaligned halfword and word of the address
space. -/
theorem witness_DeviceSeesBytewiseAccess :
    (bytewiseEquipped 0x0FFFFFFD 7).CanRead [3, 4] ∧ (bytewiseEquipped 0x0FFFFFFD 7).cfg.mmio = .device ∧
    (bytewiseEquipped 0x0FFFFFFD 7).cfg.misalignedData = .bytewise ∧ (based 0x0FFFFFFD).toNat % 4 ≠ 0 ∧
    0x10000000 < (based 0x0FFFFFFD).toNat + 4 ∧ (based 0x0FFFFFFD).toNat + 4 ≤ 2 ^ 32 ∧
    (∀ k, k < 4 → (based 0x0FFFFFFD).toNat + k < 0x10000000 →
      (based 0x0FFFFFFD).toNat + k ≤ (bytewiseEquipped 0x0FFFFFFD 7).cfg.dataLimit.toNat) ∧
    (∀ k, k < 3 → Memory.read (bytewiseEquipped 0x0FFFFFFD 7).mem ((based 0x0FFFFFFD).toNat + k) = none) ∧
    (bytewiseEquipped 0x0FFFFFFD 7).cfg.unwrittenReg = .anyValue ∧
    (based 0xFFFFFFFD).toNat % 2 ≠ 0 ∧ (based 0xFFFFFFFD).toNat + 2 ≤ 2 ^ 32 ∧
    (based 0xFFFFFFFB).toNat % 4 ≠ 0 ∧ (based 0xFFFFFFFB).toNat + 4 ≤ 2 ^ 32 := by
  unfold State.CanRead; decide

/-- The bytes of the statement exist: those of Data memory, and then the device's answers. -/
theorem witness_DeviceSeesBytewiseAccess_bytes :
    ∃ b : Nat → Byte,
      (∀ k, k < 4 → 0x0FFFFFFD + k < 0x10000000 → b k = Config.unspecifiedByte (based 0x0FFFFFFD + BitVec.ofNat 32 k)) ∧
      (∀ k, k < 4 → 0x10000000 ≤ 0x0FFFFFFD + k →
        b k = (Config.mmioReadValue ([] ++ byteReads (based 0x0FFFFFFD) (k + 1))).setWidth 8) :=
  ⟨fun k => if 0x0FFFFFFD + k < 0x10000000 then Config.unspecifiedByte (based 0x0FFFFFFD + BitVec.ofNat 32 k)
      else (Config.mmioReadValue ([] ++ byteReads (based 0x0FFFFFFD) (k + 1))).setWidth 8,
    fun _ _ h => if_pos h, fun _ _ h => if_neg (Nat.not_lt.2 h)⟩

/-- What the device sees of that word in the statement's words: one byte, and of a store its high one (R51, R52). -/
theorem test_device_sees_bytes :
    byteReads 0x0FFFFFFD 4 = [.read 0x10000000 .byte] ∧
    byteWrites 0x0FFFFFFD 4 0x12345678 = [.write 0x10000000 .byte 0x12] := by decide

theorem witness_AssertEqTrapsWhenDifferent :
    (small 0x40 1 1).CanRead [3, 4] ∧ (small 0x40 1 1).reg 3 = (small 0x40 1 1).reg 4 ∧
    (small 0x40 1 2).CanRead [3, 4] ∧ (small 0x40 1 2).reg 3 ≠ (small 0x40 1 2).reg 4 := by
  unfold State.CanRead; decide

theorem witness_YieldRecordsAndContinues : (small 0x40 1 2).cfg.hostOnYield = .identity := by decide

end Sys2Proof.Tests
end

section
/-! The launch state (spec/10_state.md section 7, spec/20_memory.md section 7): what the loaders leave in memory, what the
registers of a launch hold, and the statement LaunchState. -/

namespace Sys2Proof.Machine

/-! ## Words as their four bytes (R46) -/

/-- A word is the word of its own four bytes. -/
theorem wordOfBytes_bytes (w : Word) :
    wordOfBytes (w.extractLsb' 0 8) (w.extractLsb' 8 8) (w.extractLsb' 16 8) (w.extractLsb' 24 8) = w := by
  simp only [wordOfBytes]
  rw [BitVec.extractLsb'_append_extractLsb'_eq_extractLsb' (by rfl),
    BitVec.extractLsb'_append_extractLsb'_eq_extractLsb' (by rfl),
    BitVec.extractLsb'_append_extractLsb'_eq_extractLsb' (by rfl)]
  exact BitVec.extractLsb'_eq_self

/-- The bytes of a 4-aligned word do not wrap around the address space. -/
theorem toNat_add_of_aligned {a : Word} (ha : a.toNat % 4 = 0) {k : Nat} (hk : k < 4) :
    (a + BitVec.ofNat 32 k).toNat = a.toNat + k := by
  simp only [BitVec.toNat_add, BitVec.toNat_ofNat]
  omega

/-- A byte written by `writeBytes` is what its address reads, where the written addresses do not meet themselves again. -/
theorem Memory.read_writeBytes_written (bs : List Byte) : ∀ (m : Memory) (a : Word) (k : Nat) (hk : k < bs.length),
    bs.length ≤ 2 ^ 32 → Memory.read (Memory.writeBytes m a bs) (a + BitVec.ofNat 32 k).toNat = some bs[k] := by
  induction bs with
  | nil => intro m a k hk; cases hk
  | cons x xs ih =>
    intro m a k hk hlen
    simp only [List.length_cons] at hk hlen
    simp only [Memory.writeBytes]
    cases k with
    | zero =>
      have hfirst : ∀ j, j < xs.length → (a + BitVec.ofNat 32 0).toNat ≠ (a + 1 + BitVec.ofNat 32 j).toNat := by
        intro j hj
        have hone : (1 : Word).toNat = 1 := rfl
        simp only [BitVec.toNat_add, BitVec.toNat_ofNat, hone]
        omega
      rw [Memory.read_writeBytes_other _ _ _ _ hfirst]
      simp
    | succ k =>
      have haddr : a + BitVec.ofNat 32 (k + 1) = a + 1 + BitVec.ofNat 32 k := by
        rw [Nat.add_comm k 1, BitVec.ofNat_add, ← BitVec.add_assoc]
        rfl
      rw [haddr, ih _ _ k (by omega) (by omega), List.getElem_cons_succ]

/-- A fetch reads the word whose four bytes are listed (R46, R62). -/
theorem State.codeWord_eq_some {s : State} {a w : Word} (ha : a.toNat % 4 = 0)
    (h : ∀ k (hk : k < (bytesOfWord w).length), Memory.read s.mem (a.toNat + k) = some (bytesOfWord w)[k]) :
    s.codeWord a = some w := by
  have hbyte : ∀ k (hk : k < (bytesOfWord w).length),
      Memory.read s.mem (a + BitVec.ofNat 32 k).toNat = some (bytesOfWord w)[k] := fun k hk =>
    (toNat_add_of_aligned ha hk).symm ▸ h k hk
  have h0 : Memory.read s.mem a.toNat = some (w.extractLsb' 0 8) := h 0 (by decide : 0 < 4)
  have h1 : Memory.read s.mem (a + 1).toNat = some (w.extractLsb' 8 8) := hbyte 1 (by decide : 1 < 4)
  have h2 : Memory.read s.mem (a + 2).toNat = some (w.extractLsb' 16 8) := hbyte 2 (by decide : 2 < 4)
  have h3 : Memory.read s.mem (a + 3).toNat = some (w.extractLsb' 24 8) := hbyte 3 (by decide : 3 < 4)
  simp only [State.codeWord, h0, h1, h2, h3, wordOfBytes_bytes]

/-! ## One loaded entry (R62) -/

/-- A CodeImage entry whose word does not hold the address leaves it as it was. -/
theorem read_loadCode_other (m : Memory) {p : Word × Word} {a : Nat}
    (h : p.1.toNat % 4 = 0 → p.1.toNat ≤ codeLast → ¬(p.1.toNat ≤ a ∧ a < p.1.toNat + 4)) :
    Memory.read (loadCode m p) a = Memory.read m a := by
  unfold loadCode
  split
  next hp =>
    refine Memory.read_writeBytes_other _ _ _ _ fun k (hk : k < 4) => ?_
    rw [toNat_add_of_aligned hp.1 hk]
    have := h hp.1 hp.2
    omega
  next => rfl

/-- A CodeImage entry in its domain gives each of its addresses the byte of its word. -/
theorem read_loadCode_self (m : Memory) {p : Word × Word} (ha : p.1.toNat % 4 = 0) (hc : p.1.toNat ≤ codeLast) {k : Nat}
    (hk : k < (bytesOfWord p.2).length) : Memory.read (loadCode m p) (p.1.toNat + k) = some (bytesOfWord p.2)[k] := by
  rw [loadCode, if_pos ⟨ha, hc⟩, ← toNat_add_of_aligned ha hk]
  exact Memory.read_writeBytes_written _ m p.1 k hk (by simp [bytesOfWord])

/-- A CodeImage entry lists nothing outside the Code region. -/
theorem mem_loadCode {m : Memory} {p : Word × Word} {c : Host.Cell} (h : c ∈ loadCode m p) : c ∈ m ∨ c.1 ≤ codeLast := by
  unfold loadCode at h
  split at h
  next hp =>
    obtain hm | ⟨k, hk, hc⟩ := Memory.mem_writeBytes _ _ _ _ h
    · exact .inl hm
    · have hk4 : k < 4 := hk
      rw [toNat_add_of_aligned hp.1 hk4] at hc
      refine .inr ?_
      unfold codeLast at *
      omega
  next => exact .inl h

/-- A DataImage entry for another address leaves the address as it was. -/
theorem read_loadData_other (m : Memory) {p : Word × Byte} {a : Nat} (h : regionOf p.1 = .data → p.1.toNat ≠ a) :
    Memory.read (loadData m p) a = Memory.read m a := by
  unfold loadData
  split
  next hp => exact Memory.read_write_other m p.2 (h hp).symm
  next => rfl

/-- A DataImage entry in the Data region gives its address its byte. -/
theorem read_loadData_self (m : Memory) {p : Word × Byte} (h : regionOf p.1 = .data) :
    Memory.read (loadData m p) p.1.toNat = some p.2 := by
  rw [loadData, if_pos h, Memory.read_write_same]

/-- A DataImage entry lists nothing in the MMIO region. -/
theorem mem_loadData {m : Memory} {p : Word × Byte} {c : Host.Cell} (h : c ∈ loadData m p) : c ∈ m ∨ c.1 < mmioBase := by
  unfold loadData at h
  split at h
  next hp =>
    obtain rfl | hm := Memory.mem_write h
    · exact .inr (regionOf_data.1 hp).2
    · exact .inl hm
  next => exact .inl h

/-! ## A whole image, loaded entry by entry -/

section
variable {β : Type} {load : Memory → Word × β → Memory} {image : List (Word × β)} {a : Nat}

/-- An image none of whose entries touches an address leaves it as it was. -/
theorem read_foldl_other (h : ∀ p ∈ image, ∀ m, Memory.read (load m p) a = Memory.read m a) (m : Memory) :
    Memory.read (image.foldl load m) a = Memory.read m a :=
  List.foldlRecOn (motive := fun m' => Memory.read m' a = Memory.read m a) image load rfl fun m' hm' p hp =>
    (h p hp m').trans hm'

/-- What one entry of an image puts at an address stays there, where the entries for other addresses leave it alone and no two
entries name one address. -/
theorem read_foldl_loaded {p : Word × β} {b : Byte} (hd : image.Pairwise fun p q => p.1 ≠ q.1) (hp : p ∈ image)
    (hself : ∀ m, Memory.read (load m p) a = some b)
    (hother : ∀ q ∈ image, q.1 ≠ p.1 → ∀ m, Memory.read (load m q) a = Memory.read m a) (m : Memory) :
    Memory.read (image.foldl load m) a = some b := by
  obtain ⟨before, after, rfl⟩ := List.append_of_mem hp
  obtain ⟨-, hd, -⟩ := List.pairwise_append.1 hd
  have hafter : ∀ q ∈ after, ∀ m, Memory.read (load m q) a = Memory.read m a := fun q hq =>
    hother q (by simp [hq]) ((List.pairwise_cons.1 hd).1 q hq).symm
  rw [List.foldl_append, List.foldl_cons, read_foldl_other hafter, hself]

end

/-! ## The memory of a launch -/

/-- The memory a launch starts with: CodeImage, then DataImage (R62). -/
def Launch.memory (l : Launch) : Memory := l.dataImage.foldl loadData (l.codeImage.foldl loadCode [])

theorem Launch.memory_wf (l : Launch) : Memory.wf l.memory :=
  List.foldlRecOn _ _ (List.foldlRecOn _ _ List.Pairwise.nil fun _ h p _ => loadCode_wf p h) fun _ h p _ => loadData_wf p h

theorem Launch.memory_backed (l : Launch) : ∀ c ∈ l.memory, c.1 < mmioBase := by
  have hcode : ∀ c ∈ l.codeImage.foldl loadCode [], c.1 < mmioBase :=
    List.foldlRecOn (motive := fun m => ∀ c ∈ m, c.1 < mmioBase) _ _ (by simp) fun _ hm _ _ c hc =>
      (mem_loadCode hc).elim (hm c) fun h => Nat.lt_of_le_of_lt h (by decide)
  exact List.foldlRecOn (motive := fun m => ∀ c ∈ m, c.1 < mmioBase) _ _ hcode fun _ hm _ _ c hc =>
    (mem_loadData hc).elim (hm c) id

/-- DataImage leaves the Code region alone. -/
theorem Launch.memory_code (l : Launch) {a : Nat} (ha : a ≤ codeLast) :
    Memory.read l.memory a = Memory.read (l.codeImage.foldl loadCode []) a :=
  read_foldl_other (fun _ _ m => read_loadData_other m fun hr => by have := (regionOf_data.1 hr).1; omega) _

/-- Every byte of a word of CodeImage is listed: two 4-aligned words at different addresses share none. -/
theorem Launch.memory_codeImage {l : Launch} (hd : l.codeImage.Pairwise fun p q => p.1 ≠ q.1) {p : Word × Word}
    (hp : p ∈ l.codeImage) (ha : p.1.toNat % 4 = 0) (hc : p.1.toNat ≤ codeLast) {k : Nat}
    (hk : k < (bytesOfWord p.2).length) : Memory.read l.memory (p.1.toNat + k) = some (bytesOfWord p.2)[k] := by
  have hk4 : k < 4 := hk
  rw [l.memory_code (by unfold codeLast at *; omega)]
  refine read_foldl_loaded hd hp (fun m => read_loadCode_self m ha hc hk) (fun q _ hq m => ?_) []
  have hne : q.1.toNat ≠ p.1.toNat := fun h => hq (BitVec.eq_of_toNat_eq h)
  exact read_loadCode_other m fun hqa _ => by omega

/-- Every Data byte of DataImage is listed. -/
theorem Launch.memory_dataImage {l : Launch} (hd : l.dataImage.Pairwise fun p q => p.1 ≠ q.1) {p : Word × Byte}
    (hp : p ∈ l.dataImage) (hr : regionOf p.1 = .data) : Memory.read l.memory p.1.toNat = some p.2 :=
  read_foldl_loaded hd hp (fun m => read_loadData_self m hr)
    (fun _ _ hq m => read_loadData_other m fun _ h => hq (BitVec.eq_of_toNat_eq h)) _

/-- An address outside both images holds no value. -/
theorem Launch.memory_outside {l : Launch} {a : Nat}
    (hcode : ∀ p ∈ l.codeImage, p.1.toNat % 4 = 0 → p.1.toNat ≤ codeLast → ¬(p.1.toNat ≤ a ∧ a < p.1.toNat + 4))
    (hdata : ∀ p ∈ l.dataImage, regionOf p.1 = .data → p.1.toNat ≠ a) : Memory.read l.memory a = none := by
  rw [Launch.memory, read_foldl_other fun p hp m => read_loadData_other m (hdata p hp),
    read_foldl_other fun p hp m => read_loadCode_other m (hcode p hp)]
  rfl

/-! ## The launch state as the loaded machine with its registers defined -/

/-- The machine with its images loaded, before the launch defines any register but r0 (R33, R62). -/
def Launch.loaded (l : Launch) : State where
  regs       := blankRegs
  regDefined := (Vector.replicate 32 false).set 0 true
  pc         := l.resetPc
  mem        := l.memory
  status     := .running
  io         := []
  mmioLog    := []
  cfg        := l.cfg

/-- What SP_AT_RESET defines: r29 where it is given (R33), nothing where it is not. -/
def Launch.spRegs (l : Launch) : List (Reg × Word) := l.spAtReset.toList.map fun sp => (29, sp)

theorem Launch.spRegs_of_some {l : Launch} {sp : Word} (h : l.spAtReset = some sp) : l.spRegs = [(29, sp)] := by
  simp [Launch.spRegs, h]

/-- SP_AT_RESET defines no register but r29, and r29 only where it is given. -/
theorem Launch.spRegs_ne {l : Launch} {r : Reg} (h : r = 29 → l.spAtReset = none) : ∀ p ∈ l.spRegs, p.1 ≠ r := by
  rintro p hp rfl
  obtain ⟨sp, hsp, rfl⟩ := List.mem_map.1 hp
  simp [h rfl] at hsp

theorem State.launch_eq (l : Launch) : State.launch l = (l.loaded.defineRegs l.spRegs).defineRegs l.regs := by
  obtain ⟨_, sp, _⟩ := l
  cases sp <;> rfl

/-- The launch state has the pc, memory, status, trace, device and parameters of the loaded machine. -/
theorem State.launch_rest (l : Launch) :
    (State.launch l).pc = l.resetPc ∧ (State.launch l).mem = l.memory ∧ (State.launch l).status = .running ∧
    (State.launch l).io = [] ∧ (State.launch l).mmioLog = [] ∧ (State.launch l).cfg = l.cfg := by
  obtain ⟨hpc, hmem, hst, hio, hlog, hcfg⟩ := State.defineRegs_rest l.spRegs l.loaded
  obtain ⟨hpc', hmem', hst', hio', hlog', hcfg'⟩ := State.defineRegs_rest l.regs (l.loaded.defineRegs l.spRegs)
  rw [State.launch_eq]
  exact ⟨hpc'.trans hpc, hmem'.trans hmem, hst'.trans hst, hio'.trans hio, hlog'.trans hlog, hcfg'.trans hcfg⟩

theorem State.launch_mem (l : Launch) : (State.launch l).mem = l.memory := (State.launch_rest l).2.1

theorem Launch.loaded_inv (l : Launch) : l.loaded.Inv := ⟨l.memory_wf, l.memory_backed, rfl, rfl⟩

/-- Defining registers keeps the invariant. -/
theorem State.Inv.defineRegs {s : State} (h : s.Inv) (ps : List (Reg × Word)) : (s.defineRegs ps).Inv := by
  have hext : Extends s (s.defineRegs ps) :=
    Extends.of_foldl (fun u (p : Reg × Word) => u.writeReg p.1 p.2) (fun u p => Extends.of_writeReg u p.1 p.2) ps s
  exact ⟨hext.sorted h.memSorted, hext.backed h.memBacked, hext.zero.trans h.zeroStored, hext.known.trans h.zeroKnown⟩

theorem State.launch_inv (l : Launch) : (State.launch l).Inv := by
  rw [State.launch_eq]
  exact (l.loaded_inv.defineRegs l.spRegs).defineRegs l.regs

/-! ## The registers of a launch (R33, R34) -/

/-- Before any register is defined each one but r0 holds its free value, and only any-value lets it be read. -/
theorem Launch.loaded_reg (l : Launch) {r : Reg} (h0 : r ≠ 0) :
    l.loaded.reg r = Config.unspecifiedReg r ∧ (l.loaded.regReadable r = true ↔ l.cfg.unwrittenReg = .anyValue) := by
  have hv : (0 : Nat) ≠ r.val := fun e => h0 (Fin.ext e.symm)
  constructor
  · simp only [State.reg, Launch.loaded, blankRegs_get, if_neg h0]
  · simp [State.regReadable, Launch.loaded, h0, hv]

theorem State.launch_named {l : Launch} (hd : l.regs.Pairwise fun p q => p.1 ≠ q.1) {p : Reg × Word} (hp : p ∈ l.regs)
    (h0 : p.1 ≠ 0) : (State.launch l).reg p.1 = p.2 ∧ (State.launch l).regReadable p.1 = true := by
  rw [State.launch_eq]
  exact State.defineRegs_named hd hp h0

/-- A register the launch's own list does not name is as SP_AT_RESET leaves it. -/
theorem State.launch_not_named {l : Launch} {r : Reg} (h : ∀ p ∈ l.regs, p.1 ≠ r) :
    (State.launch l).reg r = (l.loaded.defineRegs l.spRegs).reg r ∧
    (State.launch l).regReadable r = (l.loaded.defineRegs l.spRegs).regReadable r := by
  rw [State.launch_eq]
  exact State.defineRegs_other h

theorem State.launch_sp {l : Launch} {sp : Word} (hsp : l.spAtReset = some sp) (h : ∀ p ∈ l.regs, p.1 ≠ 29) :
    (State.launch l).reg 29 = sp ∧ (State.launch l).regReadable 29 = true := by
  obtain ⟨hreg, hread⟩ := State.launch_not_named h
  rw [hreg, hread, Launch.spRegs_of_some hsp]
  exact State.defineRegs_named (p := (29, sp)) (List.pairwise_singleton _ _) List.mem_cons_self (by decide : (29 : Reg) ≠ 0)

theorem State.launch_undefined {l : Launch} {r : Reg} (h0 : r ≠ 0) (h : ∀ p ∈ l.regs, p.1 ≠ r)
    (hsp : r = 29 → l.spAtReset = none) :
    (State.launch l).reg r = Config.unspecifiedReg r ∧
    ((State.launch l).regReadable r = true ↔ l.cfg.unwrittenReg = .anyValue) := by
  obtain ⟨hreg, hread⟩ := State.launch_not_named h
  obtain ⟨hreg', hread'⟩ := State.defineRegs_other (s := l.loaded) (Launch.spRegs_ne hsp)
  rw [hreg, hread, hreg', hread']
  exact l.loaded_reg h0

/-! ## The statement -/

/-- Settles O20: the launch state is the loaded machine with SP_AT_RESET and then the launch's registers defined; the memory
parts follow from what each image entry writes, and the register parts from what each definition leaves alone. -/
theorem launchState : Obligations.LaunchState := by
  unfold Obligations.LaunchState
  intro l hcode hdata hregs
  have hregion {a : Word} : regionOf a = .data ↔ 0x00100000 ≤ a.toNat ∧ a.toNat < 0x10000000 := regionOf_data
  obtain ⟨hpc, hmem, hstatus, hio, hlog, hcfg⟩ := State.launch_rest l
  refine ⟨hpc, hstatus, hio, hlog, State.launch_inv l, hcfg, ?code, ?data, ?outside, State.reg_zero _,
    fun p hp h0 => State.launch_named hregs hp h0, fun sp hsp h => State.launch_sp hsp h,
    fun r h0 h hsp => State.launch_undefined h0 h hsp⟩
  case code =>
    intro p hp ha hc
    exact State.codeWord_eq_some ha fun k hk => hmem ▸ Launch.memory_codeImage hcode hp ha hc hk
  case data =>
    intro p hp hlo hhi
    exact hmem ▸ Launch.memory_dataImage hdata hp (hregion.2 ⟨hlo, hhi⟩)
  case outside =>
    intro a hc hd
    exact hmem ▸ Launch.memory_outside hc fun p hp hr => hd p hp (hregion.1 hr).1 (hregion.1 hr).2

end Sys2Proof.Machine
end

section
/-! A misaligned access made byte by byte that reaches a supplied MMIO device (spec/20_memory.md R51, R52; spec/60_exceptions.md
R233), and the statement DeviceSeesBytewiseAccess. Each byte goes to Data memory or to the device by its own address. A load is
followed as a chain of states, one for each byte read, and a store as the state after each byte written. -/

namespace Sys2Proof.Machine

/-! ## Bytes of a value -/

/-- An address below 2^32 is its base plus its offset. -/
theorem toNat_add_of_no_wrap {a : Word} {k : Nat} (h : a.toNat + k < 2 ^ 32) : (a + BitVec.ofNat 32 k).toNat = a.toNat + k := by
  simp only [BitVec.toNat_add, BitVec.toNat_ofNat]
  omega

/-- Little-endian order: the k-th byte of a value is its bits from 8k up (R49). -/
theorem toLittle_eq_map (n : Nat) (v : Word) : toLittle n v = (List.range n).map fun k => v.extractLsb' (8 * k) 8 := by
  induction n generalizing v with
  | zero => rfl
  | succ n ih =>
    rw [toLittle, ih, List.range_succ_eq_map, List.map_cons, List.map_map]
    congr 1
    refine List.map_congr_left fun k _ => ?_
    ext i hi
    simp only [BitVec.getElem_extractLsb', BitVec.getLsbD_ushiftRight, Function.comp_apply]
    congr 1
    omega

/-- Little-endian order: the first byte is the low one, and the others make the bits from 8 up (R48). -/
theorem getLsbD_ofLittle_cons (b : Byte) (bs : List Byte) {i : Nat} (hi : i < 32) :
    (ofLittle (b :: bs)).getLsbD i = if i < 8 then b.getLsbD i else (ofLittle bs).getLsbD (i - 8) := by
  rw [ofLittle, BitVec.getLsbD_or, BitVec.getLsbD_shiftLeft, BitVec.getLsbD_setWidth]
  split
  · simp [*]
  · simp [*, BitVec.getLsbD_of_ge b i (by omega)]

theorem ofLittle_singleton (b : Byte) : ofLittle [b] = b.setWidth 32 := by
  simp [ofLittle]

/-- The halfword of two bytes, read little-endian (R48). -/
theorem setWidth_ofLittle_half (b0 b1 : Byte) : (ofLittle [b0, b1]).setWidth 16 = b1 ++ b0 := by
  refine BitVec.eq_of_getLsbD_eq fun i hi => ?_
  have hi32 : i < 32 := by omega
  have hsub : i - 8 < 32 := by omega
  simp only [BitVec.getLsbD_setWidth, getLsbD_ofLittle_cons, ofLittle_singleton, BitVec.getLsbD_append, hi, hi32, hsub,
    decide_true, Bool.true_and]

/-- The word of four bytes, read little-endian (R48). -/
theorem ofLittle_word (b0 b1 b2 b3 : Byte) : ofLittle [b0, b1, b2, b3] = b3 ++ b2 ++ b1 ++ b0 := by
  refine BitVec.eq_of_getLsbD_eq fun i hi => ?_
  have hsub (k : Nat) : i - k < 32 := by omega
  simp only [getLsbD_ofLittle_cons, ofLittle_singleton, BitVec.getLsbD_append, BitVec.getLsbD_setWidth, hi, hsub, Nat.sub_sub,
    decide_true, Bool.true_and]

theorem sextLow_ofLittle_half (b : Nat → Byte) : sextLow 16 (ofLittle [b 0, b 1]) = (halfOf .little b).signExtend 32 := by
  rw [sextLow, setWidth_ofLittle_half, halfOf]

theorem zextLow_ofLittle_half (b : Nat → Byte) : zextLow 16 (ofLittle [b 0, b 1]) = (halfOf .little b).setWidth 32 := by
  rw [zextLow, setWidth_ofLittle_half, halfOf]

/-! ## What the device sees -/

theorem deviceBytes_succ_of_mmio {a : Word} {m : Nat} (h : mmioBase ≤ a.toNat + m) :
    deviceBytes a (m + 1) = deviceBytes a m ++ [m] := by
  have h' : 0x10000000 ≤ a.toNat + m := h
  simp [deviceBytes, List.range_succ, List.filter_append, h']

theorem deviceBytes_succ_of_data {a : Word} {m : Nat} (h : a.toNat + m < mmioBase) :
    deviceBytes a (m + 1) = deviceBytes a m := by
  have h' : ¬ 0x10000000 ≤ a.toNat + m := Nat.not_le.2 h
  simp [deviceBytes, List.range_succ, List.filter_append, h']

/-- The device sees several accesses, one after another. -/
def State.deviceAccesses (s : State) (xs : List MmioAccess) : State := xs.foldl State.deviceAccess s

theorem State.deviceAccesses_concat (s : State) (xs : List MmioAccess) (x : MmioAccess) :
    s.deviceAccesses (xs ++ [x]) = (s.deviceAccesses xs).deviceAccess x := by
  simp [State.deviceAccesses]

/-- Accesses to the device change its own state, and add to the io trace, only (R233). -/
theorem State.deviceAccesses_effect (xs : List MmioAccess) (s : State) :
    ∃ io, s.io <+: io ∧ s.deviceAccesses xs = { s with mmioLog := s.mmioLog ++ xs, io := io } := by
  induction xs generalizing s with
  | nil => exact ⟨s.io, List.prefix_refl _, by simp [State.deviceAccesses]⟩
  | cons x xs ih =>
    obtain ⟨io, hio, heq⟩ := ih (s.deviceAccess x)
    exact ⟨io, (List.prefix_append _ _).trans hio, heq.trans (by simp [State.deviceAccess])⟩

theorem State.deviceAccesses_mmioLog (s : State) (xs : List MmioAccess) :
    (s.deviceAccesses xs).mmioLog = s.mmioLog ++ xs := by
  obtain ⟨io, -, heq⟩ := s.deviceAccesses_effect xs
  rw [heq]

theorem State.deviceAccesses_dataByte (s : State) (xs : List MmioAccess) (a : Word) :
    (s.deviceAccesses xs).dataByte a = s.dataByte a := by
  obtain ⟨io, -, heq⟩ := s.deviceAccesses_effect xs
  rw [heq]
  rfl

/-! ## One byte -/

/-- A Data byte reads as what is listed, or, where nothing is, as its free value under any-value (R34). -/
theorem State.dataByte_eq_some {s : State} {a : Word} {b : Byte}
    (h : Memory.read s.mem a.toNat = some b ∨
      (Memory.read s.mem a.toNat = none ∧ s.cfg.unwrittenReg = .anyValue ∧ b = Config.unspecifiedByte a)) :
    s.dataByte a = some b := by
  obtain h | ⟨h, hany, rfl⟩ := h
  · simp [State.dataByte, h]
  · simp [State.dataByte, h, hany]

theorem State.readPlace_dataByte {s : State} {p : Word} {b : Byte} (hr : regionOf p = .data) (hb : s.dataByte p = some b) :
    s.readPlace (p, .byte) = .ok (s, [b]) := by
  simp [State.readPlace, hr, Width.bytes, State.readBytes, hb]

theorem State.readPlace_mmioByte {s : State} {p : Word} (hr : regionOf p = .mmio) :
    s.readPlace (p, .byte) = .ok (s.deviceAccess (.read p .byte),
      [(Config.mmioReadValue (s.mmioLog ++ [.read p .byte])).setWidth 8]) := by
  have hone (o : ByteOrder) (v : Word) : toBytes o 1 v = [v.setWidth 8] := by cases o <;> rfl
  simp [State.readPlace, hr, Width.bytes, State.deviceRead, hone]

theorem State.writePlace_dataByte (s : State) {p : Word} (b : Byte) (hr : regionOf p = .data) :
    s.writePlace (p, .byte) [b] = { s with mem := Memory.write s.mem p.toNat b } := by
  simp [State.writePlace, hr, Memory.writeBytes]

theorem State.writePlace_mmioByte (s : State) {p : Word} (b : Byte) (hr : regionOf p = .mmio) :
    s.writePlace (p, .byte) [b] = s.deviceAccess (.write p .byte (b.setWidth 32)) := by
  have hone (o : ByteOrder) : ofBytes o [b] = b.setWidth 32 := by cases o <;> simp [ofBytes, ofLittle]
  simp [State.writePlace, hr, hone]

theorem State.writePlace_pc (s : State) (p : Word × Width) (bs : List Byte) : (s.writePlace p bs).pc = s.pc := by
  unfold State.writePlace
  split <;> rfl

/-! ## Several bytes, one after another -/

/-- An access each of whose places passes its checks passes them. -/
theorem checkEach_eq_none {cfg : Config} {kind : AccessKind} {ps : List (Word × Width)}
    (h : ∀ p ∈ ps, checkAt cfg kind p.1 p.2 = none) : checkEach cfg kind ps = none := by
  induction ps with
  | nil => rfl
  | cons p ps ih => simp only [checkEach, h p List.mem_cons_self, ih fun q hq => h q (List.mem_cons_of_mem _ hq)]

/-- Where each place of a load takes one state of a chain to the next, the whole load takes the first to the last. -/
theorem State.readPlaces_chain {n : Nat} : ∀ {σ : Nat → State} {place : Nat → Word × Width} {b : Nat → Byte},
    (∀ k < n, (σ k).readPlace (place k) = .ok (σ (k + 1), [b k])) →
    (σ 0).readPlaces ((List.range n).map place) = .ok (σ n, (List.range n).map b) := by
  induction n with
  | zero => intros; rfl
  | succ n ih =>
    intro σ place b h
    have hrest := ih (σ := fun k => σ (k + 1)) (place := fun k => place (k + 1)) (b := fun k => b (k + 1))
      fun k hk => h (k + 1) (by omega)
    simp only [List.range_succ_eq_map, List.map_cons, List.map_map, State.readPlaces, h 0 (by omega), Function.comp_def,
      Nat.succ_eq_add_one, hrest, List.singleton_append]

/-- The state after the first `k` bytes of a store made byte by byte. -/
def State.storeBytes (s : State) (a : Word) (v : Word) : Nat → State
  | 0 => s
  | k + 1 => (s.storeBytes a v k).writePlace (a + BitVec.ofNat 32 k, .byte) [v.extractLsb' (8 * k) 8]

/-- Where each byte of a store takes one state of a chain to the next, the whole store takes the first to the last. -/
theorem State.writePlaces_chain {n : Nat} : ∀ {σ : Nat → State} {place : Nat → Word} {b : Nat → Byte},
    (∀ k < n, (σ k).writePlace (place k, .byte) [b k] = σ (k + 1)) →
    (σ 0).writePlaces ((List.range n).map fun k => (place k, .byte)) ((List.range n).map b) = σ n := by
  induction n with
  | zero => intros; rfl
  | succ n ih =>
    intro σ place b h
    have hrest := ih (σ := fun k => σ (k + 1)) (place := fun k => place (k + 1)) (b := fun k => b (k + 1))
      fun k hk => h (k + 1) (by omega)
    simp only [List.range_succ_eq_map, List.map_cons, List.map_map, State.writePlaces, Width.bytes, List.take_succ_cons,
      List.take_zero, List.drop_succ_cons, List.drop_zero, h 0 (by omega), Function.comp_def, Nat.succ_eq_add_one, hrest]

theorem State.writePlaces_bytePlaces (s : State) (a : Word) (w : Width) (v : Word) :
    s.writePlaces (bytePlaces a w) (toLittle w.bytes v) = s.storeBytes a v w.bytes := by
  rw [toLittle_eq_map]
  exact State.writePlaces_chain (σ := s.storeBytes a v) fun _ _ => rfl

theorem State.storeBytes_pc (s : State) (a v : Word) (k : Nat) : (s.storeBytes a v k).pc = s.pc := by
  induction k with
  | zero => rfl
  | succ k ih => rw [State.storeBytes, State.writePlace_pc, ih]

/-! ## A load or a store whose access goes ahead (R199) -/

theorem State.load_of_memRead {s t : State} {a : Word} {w : Width} {v : Word} (h : s.memRead a w = .ok (t, v)) (rd : Reg)
    (ext : Word → Word) : s.load rd a w ext = .next (t.writeReg rd (ext v)).advance := by
  simp only [State.load, h, State.finish]

theorem State.store_of_memWrite {s t : State} {a : Word} {w : Width} {v : Word} (h : s.memWrite a w v = .ok t) :
    s.store a w v = .next t.advance := by
  simp only [State.store, h]

/-! ## The access of the statement -/

/-- A misaligned access, made byte by byte, that does not wrap, whose last byte is in the region of a supplied device and whose
Data bytes are within DATA_LIMIT (R51, R52). -/
structure State.BytewiseToDevice (s : State) (a : Word) (w : Width) : Prop where
  device     : s.cfg.mmio = .device
  bytewise   : s.cfg.misalignedData = .bytewise
  misaligned : a.toNat % w.bytes ≠ 0
  reaches    : mmioBase < a.toNat + w.bytes
  noWrap     : a.toNat + w.bytes ≤ 2 ^ 32
  inLimit    : ∀ k < w.bytes, a.toNat + k < mmioBase → a.toNat + k ≤ s.cfg.dataLimit.toNat

section
variable {s : State} {a : Word} {w : Width} (h : s.BytewiseToDevice a w) {k : Nat}
include h

theorem State.BytewiseToDevice.toNat_add (hk : k < w.bytes) : (a + BitVec.ofNat 32 k).toNat = a.toNat + k :=
  toNat_add_of_no_wrap (Nat.lt_of_lt_of_le (Nat.add_lt_add_left hk _) h.noWrap)

theorem State.BytewiseToDevice.region_data (hk : k < w.bytes) (hd : a.toNat + k < mmioBase) :
    regionOf (a + BitVec.ofNat 32 k) = .data := by
  have hw : w.bytes ≤ 4 := by cases w <;> decide
  have hreach := h.reaches
  rw [regionOf_data, h.toNat_add hk]
  unfold codeLast mmioBase at *
  omega

theorem State.BytewiseToDevice.region_mmio (hk : k < w.bytes) (hm : mmioBase ≤ a.toNat + k) :
    regionOf (a + BitVec.ofNat 32 k) = .mmio := by
  rwa [regionOf_mmio, h.toNat_add hk]

theorem State.BytewiseToDevice.not_aligned : aligned a w = false := by
  simpa [aligned] using h.misaligned

theorem State.BytewiseToDevice.accessPlaces_eq : accessPlaces a w = bytePlaces a w := by
  simp [accessPlaces, h.not_aligned]

/-- Every byte of the access passes its checks (R51). -/
theorem State.BytewiseToDevice.checkData_eq_none (kind : AccessKind) : checkData s.cfg kind a w = none := by
  have hbyte : ∀ p ∈ bytePlaces a w, checkAt s.cfg kind p.1 p.2 = none := by
    intro p hp
    obtain ⟨k, hk, rfl⟩ := List.mem_map.1 hp
    have hk : k < w.bytes := List.mem_range.1 hk
    obtain hd | hm := Nat.lt_or_ge (a.toNat + k) mmioBase
    · simp [checkAt, h.region_data hk hd, h.toNat_add hk, Width.bytes, h.inLimit k hk hd]
    · simp [checkAt, h.region_mmio hk hm, h.device]
  simp only [checkData, h.bytewise]
  exact checkEach_eq_none hbyte

/-! ## The load -/

/-- One byte of the load: Data memory's, or one byte access of the device. -/
theorem State.BytewiseToDevice.readPlace_byte {b : Nat → Byte}
    (hdata : a.toNat + k < mmioBase → s.dataByte (a + BitVec.ofNat 32 k) = some (b k))
    (hmmio : mmioBase ≤ a.toNat + k → b k = (Config.mmioReadValue (s.mmioLog ++ byteReads a (k + 1))).setWidth 8)
    (hk : k < w.bytes) :
    (s.deviceAccesses (byteReads a k)).readPlace (a + BitVec.ofNat 32 k, .byte) =
      .ok (s.deviceAccesses (byteReads a (k + 1)), [b k]) := by
  obtain hd | hm := Nat.lt_or_ge (a.toNat + k) mmioBase
  · have hsame : byteReads a (k + 1) = byteReads a k := by simp [byteReads, deviceBytes_succ_of_data hd]
    rw [hsame]
    exact State.readPlace_dataByte (h.region_data hk hd) ((s.deviceAccesses_dataByte _ _).trans (hdata hd))
  · have hmore : byteReads a (k + 1) = byteReads a k ++ [.read (a + BitVec.ofNat 32 k) .byte] := by
      simp [byteReads, deviceBytes_succ_of_mmio hm]
    rw [State.readPlace_mmioByte (h.region_mmio hk hm), hmmio hm, hmore, State.deviceAccesses_concat,
      State.deviceAccesses_mmioLog, List.append_assoc]

/-- The whole load: the device has seen its bytes, and the value is made of all of them in little-endian order (R52). -/
theorem State.BytewiseToDevice.memRead_eq {b : Nat → Byte}
    (hdata : ∀ k < w.bytes, a.toNat + k < mmioBase → s.dataByte (a + BitVec.ofNat 32 k) = some (b k))
    (hmmio : ∀ k < w.bytes, mmioBase ≤ a.toNat + k →
      b k = (Config.mmioReadValue (s.mmioLog ++ byteReads a (k + 1))).setWidth 8) :
    s.memRead a w = .ok (s.deviceAccesses (byteReads a w.bytes), ofLittle ((List.range w.bytes).map b)) := by
  have hread : s.readPlaces (bytePlaces a w) = .ok (s.deviceAccesses (byteReads a w.bytes), (List.range w.bytes).map b) :=
    State.readPlaces_chain (σ := fun k => s.deviceAccesses (byteReads a k)) fun k hk =>
      h.readPlace_byte (hdata k hk) (hmmio k hk) hk
  simp only [State.memRead, h.checkData_eq_none, h.accessPlaces_eq, hread, accessOrder_misaligned _ h.not_aligned, ofBytes]

/-- What a load answers (R191 to R195): `rd` holds the widened value, the pc advances, and the device has seen its bytes. -/
theorem State.BytewiseToDevice.load_effect {b : Nat → Byte} {rd : Reg} {ext : Word → Word} {v : Word}
    (hdata : ∀ k < w.bytes, a.toNat + k < mmioBase → Memory.read s.mem (a.toNat + k) = some (b k) ∨
      (Memory.read s.mem (a.toNat + k) = none ∧ s.cfg.unwrittenReg = .anyValue ∧
        b k = Config.unspecifiedByte (a + BitVec.ofNat 32 k)))
    (hmmio : ∀ k < w.bytes, mmioBase ≤ a.toNat + k →
      b k = (Config.mmioReadValue (s.mmioLog ++ byteReads a (k + 1))).setWidth 8)
    (hv : ext (ofLittle ((List.range w.bytes).map b)) = v) :
    ∃ t, s.load rd a w ext = .next t ∧ WritesReg s t rd v ∧ t.pc = s.pc + 4 ∧ KeepsMemory s t ∧ t.status = s.status ∧
      t.cfg = s.cfg ∧ t.mmioLog = s.mmioLog ++ byteReads a w.bytes ∧ s.io <+: t.io := by
  have hread := h.memRead_eq (b := b)
    (fun k hk hd => State.dataByte_eq_some (by rw [h.toNat_add hk]; exact hdata k hk hd)) hmmio
  obtain ⟨io, hio, heq⟩ := s.deviceAccesses_effect (byteReads a w.bytes)
  rw [heq] at hread
  subst hv
  refine ⟨_, State.load_of_memRead hread rd ext, fun r => ⟨State.reg_writeReg _ _ _ _, State.regReadable_writeReg _ _ _ _⟩, ?_⟩
  simpa [KeepsMemory] using hio

/-! ## The store -/

theorem State.BytewiseToDevice.storeBytes_mmioLog (v : Word) : ∀ m ≤ w.bytes,
    (s.storeBytes a v m).mmioLog = s.mmioLog ++ byteWrites a m v := by
  intro m
  induction m with
  | zero => intro _; exact (List.append_nil _).symm
  | succ k ih =>
    intro hk
    obtain hd | hm := Nat.lt_or_ge (a.toNat + k) mmioBase
    · rw [State.storeBytes, State.writePlace_dataByte _ _ (h.region_data hk hd)]
      simp [ih (by omega), byteWrites, deviceBytes_succ_of_data hd, storedByte]
    · rw [State.storeBytes, State.writePlace_mmioByte _ _ (h.region_mmio hk hm)]
      simp [ih (by omega), byteWrites, deviceBytes_succ_of_mmio hm, storedByte]

theorem State.BytewiseToDevice.storeBytes_read (v : Word) (x : Nat) : ∀ m ≤ w.bytes,
    Memory.read (s.storeBytes a v m).mem x = if a.toNat ≤ x ∧ x < a.toNat + m ∧ x < mmioBase
      then some (v.extractLsb' (8 * (x - a.toNat)) 8) else Memory.read s.mem x := by
  intro m
  induction m with
  | zero => intro _; rw [if_neg (by omega)]; rfl
  | succ k ih =>
    intro hk
    obtain hd | hm := Nat.lt_or_ge (a.toNat + k) mmioBase
    · rw [State.storeBytes, State.writePlace_dataByte _ _ (h.region_data hk hd)]
      simp only [Memory.read_write, h.toNat_add hk, ih (by omega)]
      by_cases hx : x = a.toNat + k
      · subst hx
        rw [if_pos rfl, if_pos (by omega), Nat.add_sub_cancel_left]
      · rw [if_neg hx]
        exact ite_congr (propext (by omega)) (fun _ => rfl) fun _ => rfl
    · rw [State.storeBytes, State.writePlace_mmioByte _ _ (h.region_mmio hk hm), State.deviceAccess_mem, ih (by omega)]
      exact ite_congr (propext (by omega)) (fun _ => rfl) fun _ => rfl

theorem State.BytewiseToDevice.memWrite_eq (v : Word) : s.memWrite a w v = .ok (s.storeBytes a v w.bytes) := by
  simp only [State.memWrite, h.checkData_eq_none, h.accessPlaces_eq, accessOrder_misaligned _ h.not_aligned, toBytes,
    State.writePlaces_bytePlaces]

/-- What a store answers (R196 to R198): its Data bytes are in memory, the device has seen the others, and the pc advances. -/
theorem State.BytewiseToDevice.store_effect (v : Word) :
    ∃ t, s.store a w v = .next t ∧ KeepsRegs s t ∧ t.pc = s.pc + 4 ∧
      (∀ x, Memory.read t.mem x = if a.toNat ≤ x ∧ x < a.toNat + w.bytes ∧ x < mmioBase
        then some (storedByte .little w.bytes (x - a.toNat) v) else Memory.read s.mem x) ∧
      t.status = s.status ∧ t.cfg = s.cfg ∧ t.mmioLog = s.mmioLog ++ byteWrites a w.bytes v ∧ s.io <+: t.io := by
  have hwrite := h.memWrite_eq v
  obtain ⟨hext, hregs⟩ := Extends.of_memWrite hwrite
  exact ⟨_, State.store_of_memWrite hwrite, hregs, congrArg (· + 4) (s.storeBytes_pc a v _),
    fun x => h.storeBytes_read v x _ (Nat.le_refl _), hext.status, hext.cfg, h.storeBytes_mmioLog v _ (Nat.le_refl _), hext.io⟩

end

/-! ## The five instructions, their registers readable (R190 to R198) -/

section
variable {s : State} {rs1 rs2 : Reg} (rd : Reg) (imm : BitVec 12)

theorem exec_ldh (h : s.regReadable rs1 = true) :
    exec (.ldh rd rs1 imm) s = s.load rd (s.reg rs1 + imm.signExtend 32) .half (sextLow 16) := by
  simp only [exec, execLdh, State.withReg_readable h, effectiveAddress, sext12]

theorem exec_ldhu (h : s.regReadable rs1 = true) :
    exec (.ldhu rd rs1 imm) s = s.load rd (s.reg rs1 + imm.signExtend 32) .half (zextLow 16) := by
  simp only [exec, execLdhu, State.withReg_readable h, effectiveAddress, sext12]

theorem exec_ldw (h : s.regReadable rs1 = true) :
    exec (.ldw rd rs1 imm) s = s.load rd (s.reg rs1 + imm.signExtend 32) .word id := by
  simp only [exec, execLdw, State.withReg_readable h, effectiveAddress, sext12]

theorem exec_sth (h : s.regReadable rs1 = true) (h' : s.regReadable rs2 = true) :
    exec (.sth rs1 rs2 imm) s = s.store (s.reg rs1 + imm.signExtend 32) .half (s.reg rs2) := by
  simp only [exec, execSth, State.withRegs_readable h h', effectiveAddress, sext12]

theorem exec_stw (h : s.regReadable rs1 = true) (h' : s.regReadable rs2 = true) :
    exec (.stw rs1 rs2 imm) s = s.store (s.reg rs1 + imm.signExtend 32) .word (s.reg rs2) := by
  simp only [exec, execStw, State.withRegs_readable h h', effectiveAddress, sext12]

end

/-! ## The statement -/

/-- Settles O49: each byte of the access goes to Data memory or to the device by its own address, so a load is a chain of byte
reads and a store a chain of byte writes, and each instruction is its own row of widths and widenings. -/
theorem deviceSeesBytewiseAccess : Obligations.DeviceSeesBytewiseAccess := by
  unfold Obligations.DeviceSeesBytewiseAccess
  intro rd rs1 rs2 imm s a n hread hdev hbyte ha hmis hreach hwrap hlimit
  have h1 : s.regReadable rs1 = true := hread rs1 (by simp)
  have h2 : s.regReadable rs2 = true := hread rs2 (by simp)
  have hacc (w : Width) (hw : w.bytes = n) : s.BytewiseToDevice a w := by
    subst hw
    exact ⟨hdev, hbyte, hmis, hreach, hwrap, hlimit⟩
  subst ha
  refine ⟨fun b hdata hmmio i v hrow => ?load, fun i hrow => ?store⟩
  case load =>
    simp only [List.mem_cons, Prod.mk.injEq, List.not_mem_nil, or_false] at hrow
    obtain ⟨rfl, rfl, rfl⟩ | ⟨rfl, rfl, rfl⟩ | ⟨rfl, rfl, rfl⟩ := hrow
    · rw [exec_ldh rd imm h1]
      exact (hacc .half rfl).load_effect hdata hmmio (sextLow_ofLittle_half b)
    · rw [exec_ldhu rd imm h1]
      exact (hacc .half rfl).load_effect hdata hmmio (zextLow_ofLittle_half b)
    · rw [exec_ldw rd imm h1]
      exact (hacc .word rfl).load_effect hdata hmmio (ofLittle_word _ _ _ _)
  case store =>
    simp only [List.mem_cons, Prod.mk.injEq, List.not_mem_nil, or_false] at hrow
    obtain ⟨rfl, rfl⟩ | ⟨rfl, rfl⟩ := hrow
    · rw [exec_sth imm h1 h2]
      exact (hacc .half rfl).store_effect _
    · rw [exec_stw imm h1 h2]
      exact (hacc .word rfl).store_effect _

end Sys2Proof.Machine
end

section
/-! Linking and returning (spec/45_jump.md R180 to R182; spec/30_encoding.md R105, R106), and the statement CallThenReturn. A
call links into r31 and a return jumps there with its own link discarded, so both are State.link. -/

namespace Sys2Proof.Machine

/-! ## A link and a jump (R180, R181) -/

section
variable (s : State) (rd : Reg) (t : Word)

@[simp] theorem State.link_pc : (s.link rd t).pc = t := rfl

theorem State.link_writesReg : WritesReg s (s.link rd t) rd (s.pc + 4) := fun r =>
  ⟨State.reg_writeReg s rd r (s.pc + 4), State.regReadable_writeReg s rd r (s.pc + 4)⟩

/-- A jump that links into r0 discards its link (R22). -/
theorem State.link_zero : s.link 0 t = s.jump t := rfl

theorem State.jump_onlyMovesPc : OnlyMovesPc s (s.jump t) t :=
  ⟨fun _ => ⟨rfl, rfl⟩, rfl, fun _ => rfl, rfl, rfl, rfl, rfl⟩

end

theorem exec_jal (rd : Reg) (imm : BitVec 21) (s : State) :
    exec (.jal rd imm) s = .next (s.link rd (s.pc + imm.signExtend 32)) := rfl

theorem exec_jalr {s : State} {rs1 : Reg} (rd : Reg) (imm : BitVec 12) (h : s.regReadable rs1 = true) :
    exec (.jalr rd rs1 imm) s = .next (s.link rd (s.reg rs1 + imm.signExtend 32)) := by
  simp only [exec, execJalr, State.withReg_readable h, effectiveAddress, sext12]

/-! ## Pseudo-instructions of one instruction -/

theorem execAll_singleton (i : Instr) (s : State) : execAll [i] s = exec i s := by
  simp only [execAll]
  cases exec i s <;> rfl

/-- `call` links into r31 (R106). -/
theorem execAll_call (imm : BitVec 21) (s : State) :
    execAll (Pseudo.call imm).expand s = .next (s.link 31 (s.pc + imm.signExtend 32)) :=
  (execAll_singleton _ s).trans (exec_jal 31 imm s)

/-- `ret` jumps to r31 (R105, R182). -/
theorem execAll_ret {s : State} (h : s.regReadable 31 = true) :
    execAll Pseudo.ret.expand s = .next (s.jump (s.reg 31)) := by
  calc execAll Pseudo.ret.expand s
      = exec (.jalr 0 31 0) s := execAll_singleton _ s
    _ = .next (s.link 0 (s.reg 31 + (0 : BitVec 12).signExtend 32)) := exec_jalr 0 0 h
    _ = .next (s.jump (s.reg 31)) := by simp [State.link_zero]

/-! ## The statement -/

/-- Settles O39: the call's next state is its link into r31, which holds the address after the call; the return jumps to what
r31 holds. -/
theorem callThenReturn : Obligations.CallThenReturn := by
  unfold Obligations.CallThenReturn
  intro imm s t u hcall hsame hread
  rw [execAll_call] at hcall
  obtain rfl : s.link 31 (s.pc + imm.signExtend 32) = t := by simpa using hcall
  have hlink : u.reg 31 = s.pc + 4 := hsame.trans (State.link_writesReg s 31 _ 31).1
  refine ⟨State.link_pc s 31 _, u.jump (u.reg 31), execAll_ret hread, ?_⟩
  exact hlink ▸ State.jump_onlyMovesPc u (u.reg 31)

end Sys2Proof.Machine
end

section
/-! What the R-type and I-type words decode to (spec/30_encoding.md R71 to R73, R80, R86), and the whole effect of a computational
instruction whose source registers can be read (spec/40_arithmetic.md R120). -/

namespace Sys2Proof.Machine

/-! ## Fields of a word (R71) -/

/-- A 5-bit field names the same register read as bits and read as a number. -/
theorem toFin_extractLsb'_eq_regAt (w : Word) (lo : Nat) : (w.extractLsb' lo 5).toFin = regAt w lo :=
  Fin.ext (by simp [regAt, Nat.shiftRight_eq_div_pow])

theorem rdOf_eq_regAt (w : Word) : rdOf w = regAt w 7 := toFin_extractLsb'_eq_regAt w 7

theorem rs1Of_eq_regAt (w : Word) : rs1Of w = regAt w 15 := toFin_extractLsb'_eq_regAt w 15

theorem rs2Of_eq_regAt (w : Word) : rs2Of w = regAt w 20 := toFin_extractLsb'_eq_regAt w 20

theorem opcodeOf_toNat (w : Word) : (opcodeOf w).toNat = bitsAt w 0 7 := by
  simp [opcodeOf, bitsAt]

theorem immI_eq_bitsAt (w : Word) : immI w = BitVec.ofNat 12 (bitsAt w 20 12) :=
  BitVec.eq_of_toNat_eq (by simp [immI, bitsAt, Nat.shiftRight_eq_div_pow])

/-- Decoding is choosing by the opcode, read as a number. -/
theorem decodeWord_of_opcode {w : Word} {op : Nat} (h : bitsAt w 0 7 = op) : decodeWord w = decodeOpcode op w := by
  rw [decodeWord, opcodeOf_toNat, h]

/-! ## R-type and I-type words, canonical or not (R72, R73, R88) -/

/-- An opcode that the opcode map gives three register fields. -/
theorem encodedR_of_decodeOpcode {op : Nat} {mk : Reg → Reg → Reg → Instr}
    (h : ∀ w, decodeOpcode op w = .ok (mk (rdOf w) (rs1Of w) (rs2Of w))) : EncodedR op mk := by
  intro w hop
  rw [decodeWord_of_opcode hop, h, rdOf_eq_regAt, rs1Of_eq_regAt, rs2Of_eq_regAt]

/-- An opcode that the opcode map gives two register fields and immI. -/
theorem encodedI_of_decodeOpcode {op : Nat} {mk : Reg → Reg → BitVec 12 → Instr}
    (h : ∀ w, decodeOpcode op w = .ok (mk (rdOf w) (rs1Of w) (immI w))) : EncodedI op mk := by
  intro w hop
  rw [decodeWord_of_opcode hop, h, rdOf_eq_regAt, rs1Of_eq_regAt, immI_eq_bitsAt]

/-- The fields a word with bits 14:12 zero was made of are the fields it has. -/
theorem fields_of_eq_ofNat {w : Word} {op x : Nat} {rd rs1 : Reg} (hop : op < 128) (hx : x < 2 ^ 12)
    (hw : w = BitVec.ofNat 32 (op + rd.val * 2 ^ 7 + rs1.val * 2 ^ 15 + x * 2 ^ 20)) :
    bitsAt w 0 7 = op ∧ regAt w 7 = rd ∧ regAt w 15 = rs1 ∧ bitsAt w 20 12 = x := by
  have hw : w.toNat = op + rd.val * 2 ^ 7 + rs1.val * 2 ^ 15 + x * 2 ^ 20 := by
    rw [hw, BitVec.toNat_ofNat]
    omega
  refine ⟨?_, Fin.ext ?_, Fin.ext ?_, ?_⟩ <;> simp only [bitsAt, regAt, hw] <;> omega

/-- The canonical word is one of the words its opcode encodes. -/
theorem EncodedR.canonicalR {op : Nat} {mk : Reg → Reg → Reg → Instr} (h : EncodedR op mk) (hop : op < 128) :
    CanonicalR op mk := by
  intro rd rs1 rs2
  obtain ⟨hopcode, hrd, hrs1, hrs2⟩ := fields_of_eq_ofNat (rd := rd) (rs1 := rs1) (x := rs2.val) hop (by omega) rfl
  have hrs2 : regAt (BitVec.ofNat 32 (op + rd.val * 2 ^ 7 + rs1.val * 2 ^ 15 + rs2.val * 2 ^ 20)) 20 = rs2 := by
    refine Fin.ext ?_
    simp only [bitsAt] at hrs2
    simp only [regAt]
    omega
  rw [h _ hopcode, hrd, hrs1, hrs2]

theorem EncodedI.canonicalI {op : Nat} {mk : Reg → Reg → BitVec 12 → Instr} (h : EncodedI op mk) (hop : op < 128) :
    CanonicalI op mk := by
  intro rd rs1 imm
  obtain ⟨hopcode, hrd, hrs1, himm⟩ := fields_of_eq_ofNat (rd := rd) (rs1 := rs1) hop imm.isLt rfl
  rw [h _ hopcode, hrd, hrs1, himm, BitVec.ofNat_toNat, BitVec.setWidth_eq]

/-! ## The effect of a computational instruction (R120) -/

/-- Writing the result and advancing is the whole effect. -/
theorem State.finish_computes (s : State) (rd : Reg) (v : Word) : ∃ t, s.finish rd v = .next t ∧ Computes s t rd v := by
  refine ⟨(s.writeReg rd v).advance, rfl, ?_⟩
  have hregs : WritesReg s (s.writeReg rd v).advance rd v := fun r =>
    ⟨State.reg_writeReg s rd r v, State.regReadable_writeReg s rd r v⟩
  simp [Computes, hregs, KeepsMemory, KeepsRest]

theorem State.raise_takes (s : State) (c : Cause) : Takes (s.raise c) s c := rfl

section
variable {s : State} {rs1 rs2 : Reg}

theorem State.withRegs_of_canRead (h : s.CanRead [rs1, rs2]) (k : Word → Word → Outcome) :
    s.withRegs rs1 rs2 k = k (s.reg rs1) (s.reg rs2) :=
  State.withRegs_readable (h rs1 (by simp)) (h rs2 (by simp)) k

theorem State.computeReg_computes (h : s.CanRead [rs1, rs2]) (f : Word → Word → Word) (rd : Reg) :
    ∃ t, s.computeReg f rd rs1 rs2 = .next t ∧ Computes s t rd (f (s.reg rs1) (s.reg rs2)) := by
  rw [State.computeReg, State.withRegs_of_canRead h]
  exact s.finish_computes rd _

theorem State.computeImm_computes (h : s.CanRead [rs1]) (f : Word → Word) (rd : Reg) :
    ∃ t, s.computeImm f rd rs1 = .next t ∧ Computes s t rd (f (s.reg rs1)) := by
  rw [State.computeImm, State.withReg_readable (h rs1 (by simp))]
  exact s.finish_computes rd _

end

end Sys2Proof.Machine
end

section
/-! The arithmetic instructions (spec/40_arithmetic.md), and the statements AddSubMul, Addi, MulhIsTheHighHalf, DivRemTruncate and
DivRemCorners. A word is the image of its unsigned and of its signed value under one map to the integers modulo 2^32, which is
why ADD, SUB and MUL need no signed variant. -/

namespace Sys2Proof.Machine

/-! ## Words as integers modulo 2^32 (R8) -/

theorem ofInt_sub {n : Nat} (x y : Int) : BitVec.ofInt n (x - y) = BitVec.ofInt n x - BitVec.ofInt n y := by
  rw [Int.sub_eq_add_neg, BitVec.ofInt_add, BitVec.ofInt_neg, BitVec.sub_eq_add_neg]

/-- A word is its unsigned value modulo 2^32. -/
theorem ofInt_toNat (a : Word) : BitVec.ofInt 32 a.toNat = a := by
  rw [BitVec.ofInt_natCast, BitVec.ofNat_toNat, BitVec.setWidth_eq]

/-! ## High halves (R124) -/

/-- Bits 63:32 of an integer's 64-bit pattern are its quotient by 2^32, rounded down. -/
theorem extractLsb'_high_ofInt (x : Int) : (BitVec.ofInt 64 x).extractLsb' 32 32 = BitVec.ofInt 32 (x / 2 ^ 32) := by
  refine BitVec.eq_of_toNat_eq ?_
  simp only [BitVec.extractLsb'_toNat, BitVec.toNat_ofInt, Nat.shiftRight_eq_div_pow]
  omega

theorem mulHighUnsigned_eq (a b : Word) : mulHighUnsigned a b = (a.setWidth 64 * b.setWidth 64).extractLsb' 32 32 := by
  have hprod : a.setWidth 64 * b.setWidth 64 = BitVec.ofInt 64 (a.toNat * b.toNat) := by
    rw [BitVec.ofInt_mul, BitVec.ofInt_natCast, BitVec.ofInt_natCast, BitVec.ofNat_toNat, BitVec.ofNat_toNat]
  rw [hprod, extractLsb'_high_ofInt, mulHighUnsigned, ← BitVec.ofInt_natCast]
  norm_cast

theorem mulHighSigned_eq (a b : Word) : mulHighSigned a b = (a.signExtend 64 * b.signExtend 64).extractLsb' 32 32 := by
  have hprod : a.signExtend 64 * b.signExtend 64 = BitVec.ofInt 64 (a.toInt * b.toInt) := (BitVec.ofInt_mul _ _).symm
  rw [hprod, extractLsb'_high_ofInt, mulHighSigned]

/-! ## Quotient and remainder (R10) -/

theorem divOverflows_iff {a b : Word} : divOverflows a b = true ↔ a = 0x80000000 ∧ b = 0xFFFFFFFF := by
  simp [divOverflows]

/-- Only -2^31 by -1 has a quotient outside the signed range. -/
theorem quotient_toInt {a b : Word} (h : ¬(a = 0x80000000 ∧ b = 0xFFFFFFFF)) :
    (quotient a b).toInt = a.toInt.tdiv b.toInt := by
  have hfits : (a.sdiv b).toInt = a.toInt.tdiv b.toInt :=
    BitVec.toInt_sdiv_of_ne_or_ne a b (Decidable.not_and_iff_not_or_not.1 h)
  rw [quotient, ← hfits, BitVec.ofInt_toInt]

theorem remainder_toInt (a b : Word) : (remainder a b).toInt = a.toInt.tmod b.toInt := by
  rw [remainder, ← BitVec.toInt_srem, BitVec.ofInt_toInt]

theorem natAbs_tmod_lt (a : Int) {b : Int} (h : b ≠ 0) : (a.tmod b).natAbs < b.natAbs :=
  Int.natAbs_tmod a b ▸ Nat.mod_lt _ (Int.natAbs_pos.2 h)

/-- A truncated remainder is zero or has the dividend's sign. -/
theorem tmod_zero_or_sign (a b : Int) : a.tmod b = 0 ∨ (a.tmod b).sign = a.sign := by
  by_cases h : b ∣ a
  · exact .inl (Int.tmod_eq_zero_of_dvd h)
  · exact .inr (by rw [Int.sign_tmod, if_neg h])

/-! ## The corners of a division (R125, R126, R230) -/

section
variable {s : State} {a b : Word} (rd : Reg) (z o v : Word)

theorem State.divide_regular (hb : b ≠ 0) (h : ¬(a = 0x80000000 ∧ b = 0xFFFFFFFF)) : s.divide rd a b z o v = s.finish rd v := by
  rw [State.divide, if_neg hb, if_neg (mt divOverflows_iff.1 h)]

theorem State.divide_zero_fault (hb : b = 0) (hc : s.cfg.divCorner = .fault) :
    s.divide rd a b z o v = s.raise (.divideByZero s.pc) := by
  rw [State.divide, if_pos hb, hc]

theorem State.divide_zero_riscvValues (hb : b = 0) (hc : s.cfg.divCorner = .riscvValues) :
    s.divide rd a b z o v = s.finish rd z := by
  rw [State.divide, if_pos hb, hc]

theorem State.divide_overflow_fault (h : a = 0x80000000 ∧ b = 0xFFFFFFFF) (hc : s.cfg.divCorner = .fault) :
    s.divide rd a b z o v = s.raise (.divideOverflow s.pc) := by
  have hb : b ≠ 0 := by simp [h.2]
  rw [State.divide, if_neg hb, if_pos (divOverflows_iff.2 h), hc]

theorem State.divide_overflow_riscvValues (h : a = 0x80000000 ∧ b = 0xFFFFFFFF) (hc : s.cfg.divCorner = .riscvValues) :
    s.divide rd a b z o v = s.finish rd o := by
  have hb : b ≠ 0 := by simp [h.2]
  rw [State.divide, if_neg hb, if_pos (divOverflows_iff.2 h), hc]

end

section
variable {s : State} {rs1 rs2 : Reg} (rd : Reg) (h : s.CanRead [rs1, rs2])
include h

theorem exec_div : exec (.div rd rs1 rs2) s =
    s.divide rd (s.reg rs1) (s.reg rs2) 0xFFFFFFFF 0x80000000 (quotient (s.reg rs1) (s.reg rs2)) := by
  simp only [exec, execDiv, State.withRegs_of_canRead h]

theorem exec_rem : exec (.rem rd rs1 rs2) s =
    s.divide rd (s.reg rs1) (s.reg rs2) (s.reg rs1) 0 (remainder (s.reg rs1) (s.reg rs2)) := by
  simp only [exec, execRem, State.withRegs_of_canRead h]

end

/-! ## The statements -/

/-- Settles O21: each result is one ring operation on words, which the map from the integers carries over from both readings. -/
theorem addSubMul : Obligations.AddSubMul := by
  unfold Obligations.AddSubMul
  refine ⟨(encodedR_of_decodeOpcode fun _ => rfl).canonicalR (by decide),
    (encodedR_of_decodeOpcode fun _ => rfl).canonicalR (by decide),
    (encodedR_of_decodeOpcode fun _ => rfl).canonicalR (by decide), fun rd rs1 rs2 s hread => ⟨?add, ?sub, ?mul⟩⟩
  case add =>
    obtain ⟨t, hexec, ht⟩ := State.computeReg_computes hread (fun a b => a + b) rd
    exact ⟨t, _, hexec, ht, BitVec.add_def _ _, by rw [BitVec.ofInt_add, BitVec.ofInt_toInt, BitVec.ofInt_toInt]⟩
  case sub =>
    obtain ⟨t, hexec, ht⟩ := State.computeReg_computes hread (fun a b => a - b) rd
    exact ⟨t, _, hexec, ht, by rw [ofInt_sub, ofInt_toNat, ofInt_toNat],
      by rw [ofInt_sub, BitVec.ofInt_toInt, BitVec.ofInt_toInt]⟩
  case mul =>
    obtain ⟨t, hexec, ht⟩ := State.computeReg_computes hread (fun a b => a * b) rd
    exact ⟨t, _, hexec, ht, by simp [BitVec.ofNat_mul], by rw [BitVec.ofInt_mul, BitVec.ofInt_toInt, BitVec.ofInt_toInt]⟩

/-- Settles O22: the immediate's signed value is added modulo 2^32. -/
theorem addi : Obligations.Addi := by
  unfold Obligations.Addi
  refine ⟨(encodedI_of_decodeOpcode fun _ => rfl).canonicalI (by decide), fun rd rs1 imm s hread => ?_⟩
  have hsum : s.reg rs1 + sext12 imm = BitVec.ofInt 32 ((s.reg rs1).toNat + imm.toInt) := by
    rw [BitVec.ofInt_add, ofInt_toNat, sext12, BitVec.signExtend]
  exact hsum ▸ State.computeImm_computes hread (fun a => a + sext12 imm) rd

/-- Settles O23: under each value of MULH_SIGNEDNESS the model's quotient by 2^32 is the high half of the 64-bit product. -/
theorem mulhIsTheHighHalf : Obligations.MulhIsTheHighHalf := by
  unfold Obligations.MulhIsTheHighHalf
  refine ⟨encodedR_of_decodeOpcode fun _ => rfl, fun rd rs1 rs2 s hread => ?_⟩
  obtain ⟨t, hexec, ht⟩ := State.computeReg_computes hread (mulHigh s.cfg.mulhSignedness) rd
  refine ⟨t, _, hexec, ht, fun hu => ?unsigned, fun hs => ?signed⟩
  case unsigned => rw [hu, mulHigh, mulHighUnsigned_eq]
  case signed => rw [hs, mulHigh, mulHighSigned_eq]

/-- Settles O24: away from the corners the results are the truncated quotient and remainder of the signed values. -/
theorem divRemTruncate : Obligations.DivRemTruncate := by
  unfold Obligations.DivRemTruncate
  refine ⟨encodedR_of_decodeOpcode fun _ => rfl, encodedR_of_decodeOpcode fun _ => rfl, fun rd rs1 rs2 s hread hb hno => ?_⟩
  obtain ⟨t, hdiv, ht⟩ := s.finish_computes rd (quotient (s.reg rs1) (s.reg rs2))
  obtain ⟨u, hrem, hu⟩ := s.finish_computes rd (remainder (s.reg rs1) (s.reg rs2))
  rw [← State.divide_regular rd _ _ _ hb hno, ← exec_div rd hread] at hdiv
  rw [← State.divide_regular rd _ _ _ hb hno, ← exec_rem rd hread] at hrem
  have hb' : (s.reg rs2).toInt ≠ 0 := fun h => hb (BitVec.toInt_inj.1 h)
  refine ⟨t, u, _, _, hdiv, ht, hrem, hu, quotient_toInt hno, ?_⟩
  rw [quotient_toInt hno, remainder_toInt]
  exact ⟨(Int.mul_tdiv_add_tmod _ _).symm, natAbs_tmod_lt _ hb', tmod_zero_or_sign _ _⟩

/-- Settles O25: each corner under each value of DIV_CORNER is one branch of the shared division. -/
theorem divRemCorners : Obligations.DivRemCorners := by
  unfold Obligations.DivRemCorners
  intro rd rs1 rs2 s hread
  rw [exec_div rd hread, exec_rem rd hread]
  refine ⟨fun hb => ⟨fun hc => ?_, fun hc => ?_⟩, fun ho => ⟨fun hc => ?_, fun hc => ?_⟩⟩
  · rw [State.divide_zero_fault _ _ _ _ hb hc, State.divide_zero_fault _ _ _ _ hb hc]
    exact ⟨s.raise_takes _, s.raise_takes _⟩
  · rw [State.divide_zero_riscvValues _ _ _ _ hb hc, State.divide_zero_riscvValues _ _ _ _ hb hc]
    exact ⟨s.finish_computes rd _, s.finish_computes rd _⟩
  · rw [State.divide_overflow_fault _ _ _ _ ho hc, State.divide_overflow_fault _ _ _ _ ho hc]
    exact ⟨s.raise_takes _, s.raise_takes _⟩
  · rw [State.divide_overflow_riscvValues _ _ _ _ ho hc, State.divide_overflow_riscvValues _ _ _ _ ho hc]
    exact ⟨s.finish_computes rd _, s.finish_computes rd _⟩

end Sys2Proof.Machine
end

section
/-! The logical instructions (spec/41_logical.md), and the statements XorOrAnd, OriZeroExtendsXoriSignExtends and
AndiByItsParameter. The two ways of widening an immediate differ above bit 11 alone, and only where bit 11 is set. -/

namespace Sys2Proof.Machine

/-! ## Bits of a widened immediate (R80) -/

theorem getLsbD_zext12 (imm : BitVec 12) {k : Nat} (hk : k < 32) :
    (zext12 imm).getLsbD k = (decide (k < 12) && imm.getLsbD k) := by
  rw [zext12, BitVec.getLsbD_setWidth, decide_eq_true hk, Bool.true_and]
  by_cases h : k < 12
  · simp [h]
  · simp [h, BitVec.getLsbD_of_ge imm k (by omega)]

theorem getLsbD_sext12 (imm : BitVec 12) {k : Nat} (hk : k < 32) : (sext12 imm).getLsbD k = imm.getLsbD (min k 11) := by
  rw [sext12, BitVec.getLsbD_signExtend, decide_eq_true hk, Bool.true_and]
  split
  next h => rw [Nat.min_eq_left (by omega)]
  next h => rw [Nat.min_eq_right (by omega), BitVec.msb_eq_getLsbD_last]

theorem sext12_eq_zext12 {imm : BitVec 12} (h : imm.getLsbD 11 = false) : sext12 imm = zext12 imm :=
  BitVec.signExtend_eq_setWidth_of_msb_false ((BitVec.msb_eq_getLsbD_last imm).trans h)

theorem extend12_cases (e : ImmExt) (imm : BitVec 12) : extend12 e imm = zext12 imm ∨ extend12 e imm = sext12 imm := by
  cases e
  · exact .inr rfl
  · exact .inl rfl

/-! ## The ANDI operand (R134) -/

theorem andiOperand_of_bit11_clear (ext : AndiImmExt) {imm : BitVec 12} (h : imm.getLsbD 11 = false) :
    andiOperand ext imm = some (zext12 imm) := by
  have hbit : ¬imm.getLsbD 11 = true := by rw [h]; decide
  cases ext with
  | sign => exact congrArg some (sext12_eq_zext12 h)
  | zero => rfl
  | free => exact congrArg some (if_neg hbit)
  | notGiven => exact if_neg hbit

theorem andiOperand_free {imm : BitVec 12} (h : imm.getLsbD 11 = true) :
    andiOperand .free imm = some (extend12 Config.andiImmExtFree imm) :=
  congrArg some (if_pos h)

theorem andiOperand_notGiven {imm : BitVec 12} (h : imm.getLsbD 11 = true) : andiOperand .notGiven imm = none := if_pos h

section
variable {s : State} {rs1 : Reg} {imm : BitVec 12} (rd : Reg) (hread : s.CanRead [rs1])
include hread

theorem exec_andi_computes {x : Word} (h : andiOperand s.cfg.andiImmExt imm = some x) :
    ∃ t, exec (.andi rd rs1 imm) s = .next t ∧ Computes s t rd (s.reg rs1 &&& x) := by
  simp only [exec, execAndi, State.withReg_readable (hread rs1 (by simp)), h]
  exact s.finish_computes rd _

theorem exec_andi_refused (h : andiOperand s.cfg.andiImmExt imm = none) :
    exec (.andi rd rs1 imm) s = .refused (.andiImmOpen s.pc) := by
  simp only [exec, execAndi, State.withReg_readable (hread rs1 (by simp)), h, State.stop]

end

/-! ## The statements -/

/-- Settles O26: each is the R-type computation of a bitwise operation. -/
theorem xorOrAnd : Obligations.XorOrAnd := by
  unfold Obligations.XorOrAnd
  refine ⟨(encodedR_of_decodeOpcode fun _ => rfl).canonicalR (by decide),
    (encodedR_of_decodeOpcode fun _ => rfl).canonicalR (by decide),
    (encodedR_of_decodeOpcode fun _ => rfl).canonicalR (by decide), fun rd rs1 rs2 s hread => ⟨?xor, ?or, ?and⟩⟩
  case xor =>
    obtain ⟨t, hexec, ht⟩ := State.computeReg_computes hread (fun a b => a ^^^ b) rd
    exact ⟨t, _, hexec, ht, fun _ => BitVec.getLsbD_xor⟩
  case or =>
    obtain ⟨t, hexec, ht⟩ := State.computeReg_computes hread (fun a b => a ||| b) rd
    exact ⟨t, _, hexec, ht, fun _ => BitVec.getLsbD_or⟩
  case and =>
    obtain ⟨t, hexec, ht⟩ := State.computeReg_computes hread (fun a b => a &&& b) rd
    exact ⟨t, _, hexec, ht, fun _ => BitVec.getLsbD_and⟩

/-- Settles O27: ORI meets the zero-extended immediate bit by bit, XORI the sign-extended one. -/
theorem oriZeroExtendsXoriSignExtends : Obligations.OriZeroExtendsXoriSignExtends := by
  unfold Obligations.OriZeroExtendsXoriSignExtends
  refine ⟨encodedI_of_decodeOpcode fun _ => rfl, encodedI_of_decodeOpcode fun _ => rfl,
    fun rd rs1 imm s hread => ⟨?ori, ?xori⟩⟩
  case ori =>
    obtain ⟨t, hexec, ht⟩ := State.computeImm_computes hread (fun a => a ||| zext12 imm) rd
    exact ⟨t, _, hexec, ht, fun k hk => by rw [BitVec.getLsbD_or, getLsbD_zext12 imm hk]⟩
  case xori =>
    obtain ⟨t, hexec, ht⟩ := State.computeImm_computes hread (fun a => a ^^^ sext12 imm) rd
    exact ⟨t, _, hexec, ht, fun k hk => by rw [BitVec.getLsbD_xor, getLsbD_sext12 imm hk]⟩

/-- Settles O28: with bit 11 clear both widenings are one operand; with it set each value of ANDI_IMM_EXT gives its own. -/
theorem andiByItsParameter : Obligations.AndiByItsParameter := by
  unfold Obligations.AndiByItsParameter
  refine ⟨encodedI_of_decodeOpcode fun _ => rfl, fun rd rs1 imm s hread =>
    ⟨fun hclear => exec_andi_computes rd hread (andiOperand_of_bit11_clear _ hclear),
      fun hset => ⟨fun hc => ?zero, fun hc => ?sign, fun hc => ?free, fun hc => ?notGiven⟩⟩⟩
  case zero => exact exec_andi_computes rd hread (by rw [hc]; rfl)
  case sign => exact exec_andi_computes rd hread (by rw [hc]; rfl)
  case free =>
    obtain ⟨t, hexec, ht⟩ := exec_andi_computes rd hread (hc ▸ andiOperand_free hset)
    exact ⟨t, _, hexec, ht, (extend12_cases _ imm).imp (congrArg _) (congrArg _)⟩
  case notGiven => exact exec_andi_refused rd hread (hc ▸ andiOperand_notGiven hset)

end Sys2Proof.Machine
end

section
/-! Loading constants (spec/30_encoding.md R96, R97), and the statement LiAndLaLoadAnyConstant. LUI leaves the low twelve bits
zero and ORI fills them with its zero-extended immediate; one ADDI suffices where a word is the sign extension of its low
twelve bits. -/

namespace Sys2Proof.Machine

/-! ## A constant from its fields -/

/-- A word is its upper 20 bits or its zero-extended lower 12. -/
theorem upper20_or_zext12 (v : Word) : upper20 (v.extractLsb' 12 20) ||| zext12 (v.extractLsb' 0 12) = v := by
  refine BitVec.eq_of_getLsbD_eq fun k hk => ?_
  rw [BitVec.getLsbD_or, getLsbD_zext12 _ hk, upper20, BitVec.getLsbD_append]
  by_cases h : k < 12
  · simp [h]
  · simp [h, show k - 12 < 20 by omega, show 12 + (k - 12) = k by omega]

/-- A word in the signed 12-bit range is the sign extension of its low 12 bits. -/
theorem sext12_extractLsb' {v : Word} (h : -2048 ≤ v.toInt ∧ v.toInt ≤ 2047) : sext12 (v.extractLsb' 0 12) = v := by
  refine BitVec.eq_of_toInt_eq ?_
  rw [sext12, BitVec.toInt_signExtend_of_le (by decide)]
  simp only [BitVec.toInt_eq_toNat_cond, BitVec.extractLsb'_toNat, Nat.shiftRight_zero] at *
  omega

/-! ## Two writes of one register -/

section
variable {s u t : State} {rd : Reg} {a b : Word}

/-- The second of two writes stays. -/
theorem WritesReg.trans (h : WritesReg s u rd a) (h' : WritesReg u t rd b) : WritesReg s t rd b := by
  intro r
  obtain ⟨hreg, hread⟩ := h r
  obtain ⟨hreg', hread'⟩ := h' r
  rw [hreg', hread', hreg, hread, Bool.or_assoc, Bool.or_self]
  exact ⟨by split <;> rfl, rfl⟩

/-- What is written to r0 is discarded, so it may be any value. -/
theorem WritesReg.of_eq (h : WritesReg s t rd a) (hab : rd ≠ 0 → a = b) : WritesReg s t rd b := by
  by_cases h0 : rd = 0
  · simpa [WritesReg, h0] using h
  · exact hab h0 ▸ h

theorem KeepsMemory.trans (h : KeepsMemory s u) (h' : KeepsMemory u t) : KeepsMemory s t := fun x => (h' x).trans (h x)

theorem KeepsRest.trans (h : KeepsRest s u) (h' : KeepsRest u t) : KeepsRest s t := by
  obtain ⟨hstatus, hio, hlog, hcfg⟩ := h
  obtain ⟨hstatus', hio', hlog', hcfg'⟩ := h'
  exact ⟨hstatus'.trans hstatus, hio'.trans hio, hlog'.trans hlog, hcfg'.trans hcfg⟩

theorem WritesReg.canRead (h : WritesReg s t rd a) : t.CanRead [rd] := by
  simp [State.CanRead, (h rd).2]

theorem WritesReg.reg_self (h : WritesReg s t rd a) (h0 : rd ≠ 0) : t.reg rd = a := by
  simp [(h rd).1, h0]

end

/-! ## The two expansions -/

/-- An instruction that completes is followed by the rest. -/
theorem execAll_cons_next {i : Instr} {s t : State} (h : exec i s = .next t) (is : List Instr) :
    execAll (i :: is) s = execAll is t := by
  simp only [execAll, h]

theorem exec_lui (rd : Reg) (imm : BitVec 20) (s : State) : exec (.lui rd imm) s = s.finish rd (upper20 imm) := rfl

/-- LUI and ORI load any constant: what ORI reads back from rd is the upper part that LUI wrote, unless rd is r0, where nothing
is kept. -/
theorem execAll_luiOri (rd : Reg) (v : Word) (s : State) :
    ∃ t, execAll (luiOri rd v) s = .next t ∧ WritesReg s t rd v ∧ KeepsMemory s t ∧ KeepsRest s t ∧ t.pc = s.pc + 8 := by
  obtain ⟨u, hlui, hwrite, hpc, hmem, hrest⟩ := s.finish_computes rd (upper20 (v.extractLsb' 12 20))
  obtain ⟨t, hori, hwrite', hpc', hmem', hrest'⟩ :=
    State.computeImm_computes hwrite.canRead (fun a => a ||| zext12 (v.extractLsb' 0 12)) rd
  have hvalue (h0 : rd ≠ 0) : u.reg rd ||| zext12 (v.extractLsb' 0 12) = v := by
    rw [hwrite.reg_self h0, upper20_or_zext12]
  refine ⟨t, ?_, (hwrite.trans hwrite').of_eq hvalue, hmem.trans hmem', hrest.trans hrest', ?_⟩
  · exact (execAll_cons_next ((exec_lui _ _ _).trans hlui) _).trans ((execAll_singleton _ u).trans hori)
  · rw [hpc', hpc, BitVec.add_assoc]
    rfl

/-- ADDI from r0 loads a constant in the signed 12-bit range. -/
theorem exec_addi_zero (rd : Reg) {v : Word} (s : State) (h : -2048 ≤ v.toInt ∧ v.toInt ≤ 2047) :
    ∃ t, exec (.addi rd 0 (v.extractLsb' 0 12)) s = .next t ∧ Computes s t rd v := by
  have hread : s.CanRead [0] := by simp [State.CanRead]
  have hsum : s.reg 0 + sext12 (v.extractLsb' 0 12) = v := by
    rw [State.reg_zero, sext12_extractLsb' h]
    exact BitVec.zero_add v
  obtain ⟨t, hexec, ht⟩ := State.computeImm_computes hread (fun a => a + sext12 (v.extractLsb' 0 12)) rd
  exact ⟨t, hexec, hsum ▸ ht⟩

/-! ## The statement -/

/-- Settles O57: `la` is LUI with ORI, and so is `li` outside the signed 12-bit range, within which it is one ADDI. -/
theorem liAndLaLoadAnyConstant : Obligations.LiAndLaLoadAnyConstant := by
  unfold Obligations.LiAndLaLoadAnyConstant
  refine fun rd v s => ⟨?li, execAll_luiOri rd v s⟩
  case li =>
    by_cases h : -2048 ≤ v.toInt ∧ v.toInt ≤ 2047
    · have hexpand : (Pseudo.li rd v).expand = [.addi rd 0 (v.extractLsb' 0 12)] := if_pos h
      obtain ⟨t, hexec, hwrite, hpc, hmem, hrest⟩ := exec_addi_zero rd s h
      rw [hexpand, execAll_singleton]
      exact ⟨t, hexec, hwrite, hmem, hrest, hpc⟩
    · have hexpand : (Pseudo.li rd v).expand = luiOri rd v := if_neg h
      rw [hexpand]
      exact execAll_luiOri rd v s

end Sys2Proof.Machine
end

section
/-! The shifts (spec/42_shift.md), and the statements RegisterShifts, ImmediateShifts and ShiftAmountRule. The six instructions
share State.shift, so SHAMT_RULE is treated there once for all of them. -/

namespace Sys2Proof.Machine

/-! ## The shifts of the integers are the shifts of the bits (R9) -/

theorem shl_eq (v : Word) (k : Nat) : shl v k = v <<< k := by
  rw [shl, ← Nat.shiftLeft_eq]
  rfl

theorem shrU_eq (v : Word) (k : Nat) : shrU v k = v >>> k := by
  rw [shrU, ← Nat.shiftRight_eq_div_pow, ← BitVec.toNat_ushiftRight, BitVec.ofNat_toNat, BitVec.setWidth_eq]

theorem shrS_eq (v : Word) (k : Nat) : shrS v k = v.sshiftRight k := by
  rw [shrS, BitVec.sshiftRight, Int.shiftRight_eq_div_pow]
  norm_cast

/-! ## The amount (R140) -/

theorem shiftAmount_eq (x : Word) : shiftAmount x = (x.extractLsb' 0 5).toNat := by
  rw [shiftAmount, BitVec.extractLsb'_toNat, Nat.shiftRight_zero]

theorem zext12_toNat (imm : BitVec 12) : (zext12 imm).toNat = imm.toNat :=
  BitVec.toNat_setWidth_of_le (by decide)

theorem shiftAmount_zext12 (imm : BitVec 12) : shiftAmount (zext12 imm) = (imm.extractLsb' 0 5).toNat := by
  rw [shiftAmount, zext12_toNat, BitVec.extractLsb'_toNat, Nat.shiftRight_zero]

theorem overShift_iff {x : Word} : overShift x = true ↔ 32 ≤ x.toNat := decide_eq_true_iff

/-! ## The shared shift under each value of SHAMT_RULE (R140, R232) -/

/-- The same machine launched with SHAMT_RULE = mask5. -/
def State.underMask5 (s : State) : State := { s with cfg := { s.cfg with shamtRule := .mask5 } }

theorem State.finish_underMask5 (s : State) (rd : Reg) (v : Word) :
    s.underMask5.finish rd v = .next (s.writeReg rd v).advance.underMask5 := by
  unfold State.finish State.writeReg
  split <;> rfl

section
variable {s : State} (f : Word → Nat → Word) (rd : Reg) (v : Word) {x : Word}

theorem State.shift_mask5 (hc : s.cfg.shamtRule = .mask5) : s.shift f rd v x = s.finish rd (f v (shiftAmount x)) := by
  rw [State.shift, hc]

theorem State.shift_over31 (hc : s.cfg.shamtRule = .faultIfOver31) (hx : 32 ≤ x.toNat) :
    s.shift f rd v x = s.raise (.shiftAmountOutOfRange s.pc) := by
  rw [State.shift, hc]
  exact if_pos (overShift_iff.2 hx)

theorem State.shift_upTo31 (hc : s.cfg.shamtRule = .faultIfOver31) (hx : x.toNat < 32) :
    s.shift f rd v x = s.finish rd (f v (shiftAmount x)) := by
  rw [State.shift, hc]
  exact if_neg (mt overShift_iff.1 (Nat.not_le.2 hx))

/-- Under `mask5` the whole effect is the shift by the masked amount. -/
theorem State.shift_computes (hc : s.cfg.shamtRule = .mask5) :
    ∃ t, s.shift f rd v x = .next t ∧ Computes s t rd (f v (shiftAmount x)) := by
  rw [State.shift_mask5 f rd v hc]
  exact s.finish_computes rd _

end

/-- An instruction that is the shared shift obeys SHAMT_RULE = `fault-if-over-31`. -/
theorem State.shift_faultIfOver31 {s : State} {f : Word → Nat → Word} {rd : Reg} {v x : Word} {i : Instr}
    (hc : s.cfg.shamtRule = .faultIfOver31) (hs : exec i s = s.shift f rd v x)
    (hmask : exec i s.underMask5 = s.underMask5.shift f rd v x) :
    (32 ≤ x.toNat → Takes (exec i s) s (.shiftAmountOutOfRange s.pc)) ∧
    (x.toNat < 32 → ∃ t, exec i s = .next t ∧ exec i s.underMask5 = .next t.underMask5) := by
  rw [hs, hmask]
  refine ⟨fun hx => ?out, fun hx => ⟨_, State.shift_upTo31 f rd v hc hx, ?masked⟩⟩
  case out => exact State.shift_over31 f rd v hc hx ▸ s.raise_takes _
  case masked => exact (State.shift_mask5 f rd v rfl).trans (s.finish_underMask5 rd _)

/-! ## The six instructions, their sources readable (R141 to R146) -/

section
variable {s : State} {rs1 rs2 : Reg} (rd : Reg) (imm : BitVec 12)

theorem exec_sll (h : s.CanRead [rs1, rs2]) : exec (.sll rd rs1 rs2) s = s.shift shl rd (s.reg rs1) (s.reg rs2) := by
  simp only [exec, execSll, State.withRegs_of_canRead h]

theorem exec_srl (h : s.CanRead [rs1, rs2]) : exec (.srl rd rs1 rs2) s = s.shift shrU rd (s.reg rs1) (s.reg rs2) := by
  simp only [exec, execSrl, State.withRegs_of_canRead h]

theorem exec_sra (h : s.CanRead [rs1, rs2]) : exec (.sra rd rs1 rs2) s = s.shift shrS rd (s.reg rs1) (s.reg rs2) := by
  simp only [exec, execSra, State.withRegs_of_canRead h]

theorem exec_slli (h : s.CanRead [rs1]) : exec (.slli rd rs1 imm) s = s.shift shl rd (s.reg rs1) (zext12 imm) := by
  simp only [exec, execSlli, State.withReg_readable (h rs1 (by simp))]

theorem exec_srli (h : s.CanRead [rs1]) : exec (.srli rd rs1 imm) s = s.shift shrU rd (s.reg rs1) (zext12 imm) := by
  simp only [exec, execSrli, State.withReg_readable (h rs1 (by simp))]

theorem exec_srai (h : s.CanRead [rs1]) : exec (.srai rd rs1 imm) s = s.shift shrS rd (s.reg rs1) (zext12 imm) := by
  simp only [exec, execSrai, State.withReg_readable (h rs1 (by simp))]

end

/-- Each register shift is the shared one with a function of its own. -/
theorem exec_registerShift {i : Instr} {rd rs1 rs2 : Reg} (hi : i ∈ [Instr.sll rd rs1 rs2, .srl rd rs1 rs2, .sra rd rs1 rs2]) :
    ∃ f, ∀ s : State, s.CanRead [rs1, rs2] → exec i s = s.shift f rd (s.reg rs1) (s.reg rs2) := by
  simp only [List.mem_cons, List.not_mem_nil, or_false] at hi
  obtain rfl | rfl | rfl := hi
  · exact ⟨shl, fun _ => exec_sll rd⟩
  · exact ⟨shrU, fun _ => exec_srl rd⟩
  · exact ⟨shrS, fun _ => exec_sra rd⟩

/-- Each immediate shift is the shared one with the zero-extended immediate as its amount. -/
theorem exec_immediateShift {i : Instr} {rd rs1 : Reg} {imm : BitVec 12}
    (hi : i ∈ [Instr.slli rd rs1 imm, .srli rd rs1 imm, .srai rd rs1 imm]) :
    ∃ f, ∀ s : State, s.CanRead [rs1] → exec i s = s.shift f rd (s.reg rs1) (zext12 imm) := by
  simp only [List.mem_cons, List.not_mem_nil, or_false] at hi
  obtain rfl | rfl | rfl := hi
  · exact ⟨shl, fun _ => exec_slli rd imm⟩
  · exact ⟨shrU, fun _ => exec_srli rd imm⟩
  · exact ⟨shrS, fun _ => exec_srai rd imm⟩

/-! ## The statements -/

/-- Settles O29: each is the shared shift under `mask5`, with the shift of the bits that its integer function is. -/
theorem registerShifts : Obligations.RegisterShifts := by
  unfold Obligations.RegisterShifts
  refine ⟨encodedR_of_decodeOpcode fun _ => rfl, encodedR_of_decodeOpcode fun _ => rfl, encodedR_of_decodeOpcode fun _ => rfl,
    fun rd rs1 rs2 s hread hc => ?_⟩
  rw [exec_sll rd hread, exec_srl rd hread, exec_sra rd hread, ← shl_eq, ← shrU_eq, ← shrS_eq, ← shiftAmount_eq]
  exact ⟨State.shift_computes shl rd _ hc, State.shift_computes shrU rd _ hc, State.shift_computes shrS rd _ hc⟩

/-- Settles O30: as the register shifts, the amount now being the low five bits of the zero-extended immediate. -/
theorem immediateShifts : Obligations.ImmediateShifts := by
  unfold Obligations.ImmediateShifts
  refine ⟨encodedI_of_decodeOpcode fun _ => rfl, encodedI_of_decodeOpcode fun _ => rfl, encodedI_of_decodeOpcode fun _ => rfl,
    fun rd rs1 imm s hread hc => ?_⟩
  rw [exec_slli rd imm hread, exec_srli rd imm hread, exec_srai rd imm hread, ← shl_eq, ← shrU_eq, ← shrS_eq,
    ← shiftAmount_zext12]
  exact ⟨State.shift_computes shl rd _ hc, State.shift_computes shrU rd _ hc, State.shift_computes shrS rd _ hc⟩

/-- Settles O31: SHAMT_RULE changes no register, so both runs are the shared shift of the same operands. -/
theorem shiftAmountRule : Obligations.ShiftAmountRule := by
  unfold Obligations.ShiftAmountRule
  refine fun rd rs1 rs2 imm s hc => ⟨fun i hi hread => ?register, fun i hi hread => ?immediate⟩
  case register =>
    obtain ⟨f, hf⟩ := exec_registerShift hi
    exact State.shift_faultIfOver31 hc (hf s hread) (hf s.underMask5 hread)
  case immediate =>
    obtain ⟨f, hf⟩ := exec_immediateShift hi
    rw [← zext12_toNat]
    exact State.shift_faultIfOver31 hc (hf s hread) (hf s.underMask5 hread)

end Sys2Proof.Machine
end

section
/-! The comparisons (spec/43_comparison.md), and the statements SltSltuSeqSne, SgtSleSgeSignedAndUnsigned and SltiSltiu. Each
writes the truth word of one of five conditions, `>` and `≥` being `<` and `≤` with the sources exchanged. -/

namespace Sys2Proof.Machine

/-- The canonical word of an opcode that the opcode map gives three register fields (R72, R88). -/
theorem canonicalR_of_decodeOpcode {op : Nat} {mk : Reg → Reg → Reg → Instr} (hop : op < 128)
    (h : ∀ w, decodeOpcode op w = .ok (mk (rdOf w) (rs1Of w) (rs2Of w))) : CanonicalR op mk :=
  (encodedR_of_decodeOpcode h).canonicalR hop

/-! ## The conditions (R7, R150) -/

section
variable {a b : Word}

@[simp] theorem ltSigned_iff : ltSigned a b = true ↔ a.toInt < b.toInt := decide_eq_true_iff

@[simp] theorem ltUnsigned_iff : ltUnsigned a b = true ↔ a.toNat < b.toNat := decide_eq_true_iff

@[simp] theorem leSigned_iff : leSigned a b = true ↔ a.toInt ≤ b.toInt := decide_eq_true_iff

@[simp] theorem leUnsigned_iff : leUnsigned a b = true ↔ a.toNat ≤ b.toNat := decide_eq_true_iff

@[simp] theorem equal_iff : equal a b = true ↔ a = b := beq_iff_eq

theorem not_equal_iff : (!equal a b) = true ↔ a ≠ b := by
  rw [Bool.not_eq_true', ← Bool.not_eq_true, equal_iff]

end

theorem truthWord_eq_ite {c : Bool} {p : Prop} [Decidable p] (h : c = true ↔ p) : truthWord c = if p then 1 else 0 :=
  ite_congr (propext h) (fun _ => rfl) fun _ => rfl

/-! ## The immediate as a number (R155, R156) -/

theorem sext12_toInt (imm : BitVec 12) : (sext12 imm).toInt = imm.toInt :=
  BitVec.toInt_signExtend_of_le (by decide)

/-! ## The effect of a comparison whose sources can be read (R150) -/

section
variable {s : State} {rs1 rs2 : Reg} {p : Prop} [Decidable p] (rd : Reg)

theorem State.compareReg_computes (h : s.CanRead [rs1, rs2]) (cond : Word → Word → Bool)
    (hcond : cond (s.reg rs1) (s.reg rs2) = true ↔ p) :
    ∃ t, s.computeReg (fun a b => truthWord (cond a b)) rd rs1 rs2 = .next t ∧ Computes s t rd (if p then 1 else 0) := by
  rw [← truthWord_eq_ite hcond]
  exact State.computeReg_computes h (fun a b => truthWord (cond a b)) rd

theorem State.compareImm_computes (h : s.CanRead [rs1]) (cond : Word → Bool) (hcond : cond (s.reg rs1) = true ↔ p) :
    ∃ t, s.computeImm (fun a => truthWord (cond a)) rd rs1 = .next t ∧ Computes s t rd (if p then 1 else 0) := by
  rw [← truthWord_eq_ite hcond]
  exact State.computeImm_computes h (fun a => truthWord (cond a)) rd

/-- SLTIU compares with the immediate that SLTIU_IMM_EXT widens to `x` (R156). -/
theorem exec_sltiu_computes {imm : BitVec 12} {x : Word} (h : s.CanRead [rs1]) (hx : extend12 s.cfg.sltiuImmExt imm = x) :
    ∃ t, exec (.sltiu rd rs1 imm) s = .next t ∧ Computes s t rd (if (s.reg rs1).toNat < x.toNat then 1 else 0) := by
  subst hx
  exact State.compareImm_computes rd h (fun a => ltUnsigned a (extend12 s.cfg.sltiuImmExt imm)) ltUnsigned_iff

end

/-! ## The statements -/

/-- Settles O32: each is the R-type comparison by its own condition. -/
theorem sltSltuSeqSne : Obligations.SltSltuSeqSne := by
  unfold Obligations.SltSltuSeqSne
  refine ⟨canonicalR_of_decodeOpcode (by decide) fun _ => rfl,
    canonicalR_of_decodeOpcode (by decide) fun _ => rfl,
    canonicalR_of_decodeOpcode (by decide) fun _ => rfl,
    canonicalR_of_decodeOpcode (by decide) fun _ => rfl,
    fun rd rs1 rs2 s hread => ⟨?slt, ?sltu, ?seq, ?sne⟩⟩
  case slt => exact State.compareReg_computes rd hread ltSigned ltSigned_iff
  case sltu => exact State.compareReg_computes rd hread ltUnsigned ltUnsigned_iff
  case seq => exact State.compareReg_computes rd hread equal equal_iff
  case sne => exact State.compareReg_computes rd hread (fun a b => !equal a b) not_equal_iff

/-- Settles O33: each is the R-type comparison by `<` or `≤`, the sources exchanged for SGT, SGTU, SGE and SGEU. -/
theorem sgtSleSgeSignedAndUnsigned : Obligations.SgtSleSgeSignedAndUnsigned := by
  unfold Obligations.SgtSleSgeSignedAndUnsigned
  refine ⟨canonicalR_of_decodeOpcode (by decide) fun _ => rfl,
    canonicalR_of_decodeOpcode (by decide) fun _ => rfl,
    canonicalR_of_decodeOpcode (by decide) fun _ => rfl,
    canonicalR_of_decodeOpcode (by decide) fun _ => rfl,
    canonicalR_of_decodeOpcode (by decide) fun _ => rfl,
    canonicalR_of_decodeOpcode (by decide) fun _ => rfl,
    fun rd rs1 rs2 s hread => ⟨?sgt, ?sgtu, ?sle, ?sleu, ?sge, ?sgeu⟩⟩
  case sgt => exact State.compareReg_computes rd hread (fun a b => ltSigned b a) ltSigned_iff
  case sgtu => exact State.compareReg_computes rd hread (fun a b => ltUnsigned b a) ltUnsigned_iff
  case sle => exact State.compareReg_computes rd hread leSigned leSigned_iff
  case sleu => exact State.compareReg_computes rd hread leUnsigned leUnsigned_iff
  case sge => exact State.compareReg_computes rd hread (fun a b => leSigned b a) leSigned_iff
  case sgeu => exact State.compareReg_computes rd hread (fun a b => leUnsigned b a) leUnsigned_iff

/-- Settles O34: SLTI's widened immediate keeps its signed value; SLTIU_IMM_EXT chooses SLTIU's, and zero-extension keeps the
unsigned one. -/
theorem sltiSltiu : Obligations.SltiSltiu := by
  unfold Obligations.SltiSltiu
  refine ⟨encodedI_of_decodeOpcode fun _ => rfl, encodedI_of_decodeOpcode fun _ => rfl,
    fun rd rs1 imm s hread => ⟨?slti, fun hc => ?sign, fun hc => ?zero⟩⟩
  case slti =>
    rw [← sext12_toInt]
    exact State.compareImm_computes rd hread (fun a => ltSigned a (sext12 imm)) ltSigned_iff
  case sign => exact exec_sltiu_computes rd hread (by rw [hc]; rfl)
  case zero =>
    rw [← zext12_toNat]
    exact exec_sltiu_computes rd hread (by rw [hc]; rfl)

end Sys2Proof.Machine
end

section
/-! Where an instruction leaves the pc (spec/10_state.md R26), and the statement PcAdvancesOrTransfers. Each shared operation is
given the one pc at which it can leave the machine running; an instruction takes its pc from the operation that it is. -/

namespace Sys2Proof.Machine

/-! ## The pc at which an outcome leaves the machine running -/

/-- Where the outcome is a next state that still runs, its pc is `p`. -/
def RunsOnAt (o : Outcome) (p : Word) : Prop := ∀ t, o = .next t → t.status = .running → t.pc = p

theorem RunsOnAt.next {t : State} {p : Word} (h : t.pc = p) : RunsOnAt (.next t) p := by
  rintro _ ⟨⟩ -
  exact h

theorem RunsOnAt.ite {c : Prop} [Decidable c] {o o' : Outcome} {p : Word} (h : RunsOnAt o p) (h' : RunsOnAt o' p) :
    RunsOnAt (if c then o else o') p := by
  split
  · exact h
  · exact h'

section
variable (s : State) {p : Word}

/-- A fault does not leave the machine running (R234). -/
theorem State.raise_runsOnAt (c : Cause) : RunsOnAt (s.raise c) p := by
  rintro _ ⟨⟩ ⟨⟩

theorem State.stop_runsOnAt (e : Stop) : RunsOnAt (s.stop e) p := by
  cases e with
  | raise c => exact s.raise_runsOnAt c
  | refuse r => rintro _ ⟨⟩

theorem State.halt_runsOnAt : RunsOnAt (.next s.halt) p := by
  rintro _ ⟨⟩ ⟨⟩

/-! ## Reading operands (R34) -/

variable {s}

theorem RunsOnAt.withReg {r : Reg} {k : Word → Outcome} (h : RunsOnAt (k (s.reg r)) p) : RunsOnAt (s.withReg r k) p := by
  obtain hk | hraise := s.withReg_cases r k
  · exact hk ▸ h
  · exact hraise ▸ s.raise_runsOnAt _

theorem RunsOnAt.withRegs {r q : Reg} {k : Word → Word → Outcome} (h : RunsOnAt (k (s.reg r) (s.reg q)) p) :
    RunsOnAt (s.withRegs r q k) p := by
  obtain hk | ⟨c, hraise⟩ := s.withRegs_cases r q k
  · exact hk ▸ h
  · exact hraise ▸ s.raise_runsOnAt c

end

/-! ## Computations -/

section
variable (s : State) (rd rs1 rs2 : Reg)

theorem State.finish_runsOnAt (v : Word) : RunsOnAt (s.finish rd v) (s.pc + 4) := .next (by simp)

theorem State.computeReg_runsOnAt (f : Word → Word → Word) : RunsOnAt (s.computeReg f rd rs1 rs2) (s.pc + 4) :=
  .withRegs (s.finish_runsOnAt rd _)

theorem State.computeImm_runsOnAt (f : Word → Word) : RunsOnAt (s.computeImm f rd rs1) (s.pc + 4) :=
  .withReg (s.finish_runsOnAt rd _)

theorem State.divide_runsOnAt (a b z o v : Word) : RunsOnAt (s.divide rd a b z o v) (s.pc + 4) := by
  unfold State.divide
  refine .ite ?_ (.ite ?_ (s.finish_runsOnAt rd v))
  all_goals
    cases s.cfg.divCorner with
    | fault => exact s.raise_runsOnAt _
    | riscvValues => exact s.finish_runsOnAt rd _

theorem State.shift_runsOnAt (f : Word → Nat → Word) (v x : Word) : RunsOnAt (s.shift f rd v x) (s.pc + 4) := by
  unfold State.shift
  cases s.cfg.shamtRule with
  | mask5 => exact s.finish_runsOnAt rd _
  | faultIfOver31 => exact .ite (s.raise_runsOnAt _) (s.finish_runsOnAt rd _)

theorem execAndi_runsOnAt (imm : BitVec 12) : RunsOnAt (execAndi rd rs1 imm s) (s.pc + 4) := by
  refine .withReg ?_
  cases andiOperand s.cfg.andiImmExt imm with
  | some x => exact s.finish_runsOnAt rd _
  | none => exact s.stop_runsOnAt _

theorem execAssertEq_runsOnAt : RunsOnAt (execAssertEq rs1 rs2 s) (s.pc + 4) :=
  .withRegs (.ite (.next s.advance_pc) (s.raise_runsOnAt _))

end

/-! ## Loads and stores: an access moves no pc -/

theorem State.readPlace_pc {s t : State} {p : Word × Width} {bs : List Byte} (h : s.readPlace p = .ok (t, bs)) :
    t.pc = s.pc := by
  unfold State.readPlace at h
  split at h
  · cases h
    rfl
  all_goals
    split at h
    · cases h
    · cases h
      rfl

theorem State.readPlaces_pc {ps : List (Word × Width)} {s t : State} {bs : List Byte} (h : s.readPlaces ps = .ok (t, bs)) :
    t.pc = s.pc := by
  induction ps generalizing s bs with
  | nil =>
    cases h
    rfl
  | cons p ps ih =>
    simp only [State.readPlaces] at h
    split at h
    · cases h
    next hplace =>
      split at h
      · cases h
      next hplaces =>
        cases h
        exact (ih hplaces).trans (State.readPlace_pc hplace)

theorem State.memRead_pc {s t : State} {a v : Word} {w : Width} (h : s.memRead a w = .ok (t, v)) : t.pc = s.pc := by
  unfold State.memRead at h
  split at h
  · cases h
  · split at h
    · cases h
    next hplaces =>
      cases h
      exact State.readPlaces_pc hplaces

theorem State.writePlaces_pc (ps : List (Word × Width)) (s : State) (bs : List Byte) : (s.writePlaces ps bs).pc = s.pc := by
  induction ps generalizing s bs with
  | nil => rfl
  | cons p ps ih => rw [State.writePlaces, ih, State.writePlace_pc]

theorem State.memWrite_pc {s t : State} {a v : Word} {w : Width} (h : s.memWrite a w v = .ok t) : t.pc = s.pc := by
  unfold State.memWrite at h
  split at h
  · cases h
  · cases h
    exact State.writePlaces_pc _ s _

section
variable (s : State) (a : Word) (w : Width)

theorem State.load_runsOnAt (rd : Reg) (ext : Word → Word) : RunsOnAt (s.load rd a w ext) (s.pc + 4) := by
  obtain ⟨t, v, hread, hload⟩ | ⟨e, -, hload⟩ := s.load_cases rd a w ext
  · exact hload ▸ .next (by simp [State.memRead_pc hread])
  · exact hload ▸ s.stop_runsOnAt e

theorem State.store_runsOnAt (v : Word) : RunsOnAt (s.store a w v) (s.pc + 4) := by
  obtain ⟨t, hwrite, hstore⟩ | ⟨e, -, hstore⟩ := s.store_cases a w v
  · exact hstore ▸ .next (by simp [State.memWrite_pc hwrite])
  · exact hstore ▸ s.stop_runsOnAt e

end

/-! ## Transfers -/

theorem State.branch_runsOnAt (s : State) (cond : Word → Word → Bool) (rs1 rs2 : Reg) (imm : BitVec 13) :
    RunsOnAt (s.branch cond rs1 rs2 imm)
      (if cond (s.reg rs1) (s.reg rs2) then s.pc + imm.signExtend 32 else s.pc + 4) :=
  .withRegs (.next (apply_ite State.pc _ _ _))

/-- A branch either goes on to the next instruction or transfers to its target. -/
theorem State.branch_advances_or_transfers {s t : State} {cond : Word → Word → Bool} {rs1 rs2 : Reg} {imm : BitVec 13}
    (h : s.branch cond rs1 rs2 imm = .next t) (hrun : t.status = .running) :
    t.pc = s.pc + 4 ∨ t.pc = s.pc + imm.signExtend 32 := by
  have hpc := s.branch_runsOnAt cond rs1 rs2 imm t h hrun
  split at hpc
  · exact .inr hpc
  · exact .inl hpc

theorem execJalr_runsOnAt (rd rs1 : Reg) (imm : BitVec 12) (s : State) :
    RunsOnAt (execJalr rd rs1 imm s) (s.reg rs1 + imm.signExtend 32) :=
  .withReg (.next (s.link_pc rd _))

/-! ## The statement -/

/-- Settles O10: every instruction but the transfers is a shared operation that runs on at pc + 4, or HALT, which does not run
on. -/
theorem pcAdvancesOrTransfers : Obligations.PcAdvancesOrTransfers := by
  unfold Obligations.PcAdvancesOrTransfers
  intro i s t _ hexec hrun
  have hpc {p : Word} (h : RunsOnAt (exec i s) p) : t.pc = p := h t hexec hrun
  cases i <;> simp only [exec] at hexec hpc
  case add | sub | mul | mulh | xor | or | and | slt | sltu | seq | sne | sgt | sgtu | sle | sleu | sge | sgeu =>
    exact .inl (hpc (s.computeReg_runsOnAt _ _ _ _))
  case addi | ori | xori | slti | sltiu => exact .inl (hpc (s.computeImm_runsOnAt _ _ _))
  case andi rd rs1 imm => exact .inl (hpc (execAndi_runsOnAt s rd rs1 imm))
  case lui rd imm => exact .inl (hpc (s.finish_runsOnAt rd _))
  case div rd _ _ | rem rd _ _ => exact .inl (hpc (.withRegs (s.divide_runsOnAt rd _ _ _ _ _)))
  case sll rd _ _ | srl rd _ _ | sra rd _ _ => exact .inl (hpc (.withRegs (s.shift_runsOnAt rd _ _ _)))
  case slli rd _ _ | srli rd _ _ | srai rd _ _ => exact .inl (hpc (.withReg (s.shift_runsOnAt rd _ _ _)))
  case ldb rd _ _ | ldh rd _ _ | ldw rd _ _ | ldbu rd _ _ | ldhu rd _ _ =>
    exact .inl (hpc (.withReg (s.load_runsOnAt _ _ rd _)))
  case stb | sth | stw => exact .inl (hpc (.withRegs (s.store_runsOnAt _ _ _)))
  case assertEq rs1 rs2 => exact .inl (hpc (execAssertEq_runsOnAt s rs1 rs2))
  case nop => exact .inl (hpc (.next s.advance_pc))
  case yield => exact .inl (hpc (.next (by simp [State.hostTurn_pc])))
  case debug => exact .inl (hpc (.withReg (.next rfl)))
  case halt => exact .inl (hpc s.halt_runsOnAt)
  case beq rs1 rs2 imm | bne rs1 rs2 imm | blt rs1 rs2 imm | bge rs1 rs2 imm | bltu rs1 rs2 imm | bgeu rs1 rs2 imm =>
    exact (State.branch_advances_or_transfers hexec hrun).imp_right fun h => .inl ⟨rs1, rs2, imm, by simp, h⟩
  case jal rd imm => exact .inr (.inr (.inl ⟨rd, imm, rfl, hpc (.next (s.link_pc rd _))⟩))
  case jalr rd rs1 imm => exact .inr (.inr (.inr ⟨rd, rs1, imm, rfl, hpc (execJalr_runsOnAt rd rs1 imm s)⟩))

end Sys2Proof.Machine
end

section
/-! The branches (spec/44_branch.md R170 to R177) and the fetch from a bad target (spec/60_exceptions.md R224, R225), and the
statements Branches and JumpCompletesThenFetchFaults. The six branches are State.branch under a condition each. -/

namespace Sys2Proof.Machine

/-! ## B-type words (R75, R82) -/

/-- Appending puts the high part above the low one. -/
theorem toNat_append_eq_add {m n : Nat} (x : BitVec m) (y : BitVec n) : (x ++ y).toNat = x.toNat * 2 ^ n + y.toNat := by
  rw [BitVec.toNat_append, ← Nat.shiftLeft_add_eq_or_of_lt y.isLt, Nat.shiftLeft_eq]

theorem extractLsb'_toNat_eq_bitsAt (w : Word) (lo n : Nat) : (w.extractLsb' lo n).toNat = bitsAt w lo n := by
  rw [BitVec.extractLsb'_toNat, Nat.shiftRight_eq_div_pow, bitsAt]

theorem bitsAt_lt (w : Word) (lo n : Nat) : bitsAt w lo n < 2 ^ n := Nat.mod_lt _ (Nat.two_pow_pos n)

theorem immB_eq_bitsAt (w : Word) : immB w = BitVec.ofNat 13
    (bitsAt w 31 1 * 2 ^ 12 + bitsAt w 7 1 * 2 ^ 11 + bitsAt w 25 6 * 2 ^ 5 + bitsAt w 8 4 * 2) := by
  refine BitVec.eq_of_toNat_eq ?_
  have h31 := bitsAt_lt w 31 1
  have h7 := bitsAt_lt w 7 1
  have h25 := bitsAt_lt w 25 6
  have h8 := bitsAt_lt w 8 4
  simp only [immB, toNat_append_eq_add, extractLsb'_toNat_eq_bitsAt, BitVec.toNat_ofNat]
  omega

/-- An opcode that the opcode map gives two source registers and immB. -/
theorem encodedB_of_decodeOpcode {op : Nat} {mk : Reg → Reg → BitVec 13 → Instr}
    (h : ∀ w, decodeOpcode op w = .ok (mk (rs1Of w) (rs2Of w) (immB w))) : EncodedB op mk := by
  intro w hop
  rw [decodeWord_of_opcode hop, h, rs1Of_eq_regAt, rs2Of_eq_regAt, immB_eq_bitsAt]

/-! ## The effect of a branch whose sources can be read (R170) -/

section
variable {s : State} {rs1 rs2 : Reg} (h : s.CanRead [rs1, rs2]) (imm : BitVec 13) (cond : Word → Word → Bool)
include h

theorem State.branch_taken (hcond : cond (s.reg rs1) (s.reg rs2) = true) :
    s.branch cond rs1 rs2 imm = .next (s.jump (s.pc + imm.signExtend 32)) := by
  rw [State.branch, State.withRegs_of_canRead h, if_pos hcond, branchTarget]

theorem State.branch_notTaken (hcond : ¬cond (s.reg rs1) (s.reg rs2) = true) :
    s.branch cond rs1 rs2 imm = .next s.advance := by
  rw [State.branch, State.withRegs_of_canRead h, if_neg hcond]

theorem State.branch_onlyMovesPc {p : Prop} [Decidable p] (hcond : cond (s.reg rs1) (s.reg rs2) = true ↔ p) :
    ∃ t, s.branch cond rs1 rs2 imm = .next t ∧
      OnlyMovesPc s t (if p then s.pc + BitVec.ofInt 32 imm.toInt else s.pc + 4) := by
  split
  next hp => exact ⟨_, State.branch_taken h imm cond (hcond.2 hp), s.jump_onlyMovesPc _⟩
  next hp => exact ⟨_, State.branch_notTaken h imm cond (mt hcond.1 hp), s.jump_onlyMovesPc _⟩

end

/-! ## The fetch from a bad pc (R224, R225) -/

section
variable {s : State}

theorem extractLsb'_two_eq_zero_iff (a : Word) : a.extractLsb' 0 2 = 0 ↔ a.toNat % 4 = 0 := by
  rw [← BitVec.toNat_inj, BitVec.extractLsb'_toNat, Nat.shiftRight_zero]
  rfl

theorem State.fetch_misaligned (h : s.pc.toNat % 4 ≠ 0) : s.fetch = .error (.fetchMisaligned s.pc) :=
  if_pos (mt (extractLsb'_two_eq_zero_iff s.pc).1 h)

/-- CodeImage holds no word at an address one of whose four bytes is not listed (R62). -/
theorem State.codeWord_eq_none {a : Word} (ha : a.toNat % 4 = 0) {k : Nat} (hk : k < 4)
    (hread : Memory.read s.mem (a.toNat + k) = none) : s.codeWord a = none := by
  have hbyte : Memory.read s.mem (a + BitVec.ofNat 32 k).toNat = none := (toNat_add_of_aligned ha hk).symm ▸ hread
  unfold State.codeWord
  split
  next b0 b1 b2 b3 h0 h1 h2 h3 =>
    obtain rfl | rfl | rfl | rfl : k = 0 ∨ k = 1 ∨ k = 2 ∨ k = 3 := by omega
    · exact nomatch h0.symm.trans hread
    · exact nomatch h1.symm.trans hbyte
    · exact nomatch h2.symm.trans hbyte
    · exact nomatch h3.symm.trans hbyte
  · rfl

theorem State.fetch_accessFault (h : s.pc.toNat % 4 = 0)
    (hbad : 0x000FFFFF < s.pc.toNat ∨ ∃ k, k < 4 ∧ Memory.read s.mem (s.pc.toNat + k) = none) :
    s.fetch = .error (.fetchAccessFault s.pc) := by
  rw [State.fetch, if_neg (Classical.not_not.2 ((extractLsb'_two_eq_zero_iff s.pc).2 h))]
  split
  · rfl
  next hcode =>
    obtain ⟨k, hk, hread⟩ := hbad.resolve_left hcode
    rw [State.codeWord_eq_none h hk hread]

theorem step_of_fetch_error {c : Cause} (hrun : s.status = .running) (h : s.fetch = .error c) : Takes (step s) s c := by
  rw [step, hrun]
  simp only [h]
  exact s.raise_takes c

/-- The step from a running state takes the fetch fault of its own pc. -/
theorem State.fetchFaultsAt_pc (hrun : s.status = .running) : FetchFaultsAt s s.pc :=
  ⟨rfl, fun h => step_of_fetch_error hrun (State.fetch_misaligned h),
    fun h hbad => step_of_fetch_error hrun (State.fetch_accessFault h hbad)⟩

end

/-! ## A bad target: the transfer completes, the next fetch faults (R177, R183) -/

section
variable (s : State) (rd : Reg) (t : Word)

theorem State.link_keepsMemory : KeepsMemory s (s.link rd t) := fun _ => by simp [State.link]

theorem State.link_keepsRest : KeepsRest s (s.link rd t) := by simp [KeepsRest, State.link]

end

section
variable {s : State} (hrun : s.status = .running)
include hrun

theorem State.link_thenFetchFaults (rd : Reg) (t : Word) :
    WritesReg s (s.link rd t) rd (s.pc + 4) ∧ KeepsMemory s (s.link rd t) ∧ KeepsRest s (s.link rd t) ∧
      FetchFaultsAt (s.link rd t) t :=
  ⟨s.link_writesReg rd t, s.link_keepsMemory rd t, s.link_keepsRest rd t,
    State.fetchFaultsAt_pc ((s.link_keepsRest rd t).1.trans hrun)⟩

theorem State.branch_thenFetchFaults {rs1 rs2 : Reg} (h : s.CanRead [rs1, rs2]) (imm : BitVec 13)
    (cond : Word → Word → Bool) (hcond : cond (s.reg rs1) (s.reg rs2) = true) :
    ∃ t, s.branch cond rs1 rs2 imm = .next t ∧ KeepsRegs s t ∧ KeepsMemory s t ∧ KeepsRest s t ∧
      FetchFaultsAt t (s.pc + imm.signExtend 32) := by
  obtain ⟨hregs, -, hmem, hrest⟩ := s.jump_onlyMovesPc (s.pc + imm.signExtend 32)
  exact ⟨_, State.branch_taken h imm cond hcond, hregs, hmem, hrest, State.fetchFaultsAt_pc (hrest.1.trans hrun)⟩

end

/-! ## The statements -/

/-- Settles O35: each is the shared branch under its own condition, the sources of `≤` exchanged for BGE and BGEU. -/
theorem branches : Obligations.Branches := by
  unfold Obligations.Branches
  refine ⟨encodedB_of_decodeOpcode fun _ => rfl, encodedB_of_decodeOpcode fun _ => rfl, encodedB_of_decodeOpcode fun _ => rfl,
    encodedB_of_decodeOpcode fun _ => rfl, encodedB_of_decodeOpcode fun _ => rfl, encodedB_of_decodeOpcode fun _ => rfl,
    fun rs1 rs2 imm s hread => ⟨?beq, ?bne, ?blt, ?bge, ?bltu, ?bgeu⟩⟩
  case beq => exact State.branch_onlyMovesPc hread imm equal equal_iff
  case bne => exact State.branch_onlyMovesPc hread imm (fun a b => !equal a b) not_equal_iff
  case blt => exact State.branch_onlyMovesPc hread imm ltSigned ltSigned_iff
  case bge => exact State.branch_onlyMovesPc hread imm (fun a b => leSigned b a) leSigned_iff
  case bltu => exact State.branch_onlyMovesPc hread imm ltUnsigned ltUnsigned_iff
  case bgeu => exact State.branch_onlyMovesPc hread imm (fun a b => leUnsigned b a) leUnsigned_iff

/-- Settles O38: neither a link nor a taken branch checks its target; each leaves the machine running with the pc there, and the
fetch of the next step checks it. -/
theorem jumpCompletesThenFetchFaults : Obligations.JumpCompletesThenFetchFaults := by
  unfold Obligations.JumpCompletesThenFetchFaults
  intro rd rs1 rs2 s hrun
  refine ⟨fun imm => ?jal, fun imm hread => ?jalr, fun imm i taken hread hi htaken => ?branch⟩
  case jal => exact ⟨_, exec_jal rd imm s, State.link_thenFetchFaults hrun rd _⟩
  case jalr => exact ⟨_, exec_jalr rd imm (hread rs1 (by simp)), State.link_thenFetchFaults hrun rd _⟩
  case branch =>
    simp only [List.mem_cons, List.not_mem_nil, or_false, Prod.mk.injEq] at hi
    obtain ⟨rfl, rfl⟩ | ⟨rfl, rfl⟩ | ⟨rfl, rfl⟩ | ⟨rfl, rfl⟩ | ⟨rfl, rfl⟩ | ⟨rfl, rfl⟩ := hi <;>
      have hcond := of_decide_eq_true htaken
    · exact State.branch_thenFetchFaults hrun hread imm equal (equal_iff.2 hcond)
    · exact State.branch_thenFetchFaults hrun hread imm (fun a b => !equal a b) (not_equal_iff.2 hcond)
    · exact State.branch_thenFetchFaults hrun hread imm ltSigned (ltSigned_iff.2 hcond)
    · exact State.branch_thenFetchFaults hrun hread imm (fun a b => leSigned b a) (leSigned_iff.2 hcond)
    · exact State.branch_thenFetchFaults hrun hread imm ltUnsigned (ltUnsigned_iff.2 hcond)
    · exact State.branch_thenFetchFaults hrun hread imm (fun a b => leUnsigned b a) (leUnsigned_iff.2 hcond)

end Sys2Proof.Machine
end

section
/-! The jumps JAL and JALR (spec/45_jump.md R180, R181), and the statements JalLinksAndJumps and JalrUsesTheOldBase. Both are
State.link to a target computed from the state before the link. -/

namespace Sys2Proof.Machine

/-! ## J-type words (R77, R84) -/

theorem immJ_eq_bitsAt (w : Word) : immJ w = BitVec.ofNat 21
    (bitsAt w 31 1 * 2 ^ 20 + bitsAt w 12 8 * 2 ^ 12 + bitsAt w 20 1 * 2 ^ 11 + bitsAt w 21 10 * 2) := by
  refine BitVec.eq_of_toNat_eq ?_
  have h31 := bitsAt_lt w 31 1
  have h12 := bitsAt_lt w 12 8
  have h20 := bitsAt_lt w 20 1
  have h21 := bitsAt_lt w 21 10
  simp only [immJ, toNat_append_eq_add, extractLsb'_toNat_eq_bitsAt, BitVec.toNat_ofNat]
  omega

/-- An opcode that the opcode map gives a destination register and immJ. -/
theorem encodedJ_of_decodeOpcode {op : Nat} {mk : Reg → BitVec 21 → Instr}
    (h : ∀ w, decodeOpcode op w = .ok (mk (rdOf w) (immJ w))) : EncodedJ op mk := by
  intro w hop
  rw [decodeWord_of_opcode hop, h, rdOf_eq_regAt, immJ_eq_bitsAt]

/-! ## The effect of a jump that links (R180, R181) -/

/-- Writing the link and moving the pc is the whole effect; the target is a value, so the link cannot change it (D27). -/
theorem State.link_effect (s : State) (rd : Reg) (t : Word) :
    WritesReg s (s.link rd t) rd (s.pc + 4) ∧ (s.link rd t).pc = t ∧ KeepsMemory s (s.link rd t) ∧
      KeepsRest s (s.link rd t) :=
  ⟨s.link_writesReg rd t, s.link_pc rd t, s.link_keepsMemory rd t, s.link_keepsRest rd t⟩

/-! ## The statements -/

/-- Settles O36: JAL is the link with the target at its own address plus the offset (D26). -/
theorem jalLinksAndJumps : Obligations.JalLinksAndJumps := by
  unfold Obligations.JalLinksAndJumps
  refine ⟨encodedJ_of_decodeOpcode fun _ => rfl, fun rd imm s => ?_⟩
  exact ⟨_, exec_jal rd imm s, s.link_effect rd _⟩

/-- Settles O37: JALR is the link with the target at rs1, read before the link is written, plus the offset (D16, D27). -/
theorem jalrUsesTheOldBase : Obligations.JalrUsesTheOldBase := by
  unfold Obligations.JalrUsesTheOldBase
  refine ⟨encodedI_of_decodeOpcode fun _ => rfl, fun rd rs1 imm s hread => ?_⟩
  exact ⟨_, exec_jalr rd imm (hread rs1 (by simp)), s.link_effect rd _⟩

end Sys2Proof.Machine
end

section
/-! Loads that reach Data memory (spec/20_memory.md R47, R48, R51, R52; spec/46_load_store.md R190 to R195), and the statement
LoadsReadDataMemory. An access its checks let through is made at one place or byte by byte, and reads the same bytes
either way. -/

namespace Sys2Proof.Machine

/-! ## An access to Data memory passes its checks (R51) -/

theorem Width.bytes_pos (w : Width) : 0 < w.bytes := by cases w <;> decide

/-- The order of an access depends on its width only through the number of bytes (R47, R52). -/
theorem accessOrder_eq_orderAt (s : State) (a : Word) (w : Width) : accessOrder s.cfg a w = s.orderAt a w.bytes := by
  simp [accessOrder, State.orderAt, aligned]

theorem State.orderAt_of_little {s : State} (h : s.cfg.dataByteOrder = .little) (a : Word) (n : Nat) :
    s.orderAt a n = .little := by
  simp [State.orderAt, h]

section
variable {s : State} {a : Word} {n k : Nat}

theorem DataAccess.toNat_add (h : DataAccess s a n) (hk : k < n) : (a + BitVec.ofNat 32 k).toNat = a.toNat + k := by
  obtain ⟨-, hmmio, -, -⟩ := h
  exact toNat_add_of_no_wrap (by omega)

/-- Every byte of the access is a Data byte. -/
theorem DataAccess.region (h : DataAccess s a n) (hk : k < n) : regionOf (a + BitVec.ofNat 32 k) = .data := by
  have hadd := h.toNat_add hk
  obtain ⟨hcode, hmmio, -, -⟩ := h
  rw [regionOf_data, hadd]
  unfold codeLast mmioBase
  omega

/-- So is the one byte, or the first, at the address itself. -/
theorem DataAccess.region_self (h : DataAccess s a n) (hn : 0 < n) : regionOf a = .data := by
  simpa using h.region hn

/-- Any part of the access passes the checks made at its own address. -/
theorem DataAccess.checkAt_part (h : DataAccess s a n) (kind : AccessKind) {w : Width} (hk : k + w.bytes ≤ n) :
    checkAt s.cfg kind (a + BitVec.ofNat 32 k) w = none := by
  have hlt : k < n := Nat.lt_of_lt_of_le (Nat.lt_add_of_pos_right (Width.bytes_pos w)) hk
  have hadd := h.toNat_add hlt
  have hregion := h.region hlt
  obtain ⟨-, -, hlimit, -⟩ := h
  simp only [checkAt, hregion, hadd, ite_eq_right_iff]
  omega

/-- The access depends on the state only through its parameters. -/
theorem DataAccess.of_cfg {t : State} (h : DataAccess s a n) (hcfg : t.cfg = s.cfg) : DataAccess t a n := by
  simpa only [DataAccess, hcfg] using h

end

section
variable {s : State} {a : Word} {w : Width} (h : DataAccess s a w.bytes)
include h

/-- The access goes ahead, whether it is checked as a whole or byte by byte. -/
theorem DataAccess.checkData_eq_none (kind : AccessKind) : checkData s.cfg kind a w = none := by
  have hwhole : checkAt s.cfg kind a w = none := by
    simpa using h.checkAt_part kind (k := 0) (Nat.le_of_eq (Nat.zero_add _))
  have hbyte : ∀ p ∈ bytePlaces a w, checkAt s.cfg kind p.1 p.2 = none := by
    intro p hp
    obtain ⟨k, hk, rfl⟩ := List.mem_map.1 hp
    exact h.checkAt_part kind (List.mem_range.1 hk)
  obtain ⟨-, -, -, halign⟩ := h
  unfold checkData
  split
  next hfault =>
    have haligned : aligned a w = true := by simpa [hfault, aligned] using halign
    rw [if_pos haligned, hwhole]
  next => exact checkEach_eq_none hbyte

end

/-! ## Reading the bytes (R48) -/

theorem add_one_add_ofNat (a : Word) (k : Nat) : a + 1 + BitVec.ofNat 32 k = a + BitVec.ofNat 32 (k + 1) := by
  rw [BitVec.add_assoc, Nat.add_comm k 1, BitVec.ofNat_add]
  rfl

theorem State.readBytes_eq_ok {s : State} {n : Nat} {a : Word} {b : Nat → Byte}
    (hb : ∀ k < n, s.dataByte (a + BitVec.ofNat 32 k) = some (b k)) : s.readBytes a n = .ok ((List.range n).map b) := by
  induction n generalizing a b with
  | zero => rfl
  | succ n ih =>
    have hfirst : s.dataByte a = some (b 0) := by simpa using hb 0 (by omega)
    have hrest : s.readBytes (a + 1) n = .ok ((List.range n).map fun k => b (k + 1)) :=
      ih fun k hk => by rw [add_one_add_ofNat]; exact hb (k + 1) (by omega)
    simp only [State.readBytes, hfirst, hrest, List.range_succ_eq_map, List.map_cons, List.map_map, Function.comp_def,
      Nat.succ_eq_add_one]

section
variable {s : State} {a : Word} {w : Width} {b : Nat → Byte} (h : DataAccess s a w.bytes)
  (hb : ∀ k < w.bytes, s.dataByte (a + BitVec.ofNat 32 k) = some (b k))
include h hb

/-- The value read is made of the bytes in the order of the access, and no device has seen it. -/
theorem DataAccess.memRead_eq : s.memRead a w = .ok (s, ofBytes (s.orderAt a w.bytes) ((List.range w.bytes).map b)) := by
  have hread : s.readPlaces (accessPlaces a w) = .ok (s, (List.range w.bytes).map b) := by
    unfold accessPlaces
    split
    · simp [State.readPlaces, State.readPlace, h.region_self (Width.bytes_pos w), State.readBytes_eq_ok hb]
    · exact State.readPlaces_chain (σ := fun _ => s) fun k hk => State.readPlace_dataByte (h.region hk) (hb k hk)
  simp only [State.memRead, h.checkData_eq_none, hread, accessOrder_eq_orderAt]

/-- A load puts the widened value in `rd`, and that is its whole effect (R191 to R195). -/
theorem DataAccess.load_computes {ext : Word → Word} {v : Word}
    (hv : ext (ofBytes (s.orderAt a w.bytes) ((List.range w.bytes).map b)) = v) (rd : Reg) :
    ∃ t, s.load rd a w ext = .next t ∧ Computes s t rd v := by
  subst hv
  rw [State.load_of_memRead (h.memRead_eq hb)]
  exact s.finish_computes rd _

end

/-- Bytes that are listed are what Data memory reads as. -/
theorem Holds.dataByte {s : State} {a : Word} {n : Nat} {b : Nat → Byte} (hb : Holds s a n b) (h : DataAccess s a n) :
    ∀ k < n, s.dataByte (a + BitVec.ofNat 32 k) = some (b k) :=
  fun k hk => State.dataByte_eq_some (.inl (by rw [h.toNat_add hk]; exact hb k hk))

/-! ## The value of the bytes, in either order (R47) -/

theorem setWidth_ofBytes_byte (o : ByteOrder) (b : Byte) : (ofBytes o [b]).setWidth 8 = b := by
  have hone : ofBytes o [b] = b.setWidth 32 := by cases o <;> exact ofLittle_singleton b
  simp [hone]

theorem setWidth_ofBytes_half (o : ByteOrder) (b : Nat → Byte) : (ofBytes o [b 0, b 1]).setWidth 16 = halfOf o b := by
  cases o <;> exact setWidth_ofLittle_half _ _

theorem ofBytes_word (o : ByteOrder) (b : Nat → Byte) : ofBytes o [b 0, b 1, b 2, b 3] = wordOf o b := by
  cases o <;> exact ofLittle_word _ _ _ _

/-! ## The five loads, their base readable (R190 to R195) -/

section
variable {s : State} {rs1 : Reg} {imm : BitVec 12} (rd : Reg)

theorem exec_ldb (h : s.regReadable rs1 = true) :
    exec (.ldb rd rs1 imm) s = s.load rd (s.reg rs1 + imm.signExtend 32) .byte (sextLow 8) := by
  simp only [exec, execLdb, State.withReg_readable h, effectiveAddress, sext12]

theorem exec_ldbu (h : s.regReadable rs1 = true) :
    exec (.ldbu rd rs1 imm) s = s.load rd (s.reg rs1 + imm.signExtend 32) .byte (zextLow 8) := by
  simp only [exec, execLdbu, State.withReg_readable h, effectiveAddress, sext12]

end

section
variable {s : State} {rs1 : Reg} {imm : BitVec 12} {a : Word} {b : Nat → Byte} (hread : s.CanRead [rs1])
  (ha : s.reg rs1 + imm.signExtend 32 = a) (rd : Reg)
include hread ha

theorem exec_ldb_computes (h : DataAccess s a 1) (hb : ∀ k < 1, s.dataByte (a + BitVec.ofNat 32 k) = some (b k)) :
    ∃ t, exec (.ldb rd rs1 imm) s = .next t ∧ Computes s t rd ((b 0).signExtend 32) := by
  rw [exec_ldb rd (hread rs1 (by simp)), ha]
  refine DataAccess.load_computes (w := .byte) h hb ?_ rd
  exact congrArg (BitVec.signExtend 32) (setWidth_ofBytes_byte _ (b 0))

theorem exec_ldbu_computes (h : DataAccess s a 1) (hb : ∀ k < 1, s.dataByte (a + BitVec.ofNat 32 k) = some (b k)) :
    ∃ t, exec (.ldbu rd rs1 imm) s = .next t ∧ Computes s t rd ((b 0).setWidth 32) := by
  rw [exec_ldbu rd (hread rs1 (by simp)), ha]
  refine DataAccess.load_computes (w := .byte) h hb ?_ rd
  exact congrArg (BitVec.setWidth 32) (setWidth_ofBytes_byte _ (b 0))

theorem exec_ldh_computes (h : DataAccess s a 2) (hb : ∀ k < 2, s.dataByte (a + BitVec.ofNat 32 k) = some (b k)) :
    ∃ t, exec (.ldh rd rs1 imm) s = .next t ∧ Computes s t rd ((halfOf (s.orderAt a 2) b).signExtend 32) := by
  rw [exec_ldh rd imm (hread rs1 (by simp)), ha]
  refine DataAccess.load_computes (w := .half) h hb ?_ rd
  exact congrArg (BitVec.signExtend 32) (setWidth_ofBytes_half _ b)

theorem exec_ldhu_computes (h : DataAccess s a 2) (hb : ∀ k < 2, s.dataByte (a + BitVec.ofNat 32 k) = some (b k)) :
    ∃ t, exec (.ldhu rd rs1 imm) s = .next t ∧ Computes s t rd ((halfOf (s.orderAt a 2) b).setWidth 32) := by
  rw [exec_ldhu rd imm (hread rs1 (by simp)), ha]
  refine DataAccess.load_computes (w := .half) h hb ?_ rd
  exact congrArg (BitVec.setWidth 32) (setWidth_ofBytes_half _ b)

theorem exec_ldw_computes (h : DataAccess s a 4) (hb : ∀ k < 4, s.dataByte (a + BitVec.ofNat 32 k) = some (b k)) :
    ∃ t, exec (.ldw rd rs1 imm) s = .next t ∧ Computes s t rd (wordOf (s.orderAt a 4) b) := by
  rw [exec_ldw rd imm (hread rs1 (by simp)), ha]
  exact DataAccess.load_computes (w := .word) h hb (ofBytes_word _ b) rd

end

/-! ## The statement -/

/-- Settles O40: each load is its own width and widening of the bytes listed at the address. -/
theorem loadsReadDataMemory : Obligations.LoadsReadDataMemory := by
  unfold Obligations.LoadsReadDataMemory
  refine ⟨encodedI_of_decodeOpcode fun _ => rfl, encodedI_of_decodeOpcode fun _ => rfl, encodedI_of_decodeOpcode fun _ => rfl,
    encodedI_of_decodeOpcode fun _ => rfl, encodedI_of_decodeOpcode fun _ => rfl,
    fun rd rs1 imm s b hread => ⟨?byte, ?half, ?word⟩⟩
  case byte =>
    intro h hb
    exact ⟨exec_ldb_computes hread rfl rd h (hb.dataByte h), exec_ldbu_computes hread rfl rd h (hb.dataByte h)⟩
  case half =>
    intro h hb
    exact ⟨exec_ldh_computes hread rfl rd h (hb.dataByte h), exec_ldhu_computes hread rfl rd h (hb.dataByte h)⟩
  case word =>
    intro h hb
    exact exec_ldw_computes hread rfl rd h (hb.dataByte h)

end Sys2Proof.Machine
end

section
/-! Stores that reach Data memory (spec/20_memory.md R47, R49, R51, R52; spec/46_load_store.md R190, R196 to R198), and the
statement StoresWriteDataMemory. Made at one place or byte by byte, a store writes the same bytes at the same addresses. -/

namespace Sys2Proof.Machine

/-! ## S-type words (R74, R81) -/

theorem immS_eq_bitsAt (w : Word) : immS w = BitVec.ofNat 12 (bitsAt w 25 7 * 2 ^ 5 + bitsAt w 7 5) := by
  refine BitVec.eq_of_toNat_eq ?_
  have h25 := bitsAt_lt w 25 7
  have h7 := bitsAt_lt w 7 5
  simp only [immS, toNat_append_eq_add, extractLsb'_toNat_eq_bitsAt, BitVec.toNat_ofNat]
  omega

/-- An opcode that the opcode map gives two source registers and immS. -/
theorem encodedS_of_decodeOpcode {op : Nat} {mk : Reg → Reg → BitVec 12 → Instr}
    (h : ∀ w, decodeOpcode op w = .ok (mk (rs1Of w) (rs2Of w) (immS w))) : EncodedS op mk := by
  intro w hop
  rw [decodeWord_of_opcode hop, h, rs1Of_eq_regAt, rs2Of_eq_regAt, immS_eq_bitsAt]

/-! ## The bytes written (R49) -/

/-- Reading after several bytes were written: the byte of its place within them, and what was there before elsewhere. -/
theorem Memory.read_writeBytes {bs : List Byte} {m : Memory} {a : Word} (h : a.toNat + bs.length < 2 ^ 32) (x : Nat) :
    Memory.read (Memory.writeBytes m a bs) x =
      if a.toNat ≤ x ∧ x < a.toNat + bs.length then bs[x - a.toNat]? else Memory.read m x := by
  induction bs generalizing m a with
  | nil => rw [if_neg (by simp), Memory.writeBytes]
  | cons b bs ih =>
    rw [List.length_cons] at h
    have hnext : (a + 1).toNat = a.toNat + 1 := toNat_add_of_no_wrap (k := 1) (by omega)
    rw [Memory.writeBytes, ih (by omega), hnext, Memory.read_write, List.length_cons]
    obtain hx | hx | hx : x = a.toNat ∨ (a.toNat + 1 ≤ x ∧ x < a.toNat + 1 + bs.length) ∨
      (x < a.toNat ∨ a.toNat + 1 + bs.length ≤ x) := by omega
    · rw [if_neg (by omega), if_pos hx, if_pos (by omega), hx, Nat.sub_self, List.getElem?_cons_zero]
    · rw [if_pos hx, if_pos (by omega), show x - a.toNat = x - (a.toNat + 1) + 1 by omega, List.getElem?_cons_succ]
    · rw [if_neg (by omega), if_neg (by omega), if_neg (by omega)]

/-- The k-th byte of memory takes the byte of the value that the order gives it. -/
theorem toBytes_getElem? (o : ByteOrder) {n k : Nat} (hk : k < n) (v : Word) :
    (toBytes o n v)[k]? = some (storedByte o n k v) := by
  cases o <;> simp [toBytes, storedByte, toLittle_eq_map, hk]

/-- Bytes written one by one to Data memory are the bytes written together. -/
theorem State.writePlaces_dataBytes {bs : List Byte} {s : State} {a : Word}
    (h : ∀ k < bs.length, regionOf (a + BitVec.ofNat 32 k) = .data) :
    s.writePlaces ((List.range bs.length).map fun k => (a + BitVec.ofNat 32 k, .byte)) bs =
      { s with mem := Memory.writeBytes s.mem a bs } := by
  induction bs generalizing s a with
  | nil => rfl
  | cons b bs ih =>
    have hfirst : regionOf a = .data := by simpa using h 0 (by simp)
    have hrest : ∀ k < bs.length, regionOf (a + 1 + BitVec.ofNat 32 k) = .data := fun k hk => by
      rw [add_one_add_ofNat]
      exact h (k + 1) (by simpa using hk)
    have hstep := ih (s := { s with mem := Memory.write s.mem a.toNat b }) hrest
    simp only [add_one_add_ofNat] at hstep
    simp only [List.length_cons, List.range_succ_eq_map, List.map_cons, List.map_map, State.writePlaces, Width.bytes,
      List.take_succ_cons, List.take_zero, List.drop_succ_cons, List.drop_zero, BitVec.add_zero,
      State.writePlace_dataByte _ _ hfirst, Function.comp_def, Nat.succ_eq_add_one, hstep, Memory.writeBytes]

section
variable {s : State} {a : Word} {w : Width} (h : DataAccess s a w.bytes) (v : Word)
include h

/-- A store changes nothing but the bytes of its width. -/
theorem DataAccess.memWrite_eq : s.memWrite a w v =
    .ok { s with mem := Memory.writeBytes s.mem a (toBytes (s.orderAt a w.bytes) w.bytes v) } := by
  have hlen := toBytes_length (s.orderAt a w.bytes) w.bytes v
  have hwrite : s.writePlaces (accessPlaces a w) (toBytes (s.orderAt a w.bytes) w.bytes v) =
      { s with mem := Memory.writeBytes s.mem a (toBytes (s.orderAt a w.bytes) w.bytes v) } := by
    unfold accessPlaces
    split
    · simp only [State.writePlaces, State.writePlace, h.region_self (Width.bytes_pos w), List.take_of_length_le (Nat.le_of_eq hlen)]
    · have hbytes := State.writePlaces_dataBytes (s := s) (bs := toBytes (s.orderAt a w.bytes) w.bytes v)
        fun k hk => h.region (hlen ▸ hk)
      rwa [hlen] at hbytes
  simp only [State.memWrite, h.checkData_eq_none, accessOrder_eq_orderAt, hwrite]

/-- What a store answers (R196 to R198). -/
theorem DataAccess.store_effect : ∃ t, s.store a w v = .next t ∧ Stores s t a w.bytes v := by
  refine ⟨_, State.store_of_memWrite (h.memWrite_eq v), fun x => ?_, fun r => ⟨rfl, rfl⟩, rfl, ⟨rfl, rfl, rfl, rfl⟩⟩
  have hlen := toBytes_length (s.orderAt a w.bytes) w.bytes v
  obtain ⟨-, hmmio, -, -⟩ := h
  rw [State.advance_mem, Memory.read_writeBytes (by omega), hlen]
  refine ite_congr rfl (fun hx => ?_) fun _ => rfl
  exact toBytes_getElem? _ (by omega) v

end

/-! ## The three stores, their registers readable (R190, R196 to R198) -/

section
variable {s : State} {rs1 rs2 : Reg} {imm : BitVec 12} {a : Word}

theorem exec_stb (h : s.regReadable rs1 = true) (h' : s.regReadable rs2 = true) :
    exec (.stb rs1 rs2 imm) s = s.store (s.reg rs1 + imm.signExtend 32) .byte (s.reg rs2) := by
  simp only [exec, execStb, State.withRegs_readable h h', effectiveAddress, sext12]

variable (hread : s.CanRead [rs1, rs2]) (ha : s.reg rs1 + imm.signExtend 32 = a)
include hread ha

theorem exec_stb_stores (h : DataAccess s a 1) : ∃ t, exec (.stb rs1 rs2 imm) s = .next t ∧ Stores s t a 1 (s.reg rs2) := by
  rw [exec_stb (hread rs1 (by simp)) (hread rs2 (by simp)), ha]
  exact DataAccess.store_effect (w := .byte) h _

theorem exec_sth_stores (h : DataAccess s a 2) : ∃ t, exec (.sth rs1 rs2 imm) s = .next t ∧ Stores s t a 2 (s.reg rs2) := by
  rw [exec_sth imm (hread rs1 (by simp)) (hread rs2 (by simp)), ha]
  exact DataAccess.store_effect (w := .half) h _

theorem exec_stw_stores (h : DataAccess s a 4) : ∃ t, exec (.stw rs1 rs2 imm) s = .next t ∧ Stores s t a 4 (s.reg rs2) := by
  rw [exec_stw imm (hread rs1 (by simp)) (hread rs2 (by simp)), ha]
  exact DataAccess.store_effect (w := .word) h _

end

/-! ## The statement -/

/-- Settles O41: each store is its own width of one write at the effective address, which is base plus offset (D16). -/
theorem storesWriteDataMemory : Obligations.StoresWriteDataMemory := by
  unfold Obligations.StoresWriteDataMemory
  refine ⟨encodedS_of_decodeOpcode fun _ => rfl, encodedS_of_decodeOpcode fun _ => rfl, encodedS_of_decodeOpcode fun _ => rfl,
    fun rs1 rs2 imm s hread => ⟨?byte, ?half, ?word⟩⟩
  case byte => exact exec_stb_stores hread rfl
  case half => exact exec_sth_stores hread rfl
  case word => exact exec_stw_stores hread rfl

end Sys2Proof.Machine
end

section
/-! Accesses of several widths to one word of Data memory, in little-endian order (spec/20_memory.md section 5; R193 to R198),
and the statements MixedWidthAccess and NarrowStoresThenWiderLoad. A sequence of stores within a word is followed as what the
bytes of the word are after each of them; a load then takes its own bytes. -/

namespace Sys2Proof.Machine

/-- What holds of the places of the four bytes of a word holds of each of them. -/
theorem forall_lt_four {p : Nat → Prop} (h0 : p 0) (h1 : p 1) (h2 : p 2) (h3 : p 3) : ∀ j < 4, p j
  | 0, _ => h0
  | 1, _ => h1
  | 2, _ => h2
  | 3, _ => h3

theorem forall_lt_two {p : Nat → Prop} (h0 : p 0) (h1 : p 1) : ∀ j < 2, p j
  | 0, _ => h0
  | 1, _ => h1

/-! ## Parts of a value -/

/-- The four bytes of a word, from the lowest up, make it again. -/
theorem wordOf_little_extractLsb' (v : Word) : wordOf .little (fun k => v.extractLsb' (8 * k) 8) = v := by
  have hfirst : v.extractLsb' 24 8 ++ v.extractLsb' 16 8 = v.extractLsb' 16 16 :=
    BitVec.extractLsb'_append_extractLsb'_eq_extractLsb' rfl
  have hsecond : v.extractLsb' 16 16 ++ v.extractLsb' 8 8 = v.extractLsb' 8 24 :=
    BitVec.extractLsb'_append_extractLsb'_eq_extractLsb' rfl
  have hthird : v.extractLsb' 8 24 ++ v.extractLsb' 0 8 = v.extractLsb' 0 32 :=
    BitVec.extractLsb'_append_extractLsb'_eq_extractLsb' rfl
  calc wordOf .little (fun k => v.extractLsb' (8 * k) 8)
      = v.extractLsb' 24 8 ++ v.extractLsb' 16 8 ++ v.extractLsb' 8 8 ++ v.extractLsb' 0 8 := rfl
    _ = v := by rw [hfirst, hsecond, hthird, BitVec.extractLsb'_eq_self]

/-- The two low bytes make the low half. -/
theorem lowBytes_append (v : Word) : v.extractLsb' 8 8 ++ v.extractLsb' 0 8 = v.setWidth 16 := by
  rw [BitVec.setWidth_eq_extractLsb' (by decide)]
  exact BitVec.extractLsb'_append_extractLsb'_eq_extractLsb' rfl

/-- The two high bytes make the high half. -/
theorem highBytes_append (v : Word) : (v.extractLsb' 24 8 ++ v.extractLsb' 16 8).setWidth 32 = v >>> 16 := by
  have hhigh : v.extractLsb' 24 8 ++ v.extractLsb' 16 8 = v.extractLsb' 16 16 :=
    BitVec.extractLsb'_append_extractLsb'_eq_extractLsb' rfl
  rw [hhigh]
  refine BitVec.eq_of_toNat_eq ?_
  have hlt := v.isLt
  simp only [BitVec.toNat_setWidth, BitVec.extractLsb'_toNat, BitVec.toNat_ushiftRight, Nat.shiftRight_eq_div_pow]
  omega

/-- The word of four bytes has them as its bytes. -/
theorem extractLsb'_wordOf_little (b : Nat → Byte) : ∀ j < 4, (wordOf .little b).extractLsb' (8 * j) 8 = b j := by
  have h0 := (b 0).isLt
  have h1 := (b 1).isLt
  have h2 := (b 2).isLt
  simp only [← BitVec.toNat_inj, wordOf, BitVec.extractLsb'_toNat, toNat_append_eq_add, Nat.shiftRight_eq_div_pow]
  refine forall_lt_four ?_ ?_ ?_ ?_ <;> omega

/-! ## Parts of a word of Data memory -/

section
variable {s : State} {a : Word} {k n : Nat} (h : DataAccess s a 4)
include h

/-- A narrower access within an access of a word is let through too. -/
theorem DataAccess.part (hn : n ∣ 4) (hk : n ∣ k) (hkn : k + n ≤ 4) : DataAccess s (a + BitVec.ofNat 32 k) n := by
  have hpos : 0 < n := Nat.pos_of_dvd_of_pos hn (by decide)
  have hadd := h.toNat_add (k := k) (by omega)
  obtain ⟨hcode, hmmio, hlimit, haligned⟩ := h
  rw [DataAccess, hadd]
  refine ⟨by omega, by omega, by omega, haligned.imp_left fun ha => ?_⟩
  exact Nat.mod_eq_zero_of_dvd (Nat.dvd_add (Nat.dvd_trans hn (Nat.dvd_of_mod_eq_zero ha)) hk)

/-- The bytes of a part are bytes of the word. -/
theorem DataAccess.holds_part {b : Nat → Byte} (hk : k < 4)
    (hb : ∀ j < n, Memory.read s.mem (a.toNat + (k + j)) = some (b j)) : Holds s (a + BitVec.ofNat 32 k) n b := by
  intro j hj
  rw [h.toNat_add hk, Nat.add_assoc]
  exact hb j hj

end

section
variable {s : State} {rb : Reg} {imm : BitVec 12} {a : Word} {b : Nat → Byte} {k : Nat} (hread : s.CanRead [rb])
  (h : DataAccess s a 4) (rd : Reg)
include hread h

theorem exec_ldw_little (hlittle : s.cfg.dataByteOrder = .little) (ha : s.reg rb + imm.signExtend 32 = a)
    (hb : ∀ j < 4, Memory.read s.mem (a.toNat + j) = some (b j)) :
    ∃ t, exec (.ldw rd rb imm) s = .next t ∧ Computes s t rd (wordOf .little b) := by
  have hload := exec_ldw_computes hread ha rd h (Holds.dataByte hb h)
  rwa [State.orderAt_of_little hlittle] at hload

theorem exec_ldhu_little (hlittle : s.cfg.dataByteOrder = .little)
    (ha : s.reg rb + imm.signExtend 32 = a + BitVec.ofNat 32 k) (hk : 2 ∣ k) (hk2 : k + 2 ≤ 4)
    (hb : ∀ j < 2, Memory.read s.mem (a.toNat + (k + j)) = some (b j)) :
    ∃ t, exec (.ldhu rd rb imm) s = .next t ∧ Computes s t rd ((b 1 ++ b 0).setWidth 32) := by
  have hpart := h.part (by decide) hk hk2
  have hload := exec_ldhu_computes hread ha rd hpart ((h.holds_part (by omega) hb).dataByte hpart)
  rwa [State.orderAt_of_little hlittle] at hload

theorem exec_ldbu_within (ha : s.reg rb + imm.signExtend 32 = a + BitVec.ofNat 32 k) (hk : k < 4)
    (hb : Memory.read s.mem (a.toNat + k) = some (b k)) :
    ∃ t, exec (.ldbu rd rb imm) s = .next t ∧ Computes s t rd ((b k).setWidth 32) := by
  have hpart := h.part (n := 1) (by decide) (Nat.one_dvd k) hk
  have hbyte : ∀ j < 1, Memory.read s.mem (a.toNat + (k + j)) = some (b (k + j)) := fun j hj => by
    rwa [Nat.lt_one_iff.1 hj]
  exact exec_ldbu_computes hread ha rd hpart ((h.holds_part hk hbyte).dataByte hpart)

end

/-- In little-endian order a store puts the bytes of the value at its address and after, the lowest first. -/
theorem Stores.read_little {s t : State} {a v : Word} {n j : Nat} (h : Stores s t a n v)
    (hlittle : s.cfg.dataByteOrder = .little) (hj : j < n) :
    Memory.read t.mem (a.toNat + j) = some (v.extractLsb' (8 * j) 8) := by
  obtain ⟨hmem, -⟩ := h
  rw [hmem, if_pos (by omega), State.orderAt_of_little hlittle, Nat.add_sub_cancel_left, storedByte]

/-- Settles O46: the bytes that STW put in memory are those of its value, and each load takes its own of them. -/
theorem mixedWidthAccess : Obligations.MixedWidthAccess := by
  unfold Obligations.MixedWidthAccess
  intro rd rs1 rs2 rb imm s t u k hexec hread haccess hlittle hmem hcfg hreadb
  obtain ⟨t', hexec', hstores⟩ := exec_stw_stores hread rfl haccess
  obtain rfl : t' = t := Host.Outcome.next.inj (hexec'.symm.trans hexec)
  generalize hbase : s.reg rs1 + imm.signExtend 32 = a at *
  have hbytes (j : Nat) (hj : j < 4) : Memory.read u.mem (a.toNat + j) = some ((s.reg rs2).extractLsb' (8 * j) 8) := by
    rw [hmem]
    exact hstores.read_little hlittle hj
  have hlittle' : u.cfg.dataByteOrder = .little := by rw [hcfg, hlittle]
  have haccess' : DataAccess u a 4 := haccess.of_cfg hcfg
  refine ⟨fun hrb => ⟨?word, ?lowHalf, ?highHalf⟩, fun hk hrb => ?byte⟩
  case word =>
    have hload := exec_ldw_little (imm := 0) hreadb haccess' rd hlittle' (by simp [hrb]) hbytes
    rwa [wordOf_little_extractLsb'] at hload
  case lowHalf =>
    have hload := exec_ldhu_little (imm := 0) (k := 0) hreadb haccess' rd hlittle' (by simp [hrb]) (by decide) (by decide)
      fun j hj => hbytes (0 + j) (by omega)
    rwa [lowBytes_append] at hload
  case highHalf =>
    have hload := exec_ldhu_little (imm := 2) (k := 2) hreadb haccess' rd hlittle' (by rw [hrb]; rfl) (by decide) (by decide)
      fun j hj => hbytes (2 + j) (by omega)
    rwa [highBytes_append] at hload
  case byte =>
    exact exec_ldbu_within (b := fun j => (s.reg rs2).extractLsb' (8 * j) 8) hreadb haccess' rd (by simp [hrb]) hk (hbytes k hk)

end Sys2Proof.Machine
end

section
/-! Sequences of stores within one word of Data memory, in little-endian order (spec/20_memory.md section 5; R193 to R198), and
the statement NarrowStoresThenWiderLoad. A sequence is followed as what the bytes of the word are after each of its stores. -/

namespace Sys2Proof.Machine

/-! ## One store within a word -/

/-- A store of the low bytes of register `src` at an offset from the address of a word. -/
structure PartStore where
  width  : Width
  src    : Reg
  offset : Nat

/-- The instruction that makes the store, with the word's address in `rb`. -/
def PartStore.instr (rb : Reg) (p : PartStore) : Instr :=
  match p.width with
  | .byte => .stb rb p.src (BitVec.ofNat 12 p.offset)
  | .half => .sth rb p.src (BitVec.ofNat 12 p.offset)
  | .word => .stw rb p.src (BitVec.ofNat 12 p.offset)

/-- The store stays within the word, at a multiple of its width. -/
abbrev PartStore.Fits (p : PartStore) : Prop := p.width.bytes ∣ p.offset ∧ p.offset + p.width.bytes ≤ 4

/-- What the bytes of the word are after the store, its source register as in `s`, where they were `c`. -/
def PartStore.bytesAfter (s : State) (c : Nat → Option Byte) (p : PartStore) (j : Nat) : Option Byte :=
  if p.offset ≤ j ∧ j < p.offset + p.width.bytes then some ((s.reg p.src).extractLsb' (8 * (j - p.offset)) 8) else c j

section
variable {s : State} {c : Nat → Option Byte} {p : PartStore} {j : Nat}

theorem PartStore.bytesAfter_inside (h : p.offset ≤ j ∧ j < p.offset + p.width.bytes) :
    p.bytesAfter s c j = some ((s.reg p.src).extractLsb' (8 * (j - p.offset)) 8) := if_pos h

theorem PartStore.bytesAfter_outside (h : ¬(p.offset ≤ j ∧ j < p.offset + p.width.bytes)) :
    p.bytesAfter s c j = c j := if_neg h

end

theorem Width.bytes_dvd_four (w : Width) : w.bytes ∣ 4 := by cases w <;> decide

theorem signExtend_offset : ∀ k < 4, (BitVec.ofNat 12 k).signExtend 32 = BitVec.ofNat 32 k :=
  forall_lt_four rfl rfl rfl rfl

theorem PartStore.exec_instr {p : PartStore} {rb : Reg} {s : State} {a : Word} (hfit : p.Fits) (hread : s.CanRead [rb, p.src])
    (hrb : s.reg rb = a) (h : DataAccess s a 4) :
    ∃ t, exec (p.instr rb) s = .next t ∧ Stores s t (a + BitVec.ofNat 32 p.offset) p.width.bytes (s.reg p.src) := by
  obtain ⟨w, src, k⟩ := p
  obtain ⟨hdvd, hend⟩ := hfit
  have hpos := Width.bytes_pos w
  have hk : k < 4 := Nat.lt_of_lt_of_le (Nat.lt_add_of_pos_right hpos) hend
  have haddr : s.reg rb + (BitVec.ofNat 12 k).signExtend 32 = a + BitVec.ofNat 32 k := by
    rw [hrb, signExtend_offset _ hk]
  have hpart := h.part (Width.bytes_dvd_four w) hdvd hend
  cases w with
  | byte => exact exec_stb_stores hread haddr hpart
  | half => exact exec_sth_stores hread haddr hpart
  | word => exact exec_stw_stores hread haddr hpart

/-! ## Several stores, one after another -/

/-- What the bytes from `a` up are after several stores into them, their source registers as in `s`. -/
def storedBytes (s : State) (a : Word) (l : List PartStore) : Nat → Option Byte :=
  l.foldl (PartStore.bytesAfter s) fun j => Memory.read s.mem (a.toNat + j)

/-- `t` has the registers and parameters of `s`, and the bytes from `a` up are `c`. -/
structure Refilled (s t : State) (a : Word) (c : Nat → Option Byte) : Prop where
  regs  : KeepsRegs s t
  cfg   : t.cfg = s.cfg
  bytes : ∀ j, Memory.read t.mem (a.toNat + j) = c j

theorem Refilled.refl (s : State) (a : Word) : Refilled s s a fun j => Memory.read s.mem (a.toNat + j) :=
  ⟨fun _ => ⟨rfl, rfl⟩, rfl, fun _ => rfl⟩

theorem KeepsRegs.canRead {s t : State} {rs : List Reg} (h : KeepsRegs s t) (hread : s.CanRead rs) : t.CanRead rs :=
  fun r hr => (h r).2.trans (hread r hr)

theorem KeepsRegs.trans {s t u : State} (h : KeepsRegs s t) (h' : KeepsRegs t u) : KeepsRegs s u :=
  fun r => ⟨(h' r).1.trans (h r).1, (h' r).2.trans (h r).2⟩

theorem KeepsRegs.trans_writesReg {s u t : State} {rd : Reg} {v : Word} (h : KeepsRegs s u) (h' : WritesReg u t rd v) :
    WritesReg s t rd v := by
  intro r
  obtain ⟨hreg, hread⟩ := h r
  rw [← hreg, ← hread]
  exact h' r

section
variable {s : State} {rb : Reg} (hrb : s.CanRead [rb]) (hlittle : s.cfg.dataByteOrder = .little)
  (h : DataAccess s (s.reg rb) 4)
include hrb hlittle h

/-- One store more. -/
theorem Refilled.step {t : State} {c : Nat → Option Byte} {p : PartStore} (hfit : p.Fits) (hsrc : s.regReadable p.src = true)
    (ht : Refilled s t (s.reg rb) c) :
    ∃ u, exec (p.instr rb) t = .next u ∧ Refilled s u (s.reg rb) (p.bytesAfter s c) := by
  obtain ⟨hregs, hcfg, hbytes⟩ := ht
  have hread : s.CanRead [rb, p.src] := by simpa [State.CanRead, hsrc] using hrb
  obtain ⟨u, hexec, hmem, hregs', -, -, -, -, hcfg'⟩ :=
    PartStore.exec_instr hfit (hregs.canRead hread) (hregs rb).1 (h.of_cfg hcfg)
  refine ⟨u, hexec, hregs.trans hregs', hcfg'.trans hcfg, fun j => ?_⟩
  obtain ⟨-, hend⟩ := hfit
  have hpos := Width.bytes_pos p.width
  rw [hmem, h.toNat_add (by omega), hbytes, State.orderAt_of_little (by rw [hcfg, hlittle]), (hregs p.src).1,
    PartStore.bytesAfter]
  refine ite_congr (propext (by omega)) (fun _ => ?_) fun _ => rfl
  rw [Nat.add_sub_add_left, storedByte]

/-- Stores within the word, and then whatever comes. -/
theorem Refilled.execAll {t : State} {c : Nat → Option Byte} (l : List PartStore)
    (hl : ∀ p ∈ l, p.Fits ∧ s.regReadable p.src = true) (ht : Refilled s t (s.reg rb) c) (is : List Instr) :
    ∃ u, execAll (l.map (PartStore.instr rb) ++ is) t = execAll is u ∧
      Refilled s u (s.reg rb) (l.foldl (PartStore.bytesAfter s) c) := by
  induction l generalizing t c with
  | nil => exact ⟨t, rfl, ht⟩
  | cons p l ih =>
    obtain ⟨hfit, hsrc⟩ := hl p List.mem_cons_self
    obtain ⟨t', hexec, ht'⟩ := ht.step hrb hlittle h hfit hsrc
    obtain ⟨u, hrest, hu⟩ := ih (fun q hq => hl q (List.mem_cons_of_mem _ hq)) ht'
    exact ⟨u, (execAll_cons_next hexec _).trans hrest, hu⟩

section
variable (l : List PartStore) (hl : ∀ p ∈ l, p.Fits ∧ s.regReadable p.src = true) (rd : Reg)
include hl

/-- Stores within the word and then one load that, in the state they leave, puts `v` in `rd`. -/
theorem partStores_then_load {load : Instr} {v : Word}
    (hload : ∀ u, Refilled s u (s.reg rb) (storedBytes s (s.reg rb) l) → ∃ t, exec load u = .next t ∧ Computes u t rd v) :
    ∃ t, execAll (l.map (PartStore.instr rb) ++ [load]) s = .next t ∧ WritesReg s t rd v := by
  obtain ⟨u, hstores, hu⟩ := (Refilled.refl s (s.reg rb)).execAll hrb hlittle h l hl [load]
  obtain ⟨t, hexec, hwrites, -⟩ := hload u hu
  exact ⟨t, (hstores.trans (execAll_singleton load u)).trans hexec, hu.regs.trans_writesReg hwrites⟩

/-- LDW after stores that leave the four bytes known. -/
theorem partStores_then_ldw {b : Nat → Byte} (hb : ∀ j < 4, storedBytes s (s.reg rb) l j = some (b j)) :
    ∃ t, execAll (l.map (PartStore.instr rb) ++ [.ldw rd rb 0]) s = .next t ∧ WritesReg s t rd (wordOf .little b) := by
  refine partStores_then_load hrb hlittle h l hl rd fun u hu => ?_
  exact exec_ldw_little (hu.regs.canRead hrb) (h.of_cfg hu.cfg) rd (hu.cfg ▸ hlittle) (by simp [(hu.regs rb).1])
    fun j hj => (hu.bytes j).trans (hb j hj)

/-- LDHU after stores that leave the two low bytes known. -/
theorem partStores_then_ldhu {b : Nat → Byte} (hb : ∀ j < 2, storedBytes s (s.reg rb) l j = some (b j)) :
    ∃ t, execAll (l.map (PartStore.instr rb) ++ [.ldhu rd rb 0]) s = .next t ∧
      WritesReg s t rd ((b 1 ++ b 0).setWidth 32) := by
  refine partStores_then_load hrb hlittle h l hl rd fun u hu => ?_
  exact exec_ldhu_little (k := 0) (hu.regs.canRead hrb) (h.of_cfg hu.cfg) rd (hu.cfg ▸ hlittle) (by simp [(hu.regs rb).1])
    (by decide) (by decide) fun j hj => (hu.bytes (0 + j)).trans (by rw [Nat.zero_add, hb j hj])

/-- LDBU after stores that leave its byte known. -/
theorem partStores_then_ldbu {b : Nat → Byte} {k : Nat} (hk : k < 4) (hb : storedBytes s (s.reg rb) l k = some (b k)) :
    ∃ t, execAll (l.map (PartStore.instr rb) ++ [.ldbu rd rb (BitVec.ofNat 12 k)]) s = .next t ∧
      WritesReg s t rd ((b k).setWidth 32) := by
  refine partStores_then_load hrb hlittle h l hl rd fun u hu => ?_
  exact exec_ldbu_within (hu.regs.canRead hrb) (h.of_cfg hu.cfg) rd (by rw [(hu.regs rb).1, signExtend_offset _ hk]) hk
    ((hu.bytes k).trans hb)

end
end

/-! ## The statement -/

/-- Four bytes, from the lowest address up. -/
def fourBytes (b0 b1 b2 b3 : Byte) : Nat → Byte
  | 0 => b0
  | 1 => b1
  | 2 => b2
  | _ => b3

theorem wordOf_little_fourBytes (v w : Word) :
    wordOf .little (fourBytes (v.extractLsb' 0 8) (v.extractLsb' 8 8) (w.extractLsb' 0 8) (w.extractLsb' 8 8)) =
      w.setWidth 16 ++ v.setWidth 16 := by
  rw [← lowBytes_append, ← lowBytes_append]
  exact BitVec.append_assoc

/-- A byte stored into a stored word replaces that byte alone. -/
theorem storedBytes_byteInWord (s : State) (a : Word) (r q : Reg) (k : Nat) : ∀ j < 4,
    storedBytes s a [⟨.word, r, 0⟩, ⟨.byte, q, k⟩] j =
      some (if j = k then (s.reg q).setWidth 8 else (s.reg r).extractLsb' (8 * j) 8) := by
  intro j hj
  rw [storedBytes, List.foldl_cons, List.foldl_cons, List.foldl_nil]
  by_cases hjk : j = k
  · subst hjk
    rw [PartStore.bytesAfter_inside ⟨Nat.le_refl j, Nat.lt_succ_self j⟩, if_pos rfl, Nat.sub_self,
      BitVec.setWidth_eq_extractLsb' (by decide)]
  · rw [PartStore.bytesAfter_outside fun h => hjk (Nat.le_antisymm (Nat.le_of_lt_succ h.2) h.1),
      PartStore.bytesAfter_inside ⟨Nat.zero_le j, hj⟩, if_neg hjk, Nat.sub_zero]

/-- Settles O47: the bytes of the word after the stores are those of the last store into each, and the load takes its own. -/
theorem narrowStoresThenWiderLoad : Obligations.NarrowStoresThenWiderLoad := by
  unfold Obligations.NarrowStoresThenWiderLoad
  intro rd rb ra r1 r2 r3 s hread hlittle h
  obtain ⟨hrb, ha, h1, h2, h3⟩ : s.CanRead [rb] ∧ s.regReadable ra = true ∧ s.regReadable r1 = true ∧
      s.regReadable r2 = true ∧ s.regReadable r3 = true := by simpa [State.CanRead] using hread
  have hlow (v : Word) : v.setWidth 8 = v.extractLsb' 0 8 := BitVec.setWidth_eq_extractLsb' (by decide)
  refine ⟨?fourBytes, ?twoHalves, ?twoBytes, fun k hk => ?byteInWord, fun k hk => ?byteOfHalf⟩
  case fourBytes =>
    simp only [hlow]
    refine partStores_then_ldw hrb hlittle h [⟨.byte, ra, 0⟩, ⟨.byte, r1, 1⟩, ⟨.byte, r2, 2⟩, ⟨.byte, r3, 3⟩] ?_ rd
      (b := fourBytes ((s.reg ra).extractLsb' 0 8) ((s.reg r1).extractLsb' 0 8) ((s.reg r2).extractLsb' 0 8)
        ((s.reg r3).extractLsb' 0 8)) ?_
    · simp [PartStore.Fits, Width.bytes, ha, h1, h2, h3]
    · exact forall_lt_four rfl rfl rfl rfl
  case twoHalves =>
    rw [← wordOf_little_fourBytes]
    refine partStores_then_ldw hrb hlittle h [⟨.half, ra, 0⟩, ⟨.half, r1, 2⟩] ?_ rd ?_
    · simp [PartStore.Fits, Width.bytes, ha, h1]
    · exact forall_lt_four rfl rfl rfl rfl
  case twoBytes =>
    simp only [hlow]
    refine partStores_then_ldhu hrb hlittle h [⟨.byte, ra, 0⟩, ⟨.byte, r1, 1⟩] ?_ rd
      (b := fourBytes ((s.reg ra).extractLsb' 0 8) ((s.reg r1).extractLsb' 0 8) 0 0) ?_
    · simp [PartStore.Fits, Width.bytes, ha, h1]
    · exact forall_lt_two rfl rfl
  case byteInWord =>
    obtain ⟨t, hexec, hwrites⟩ := partStores_then_ldw hrb hlittle h [⟨.word, ra, 0⟩, ⟨.byte, r1, k⟩]
      (by simp [PartStore.Fits, Width.bytes, ha, h1]; omega) rd (storedBytes_byteInWord s (s.reg rb) ra r1 k)
    exact ⟨t, _, hexec, hwrites, extractLsb'_wordOf_little _⟩
  case byteOfHalf =>
    refine partStores_then_ldbu hrb hlittle h [⟨.half, ra, 0⟩] ?_ rd (b := fun j => (s.reg ra).extractLsb' (8 * j) 8)
      (by omega) ?_
    · simp [PartStore.Fits, Width.bytes, ha]
    · exact forall_lt_two (p := fun k => storedBytes _ _ _ k = some ((s.reg ra).extractLsb' (8 * k) 8)) rfl rfl k hk

end Sys2Proof.Machine
end

section
/-! What a step can do (spec/10_state.md R32), and the statements OnlyHaltHalts and TraceIsAppendOnly. A step that answers a
next state either takes a fault or runs the instruction its fetched word decodes to; an instruction that takes no fault is HALT
or extends its state, and without a device it leaves the io trace as it was unless it is YIELD or DEBUG. -/

namespace Sys2Proof.Machine

/-! ## From a step to the instruction it runs -/

/-- The bytes of a fetched word are listed at its address (R46). -/
theorem State.read_of_codeWord {s : State} {a w : Word} (ha : a.toNat % 4 = 0) (h : s.codeWord a = some w) :
    ∀ k < 4, Memory.read s.mem (a.toNat + k) = some (w.extractLsb' (8 * k) 8) := by
  unfold State.codeWord at h
  split at h
  next b0 b1 b2 b3 h0 h1 h2 h3 =>
    have hw : wordOf .little (fourBytes b0 b1 b2 b3) = w := Option.some.inj h
    have hbyte : ∀ k < 4, Memory.read s.mem (a + BitVec.ofNat 32 k).toNat = some (fourBytes b0 b1 b2 b3 k) :=
      forall_lt_four (by rwa [BitVec.add_zero]) h1 h2 h3
    intro k hk
    rw [← toNat_add_of_aligned ha hk, hbyte k hk, ← hw, extractLsb'_wordOf_little _ k hk]
  · cases h

theorem State.fetches_of_fetch {s : State} {w : Word} (h : s.fetch = .ok w) : Fetches s w := by
  unfold State.fetch at h
  split at h
  · cases h
  next haligned =>
    have haligned : s.pc.toNat % 4 = 0 := (extractLsb'_two_eq_zero_iff s.pc).1 (Classical.not_not.1 haligned)
    split at h
    · cases h
    next hcode =>
      split at h
      · cases h
      next hword =>
        cases h
        exact ⟨haligned, Nat.le_of_not_lt hcode, State.read_of_codeWord haligned hword⟩

/-- The opcode map gives each instruction under its own opcode alone (R86). -/
theorem opcode_of_decodeOpcode {op : Nat} {w : Word} {i : Instr} (h : decodeOpcode op w = .ok i) :
    op = i.opcode.toNat := by
  unfold decodeOpcode at h
  split at h <;> cases h <;> rfl

theorem opcode_of_decodeWord {w : Word} {i : Instr} (h : decodeWord w = .ok i) : bitsAt w 0 7 = i.opcode.toNat :=
  opcode_of_decodeOpcode (decodeWord_of_opcode rfl ▸ h)

/-- A step is taken from a running state only; it takes a fault, or it is the instruction of the fetched word. -/
theorem step_next_cases {s t : State} (h : step s = .next t) : s.status = .running ∧
    ((∃ c, t = { s with status := .faulted c }) ∨ ∃ w i, Fetches s w ∧ decodeWord w = .ok i ∧ exec i s = .next t) := by
  unfold step at h
  split at h
  · cases h
  · cases h
  next hrun =>
    refine ⟨hrun, ?_⟩
    split at h
    next c _ =>
      cases h
      exact .inl ⟨c, rfl⟩
    next w hfetch =>
      split at h
      next w' _ =>
        cases h
        exact .inl ⟨.illegalInstruction s.pc w', rfl⟩
      next i hdecode => exact .inr ⟨w, i, State.fetches_of_fetch hfetch, hdecode, h⟩

/-! ## Going on, and quietly so where there is no device -/

/-- `t` extends `s`, and only a device can have appended to the io trace (R31). -/
structure Continues (s t : State) : Prop extends Extends s t where
  quiet : s.cfg.mmio = .absent → t.io = s.io

theorem Continues.trans {s t u : State} (h : Continues s t) (h' : Continues t u) : Continues s u :=
  ⟨h.toExtends.trans h'.toExtends, fun habsent =>
    (h'.quiet (h.cfg.symm ▸ habsent)).trans (h.quiet habsent)⟩

theorem Continues.of_jump (s : State) (p : Word) : Continues s (s.jump p) := ⟨Extends.of_jump s p, fun _ => rfl⟩

theorem Continues.of_advance (s : State) : Continues s s.advance := Continues.of_jump s _

theorem Continues.of_writeReg (s : State) (r : Reg) (v : Word) : Continues s (s.writeReg r v) :=
  ⟨Extends.of_writeReg s r v, fun _ => s.writeReg_io r v⟩

theorem Continues.of_link (s : State) (rd : Reg) (p : Word) : Continues s (s.link rd p) :=
  (Continues.of_writeReg s rd _).trans (Continues.of_jump _ p)

/-! ## Without a device no access that goes ahead has a place in the MMIO region (R233) -/

section
variable {cfg : Config} {kind : AccessKind} {a : Word} {w : Width}

theorem region_ne_mmio_of_checkAt (habsent : cfg.mmio = .absent) (h : checkAt cfg kind a w = none) : regionOf a ≠ .mmio := by
  intro hregion
  simp [checkAt, hregion, habsent] at h

theorem self_mem_bytePlaces (a : Word) (w : Width) : (a, Width.byte) ∈ bytePlaces a w :=
  List.mem_map.2 ⟨0, List.mem_range.2 (Width.bytes_pos w), by simp⟩

/-- Each place of an access that goes ahead passed the checks, in the width of the whole access or of one byte (R51). -/
theorem exists_checkAt_of_checkData (h : checkData cfg kind a w = none) {p : Word × Width} (hp : p ∈ accessPlaces a w) :
    ∃ v, checkAt cfg kind p.1 v = none := by
  unfold checkData at h
  unfold accessPlaces at hp
  split at h
  next =>
    by_cases haligned : aligned a w
    · rw [if_pos haligned] at h hp
      obtain rfl := List.mem_singleton.1 hp
      exact ⟨w, h⟩
    · rw [if_neg haligned] at h
      cases h
  next =>
    split at hp
    · obtain rfl := List.mem_singleton.1 hp
      exact ⟨.byte, checkEach_none h _ (self_mem_bytePlaces a w)⟩
    · exact ⟨p.2, checkEach_none h p hp⟩

theorem region_ne_mmio_of_checkData (habsent : cfg.mmio = .absent) (h : checkData cfg kind a w = none) :
    ∀ p ∈ accessPlaces a w, regionOf p.1 ≠ .mmio := by
  intro p hp
  obtain ⟨v, hcheck⟩ := exists_checkAt_of_checkData h hp
  exact region_ne_mmio_of_checkAt habsent hcheck

end

/-- Reading outside the MMIO region changes no state. -/
theorem State.readPlace_state {s t : State} {p : Word × Width} {bs : List Byte} (hp : regionOf p.1 ≠ .mmio)
    (h : s.readPlace p = .ok (t, bs)) : t = s := by
  unfold State.readPlace at h
  split at h
  next hmmio => exact absurd hmmio hp
  all_goals
    split at h
    · cases h
    · cases h
      rfl

theorem State.readPlaces_state {ps : List (Word × Width)} {s t : State} {bs : List Byte}
    (hps : ∀ p ∈ ps, regionOf p.1 ≠ .mmio) (h : s.readPlaces ps = .ok (t, bs)) : t = s := by
  induction ps generalizing s bs with
  | nil =>
    cases h
    rfl
  | cons p ps ih =>
    obtain ⟨hp, hps⟩ := List.forall_mem_cons.1 hps
    simp only [State.readPlaces] at h
    split at h
    · cases h
    next hplace =>
      split at h
      · cases h
      next hplaces =>
        cases h
        rw [ih hps hplaces]
        exact State.readPlace_state hp hplace

/-- Writing outside the MMIO region appends nothing to the io trace. -/
theorem State.writePlace_io {s : State} {p : Word × Width} {bs : List Byte} (hp : regionOf p.1 ≠ .mmio) :
    (s.writePlace p bs).io = s.io := by
  unfold State.writePlace
  split
  next hmmio => exact absurd hmmio hp
  all_goals rfl

theorem State.writePlaces_io {ps : List (Word × Width)} (s : State) (bs : List Byte)
    (hps : ∀ p ∈ ps, regionOf p.1 ≠ .mmio) : (s.writePlaces ps bs).io = s.io := by
  induction ps generalizing s bs with
  | nil => rfl
  | cons p ps ih =>
    obtain ⟨hp, hps⟩ := List.forall_mem_cons.1 hps
    rw [State.writePlaces, ih _ _ hps, State.writePlace_io hp]

theorem Continues.of_memRead {s t : State} {a v : Word} {w : Width} (h : s.memRead a w = .ok (t, v)) : Continues s t := by
  refine ⟨(Extends.of_memRead h).1, fun habsent => ?_⟩
  unfold State.memRead at h
  split at h
  · cases h
  next hcheck =>
    split at h
    · cases h
    next hread =>
      cases h
      rw [State.readPlaces_state (region_ne_mmio_of_checkData habsent hcheck) hread]

theorem Continues.of_memWrite {s t : State} {a v : Word} {w : Width} (h : s.memWrite a w v = .ok t) : Continues s t := by
  refine ⟨(Extends.of_memWrite h).1, fun habsent => ?_⟩
  unfold State.memWrite at h
  split at h
  · cases h
  next hcheck =>
    cases h
    exact State.writePlaces_io s _ (region_ne_mmio_of_checkData habsent hcheck)

/-! ## What an outcome can be -/

/-- Where the outcome is a next state, it is the fault of `s` with some cause or it has the property. -/
def FaultsOr (s : State) (P : State → Prop) (o : Outcome) : Prop :=
  ∀ t, o = .next t → (∃ c, t = { s with status := .faulted c }) ∨ P t

section
variable {s : State} {P : State → Prop}

theorem FaultsOr.next {t : State} (h : P t) : FaultsOr s P (.next t) := by
  rintro _ ⟨⟩
  exact .inr h

theorem FaultsOr.imp {Q : State → Prop} {o : Outcome} (h : FaultsOr s P o) (hPQ : ∀ t, P t → Q t) : FaultsOr s Q o :=
  fun t ht => (h t ht).imp_right (hPQ t)

theorem FaultsOr.ite {c : Prop} [Decidable c] {o o' : Outcome} (h : FaultsOr s P o) (h' : FaultsOr s P o') :
    FaultsOr s P (if c then o else o') := by
  split
  · exact h
  · exact h'

theorem FaultsOr.raise (c : Cause) : FaultsOr s P (s.raise c) := by
  rintro _ ⟨⟩
  exact .inl ⟨c, rfl⟩

theorem FaultsOr.stop (e : Stop) : FaultsOr s P (s.stop e) := by
  cases e with
  | raise c => exact .raise c
  | refuse r => rintro _ ⟨⟩

theorem FaultsOr.withReg {r : Reg} {k : Word → Outcome} (h : FaultsOr s P (k (s.reg r))) : FaultsOr s P (s.withReg r k) := by
  obtain hk | hraise := s.withReg_cases r k
  · exact hk ▸ h
  · exact hraise ▸ .raise _

theorem FaultsOr.withRegs {r q : Reg} {k : Word → Word → Outcome} (h : FaultsOr s P (k (s.reg r) (s.reg q))) :
    FaultsOr s P (s.withRegs r q k) := by
  obtain hk | ⟨c, hraise⟩ := s.withRegs_cases r q k
  · exact hk ▸ h
  · exact hraise ▸ .raise c

end

/-! ## The shared operations go on or take a fault -/

section
variable (s : State) (rd rs1 rs2 : Reg)

theorem State.finish_faultsOr (v : Word) : FaultsOr s (Continues s) (s.finish rd v) :=
  .next ((Continues.of_writeReg s rd v).trans (Continues.of_advance _))

theorem State.computeReg_faultsOr (f : Word → Word → Word) : FaultsOr s (Continues s) (s.computeReg f rd rs1 rs2) :=
  .withRegs (s.finish_faultsOr rd _)

theorem State.computeImm_faultsOr (f : Word → Word) : FaultsOr s (Continues s) (s.computeImm f rd rs1) :=
  .withReg (s.finish_faultsOr rd _)

theorem State.divide_faultsOr (a b z o v : Word) : FaultsOr s (Continues s) (s.divide rd a b z o v) := by
  unfold State.divide
  refine .ite ?_ (.ite ?_ (s.finish_faultsOr rd v))
  all_goals
    cases s.cfg.divCorner with
    | fault => exact .raise _
    | riscvValues => exact s.finish_faultsOr rd _

theorem State.shift_faultsOr (f : Word → Nat → Word) (v x : Word) : FaultsOr s (Continues s) (s.shift f rd v x) := by
  unfold State.shift
  cases s.cfg.shamtRule with
  | mask5 => exact s.finish_faultsOr rd _
  | faultIfOver31 => exact .ite (.raise _) (s.finish_faultsOr rd _)

theorem execAndi_faultsOr (imm : BitVec 12) : FaultsOr s (Continues s) (execAndi rd rs1 imm s) := by
  refine .withReg ?_
  cases andiOperand s.cfg.andiImmExt imm with
  | some x => exact s.finish_faultsOr rd _
  | none => exact .stop _

theorem State.load_faultsOr (a : Word) (w : Width) (ext : Word → Word) :
    FaultsOr s (Continues s) (s.load rd a w ext) := by
  obtain ⟨t, v, hread, hload⟩ | ⟨e, -, hload⟩ := s.load_cases rd a w ext
  · exact hload ▸ .next (((Continues.of_memRead hread).trans (Continues.of_writeReg t rd _)).trans (Continues.of_advance _))
  · exact hload ▸ .stop e

theorem State.store_faultsOr (a : Word) (w : Width) (v : Word) : FaultsOr s (Continues s) (s.store a w v) := by
  obtain ⟨t, hwrite, hstore⟩ | ⟨e, -, hstore⟩ := s.store_cases a w v
  · exact hstore ▸ .next ((Continues.of_memWrite hwrite).trans (Continues.of_advance t))
  · exact hstore ▸ .stop e

theorem execAssertEq_faultsOr : FaultsOr s (Continues s) (execAssertEq rs1 rs2 s) :=
  .withRegs (.ite (.next (Continues.of_advance s)) (.raise _))

theorem State.branch_faultsOr (cond : Word → Word → Bool) (imm : BitVec 13) :
    FaultsOr s (Continues s) (s.branch cond rs1 rs2 imm) := by
  refine .withRegs (.next ?_)
  split
  · exact Continues.of_jump s _
  · exact Continues.of_advance s

end

/-! ## YIELD and DEBUG -/

/-- Whatever the host does in its turn, YIELD extends its state (R213). -/
theorem State.yield_extends (s : State) : Extends s (s.emit .yield).hostTurn.advance :=
  ((Extends.of_emit s .yield).trans (Extends.of_hostTurn _)).trans (Extends.of_advance _)

theorem State.emit_advance_extends (s : State) (e : Event) : Extends s (s.emit e).advance :=
  (Extends.of_emit s e).trans (Extends.of_advance _)

/-- The host appends events of its own in its turn, none where it does nothing (R213). -/
theorem State.hostTurn_io (s : State) :
    ∃ es, s.hostTurn.io = s.io ++ es ∧ (s.cfg.hostOnYield = .identity → es = []) := by
  cases hhost : s.cfg.hostOnYield with
  | identity => exact ⟨[], by rw [State.hostTurn_identity hhost, List.append_nil], fun _ => rfl⟩
  | given =>
    refine ⟨(Config.hostFunction s.hostView).events, ?_, nofun⟩
    simpa only [State.hostTurn, hhost] using (s.applyReply_effect _).2.1
  | havoc =>
    refine ⟨(Config.hostHavoc s.hostView).events, ?_, nofun⟩
    simpa only [State.hostTurn, hhost] using (s.applyReply_effect _).2.1

/-- What an instruction can do to the io trace without a device: YIELD records itself and what the host appends, DEBUG one
character, and no other anything (R31, R213, R214). -/
def TraceEffect (i : Instr) (s t : State) : Prop :=
  t.io = s.io ∨
  (i = .yield ∧ ∃ es, t.io = s.io ++ .yield :: es ∧ (s.cfg.hostOnYield = .identity → es = [])) ∨
  (∃ r, i = .debug r) ∧ ∃ b, t.io = s.io ++ [.debugChar b]

theorem State.yield_traceEffect (s : State) : TraceEffect .yield s (s.emit .yield).hostTurn.advance := by
  obtain ⟨es, hio, hidentity⟩ := (s.emit .yield).hostTurn_io
  refine .inr (.inl ⟨rfl, es, ?_, hidentity⟩)
  rw [State.advance_io, hio, State.emit_io, List.append_assoc, List.singleton_append]

/-! ## What an instruction can do -/

/-- What an instruction that takes no fault does: HALT halts, every other extends its state with its effect on the trace. -/
def RunEffect (i : Instr) (s t : State) : Prop :=
  (i = .halt ∧ t = s.halt) ∨ (Extends s t ∧ (s.cfg.mmio = .absent → TraceEffect i s t))

theorem Continues.runEffect {s t : State} (h : Continues s t) (i : Instr) : RunEffect i s t :=
  .inr ⟨h.toExtends, fun habsent => .inl (h.quiet habsent)⟩

theorem exec_faultsOr (i : Instr) (s : State) : FaultsOr s (RunEffect i s) (exec i s) := by
  have hgoes {o : Outcome} (h : FaultsOr s (Continues s) o) : FaultsOr s (RunEffect i s) o := h.imp fun _ ht => ht.runEffect i
  cases i <;> simp only [exec]
  case add | sub | mul | mulh | xor | or | and | slt | sltu | seq | sne | sgt | sgtu | sle | sleu | sge | sgeu =>
    exact hgoes (s.computeReg_faultsOr _ _ _ _)
  case addi | ori | xori | slti | sltiu => exact hgoes (s.computeImm_faultsOr _ _ _)
  case andi rd rs1 imm => exact hgoes (execAndi_faultsOr s rd rs1 imm)
  case lui rd imm => exact hgoes (s.finish_faultsOr rd _)
  case div rd _ _ | rem rd _ _ => exact hgoes (.withRegs (s.divide_faultsOr rd _ _ _ _ _))
  case sll rd _ _ | srl rd _ _ | sra rd _ _ => exact hgoes (.withRegs (s.shift_faultsOr rd _ _ _))
  case slli rd _ _ | srli rd _ _ | srai rd _ _ => exact hgoes (.withReg (s.shift_faultsOr rd _ _ _))
  case ldb rd _ _ | ldh rd _ _ | ldw rd _ _ | ldbu rd _ _ | ldhu rd _ _ =>
    exact hgoes (.withReg (s.load_faultsOr rd _ _ _))
  case stb | sth | stw => exact hgoes (.withRegs (s.store_faultsOr _ _ _))
  case assertEq rs1 rs2 => exact hgoes (execAssertEq_faultsOr s rs1 rs2)
  case jal rd imm => exact hgoes (.next (Continues.of_link s rd _))
  case jalr rd _ imm => exact hgoes (.withReg (.next (Continues.of_link s rd _)))
  case beq | bne | blt | bge | bltu | bgeu => exact hgoes (s.branch_faultsOr _ _ _ _)
  case nop => exact hgoes (.next (Continues.of_advance s))
  case halt => exact .next (.inl ⟨rfl, rfl⟩)
  case yield => exact .next (.inr ⟨s.yield_extends, fun _ => s.yield_traceEffect⟩)
  case debug r =>
    exact .withReg (.next (.inr ⟨s.emit_advance_extends _, fun _ => .inr (.inr ⟨⟨r, rfl⟩, _, rfl⟩)⟩))

/-! ## The statements -/

/-- Settles O9: a step that takes a fault ends Faulted and one that extends its state ends Running, so the instruction is HALT,
which the opcode map lists under 0x7F alone. -/
theorem onlyHaltHalts : Obligations.OnlyHaltHalts := by
  unfold Obligations.OnlyHaltHalts
  intro s t hstep hhalted
  obtain ⟨hrun, ⟨c, rfl⟩ | ⟨w, i, hfetch, hdecode, hexec⟩⟩ := step_next_cases hstep
  · cases hhalted
  · obtain ⟨c, rfl⟩ | ⟨rfl, rfl⟩ | ⟨hext, -⟩ := exec_faultsOr i s t hexec
    · cases hhalted
    · exact ⟨w, hfetch, opcode_of_decodeWord hdecode, rfl⟩
    · rw [hext.status, hrun] at hhalted
      cases hhalted

/-- Settles O15: a fault and HALT leave the trace as it was, and every other instruction extends it by its effect. -/
theorem traceIsAppendOnly : Obligations.TraceIsAppendOnly := by
  unfold Obligations.TraceIsAppendOnly
  intro s t hstep
  have hsame (hio : t.io = s.io) : s.io <+: t.io := hio ▸ List.prefix_refl s.io
  obtain ⟨-, ⟨c, rfl⟩ | ⟨w, i, hfetch, hdecode, hexec⟩⟩ := step_next_cases hstep
  · exact ⟨hsame rfl, fun _ => .inl rfl⟩
  · obtain ⟨c, rfl⟩ | ⟨rfl, rfl⟩ | ⟨hext, htrace⟩ := exec_faultsOr i s t hexec
    · exact ⟨hsame rfl, fun _ => .inl rfl⟩
    · exact ⟨hsame rfl, fun _ => .inl rfl⟩
    · refine ⟨hext.io, fun habsent => ?_⟩
      obtain hio | ⟨rfl, hes⟩ | ⟨⟨r, rfl⟩, hb⟩ := htrace habsent
      · exact .inl hio
      · exact .inr ⟨w, hfetch, .inl ⟨opcode_of_decodeWord hdecode, hes⟩⟩
      · exact .inr ⟨w, hfetch, .inr ⟨opcode_of_decodeWord hdecode, hb⟩⟩

end Sys2Proof.Machine
end

section
/-! The special instructions (spec/47_special.md), and the statements LuiPlacesTheUpperField, AssertEqTrapsWhenDifferent,
NopOnlyAdvances, YieldRecordsAndContinues, YieldUnderAnyHost, DebugOutputsTheLowByte and HaltStopsTheMachine. -/

namespace Sys2Proof.Machine

/-! ## U-type words (R76, R83) -/

theorem immU_eq_bitsAt (w : Word) : immU w = BitVec.ofNat 20 (bitsAt w 12 20) :=
  BitVec.eq_of_toNat_eq (by simp [immU, bitsAt, Nat.shiftRight_eq_div_pow])

/-- An opcode that the opcode map gives a destination register and immU. -/
theorem encodedU_of_decodeOpcode {op : Nat} {mk : Reg → BitVec 20 → Instr}
    (h : ∀ w, decodeOpcode op w = .ok (mk (rdOf w) (immU w))) : EncodedU op mk := by
  intro w hop
  rw [decodeWord_of_opcode hop, h, rdOf_eq_regAt, immU_eq_bitsAt]

/-- Twelve zeros below the field are a factor 2^12 (R83). -/
theorem upper20_eq_ofNat (imm : BitVec 20) : upper20 imm = BitVec.ofNat 32 (imm.toNat * 2 ^ 12) := by
  refine BitVec.eq_of_toNat_eq ?_
  have himm := imm.isLt
  rw [upper20, toNat_append_eq_add, BitVec.toNat_ofNat, BitVec.toNat_ofNat]
  omega

/-- The upper field of a word is the word with its low twelve bits cleared (R210). -/
theorem upper20_immU (w : Word) : upper20 (immU w) = w &&& 0xFFFFF000 := by
  have hmask : (0xFFFFF000 : Word) = BitVec.allOnes 32 <<< 12 := by decide
  refine BitVec.eq_of_getLsbD_eq fun k hk => ?_
  rw [hmask, upper20, immU, BitVec.getLsbD_append, BitVec.getLsbD_and, BitVec.getLsbD_shiftLeft,
    BitVec.getLsbD_allOnes]
  by_cases h : k < 12
  · simp [h]
  · simp [h, hk, show k - 12 < 20 by omega, show k - 12 < 32 by omega, show 12 + (k - 12) = k by omega]

/-! ## Appending an event, and halting -/

theorem State.advance_onlyMovesPc (s : State) : OnlyMovesPc s s.advance (s.pc + 4) := s.jump_onlyMovesPc (s.pc + 4)

/-- Appending an event and advancing is the whole effect of DEBUG, and of YIELD where the host does nothing (R213, R214). -/
theorem State.emit_advance_effect (s : State) (e : Event) :
    KeepsRegs s (s.emit e).advance ∧ (s.emit e).advance.pc = s.pc + 4 ∧ KeepsMemory s (s.emit e).advance ∧
      (s.emit e).advance.status = s.status ∧ (s.emit e).advance.io = s.io ++ [e] ∧
      (s.emit e).advance.mmioLog = s.mmioLog ∧ (s.emit e).advance.cfg = s.cfg :=
  ⟨fun _ => ⟨rfl, rfl⟩, rfl, fun _ => rfl, rfl, rfl, rfl, rfl⟩

theorem State.halt_keepsRegs (s : State) : KeepsRegs s s.halt := fun _ => ⟨rfl, rfl⟩

theorem exec_yield (s : State) : exec .yield s = .next (s.emit .yield).hostTurn.advance := rfl

theorem exec_yield_identity {s : State} (h : s.cfg.hostOnYield = .identity) :
    exec .yield s = .next (s.emit .yield).advance := by
  rw [exec_yield, State.hostTurn_identity (s := s.emit .yield) h]

theorem exec_debug {s : State} {rs1 : Reg} (h : s.regReadable rs1 = true) :
    exec (.debug rs1) s = .next (s.emit (.debugChar ((s.reg rs1).setWidth 8))).advance := by
  simp only [exec, execDebug, State.withReg_readable h]

theorem exec_assertEq {s : State} {rs1 rs2 : Reg} (h : s.CanRead [rs1, rs2]) :
    exec (.assertEq rs1 rs2) s =
      if equal (s.reg rs1) (s.reg rs2) then .next s.advance else s.raise (.assertFailed s.pc) := by
  simp only [exec, execAssertEq, State.withRegs_of_canRead h]

/-- The low byte of a word is its remainder by 256 (R214). -/
theorem setWidth_eight_eq_ofNat (v : Word) : v.setWidth 8 = BitVec.ofNat 8 (v.toNat % 256) := by
  refine BitVec.eq_of_toNat_eq ?_
  rw [BitVec.toNat_setWidth, BitVec.toNat_ofNat, Nat.mod_mod]

/-! ## The statements -/

/-- Settles O50: LUI computes its field times 2^12, which for a word is the word with its low twelve bits cleared. -/
theorem luiPlacesTheUpperField : Obligations.LuiPlacesTheUpperField := by
  unfold Obligations.LuiPlacesTheUpperField
  refine ⟨encodedU_of_decodeOpcode fun _ => rfl, fun rd imm s => ?_, fun w s hop => ?_⟩
  · rw [exec_lui, ← upper20_eq_ofNat]
    exact s.finish_computes rd _
  · obtain ⟨t, hexec, ht⟩ := s.finish_computes (rdOf w) (upper20 (immU w))
    rw [rdOf_eq_regAt, upper20_immU] at ht
    exact ⟨.lui (rdOf w) (immU w), t, decodeWord_of_opcode hop, hexec, ht⟩

/-- Settles O51: ASSERT_EQ advances where its registers are equal and raises AssertFailed where they differ. -/
theorem assertEqTrapsWhenDifferent : Obligations.AssertEqTrapsWhenDifferent := by
  unfold Obligations.AssertEqTrapsWhenDifferent
  refine ⟨fun w hop => ?decode, fun rs1 rs2 s hread => ?exec⟩
  case decode =>
    rw [decodeWord_of_opcode hop, ← rs1Of_eq_regAt, ← rs2Of_eq_regAt]
    rfl
  case exec =>
    rw [exec_assertEq hread]
    refine ⟨fun heq => ⟨s.advance, if_pos (equal_iff.2 heq), s.advance_onlyMovesPc⟩, fun hne => ?_⟩
    rw [if_neg (mt equal_iff.1 hne)]
    exact s.raise_takes _

/-- Settles O53: the identity host leaves the recorded event and the advance as the whole effect. -/
theorem yieldRecordsAndContinues : Obligations.YieldRecordsAndContinues := by
  unfold Obligations.YieldRecordsAndContinues
  refine ⟨fun _ hop => decodeWord_of_opcode hop, fun s hhost => ?_⟩
  exact ⟨_, exec_yield_identity hhost, s.emit_advance_effect .yield⟩

/-- Settles O54: the host's turn extends the state in which the Yield event is already recorded, and leaves the pc alone. -/
theorem yieldUnderAnyHost : Obligations.YieldUnderAnyHost := by
  unfold Obligations.YieldUnderAnyHost
  intro s
  have hext : Extends s (s.emit .yield).hostTurn.advance := s.yield_extends
  have hpc : (s.emit .yield).hostTurn.advance.pc = s.pc + 4 := by
    rw [State.advance_pc, State.hostTurn_pc, State.emit_pc]
  have hio : s.io ++ [.yield] <+: (s.emit .yield).hostTurn.advance.io := (Extends.of_hostTurn (s.emit .yield)).io
  exact ⟨_, exec_yield s, hpc, hio, hext.status, hext.cfg, State.reg_zero _, hext.code⟩

/-- Settles O55: DEBUG appends the low eight bits of its register and advances. -/
theorem debugOutputsTheLowByte : Obligations.DebugOutputsTheLowByte := by
  unfold Obligations.DebugOutputsTheLowByte
  refine ⟨fun w hop => ?decode, fun rs1 s hread => ?exec⟩
  case decode =>
    rw [decodeWord_of_opcode hop, ← rs1Of_eq_regAt]
    rfl
  case exec =>
    rw [exec_debug (hread rs1 (by simp)), setWidth_eight_eq_ofNat]
    exact ⟨_, rfl, s.emit_advance_effect _⟩

/-- Settles O56: HALT changes the status alone, and a halted state has no step. -/
theorem haltStopsTheMachine : Obligations.HaltStopsTheMachine := by
  unfold Obligations.HaltStopsTheMachine
  refine ⟨fun _ hop => decodeWord_of_opcode hop, fun s => ?_⟩
  exact ⟨s.halt, rfl, s.halt_status, s.halt_keepsRegs, s.halt_pc, fun _ => rfl, s.halt_io, s.halt_mmioLog, s.halt_cfg, rfl⟩

/-- Settles O52: NOP is the advance, and its opcode alone decodes to it. -/
theorem nopOnlyAdvances : Obligations.NopOnlyAdvances := by
  unfold Obligations.NopOnlyAdvances
  exact ⟨fun _ hop => decodeWord_of_opcode hop, fun s => ⟨s.advance, rfl, s.advance_onlyMovesPc⟩⟩

end Sys2Proof.Machine
end

section
/-! Encoding and decoding (spec/30_encoding.md sections 1 to 4), and the statements DecodeOfEncodeIsIdentity,
DecoderIsTotalAndClosed, UnusedBitsAreIgnored and CanonicalWordsDecode. A word put together in a format has the fields it was
made of, so it decodes to the instruction its opcode selects with those fields. -/

namespace Sys2Proof.Machine

open Sys2Proof.Laws.OpcodeField (wordR_opcode wordI_opcode wordS_opcode wordB_opcode wordU_opcode wordJ_opcode)

/-! ## A word has the fields it was made of (R71 to R77): a field is at the low end once the parts below it are dropped -/

section
variable (op : BitVec 7) (rd rs1 rs2 : Reg)

theorem wordR_fields : (wordR op rd rs1 rs2).extractLsb' 7 5 = .ofFin rd ∧
    (wordR op rd rs1 rs2).extractLsb' 15 5 = .ofFin rs1 ∧ (wordR op rd rs1 rs2).extractLsb' 20 5 = .ofFin rs2 := by
  unfold wordR
  refine ⟨?_, ?_, ?_⟩
  all_goals
    repeat rw [BitVec.extractLsb'_append_eq_of_le (by decide)]
    exact BitVec.extractLsb'_append_eq_right

theorem wordI_fields (imm : BitVec 12) : (wordI op rd rs1 imm).extractLsb' 7 5 = .ofFin rd ∧
    (wordI op rd rs1 imm).extractLsb' 15 5 = .ofFin rs1 ∧ (wordI op rd rs1 imm).extractLsb' 20 12 = imm := by
  unfold wordI
  refine ⟨?_, ?_, ?top⟩
  all_goals repeat rw [BitVec.extractLsb'_append_eq_of_le (by decide)]
  case top => exact BitVec.extractLsb'_eq_self
  all_goals exact BitVec.extractLsb'_append_eq_right

theorem wordS_fields (imm : BitVec 12) : (wordS op rs1 rs2 imm).extractLsb' 15 5 = .ofFin rs1 ∧
    (wordS op rs1 rs2 imm).extractLsb' 20 5 = .ofFin rs2 ∧
    (wordS op rs1 rs2 imm).extractLsb' 25 7 = imm.extractLsb' 5 7 ∧
    (wordS op rs1 rs2 imm).extractLsb' 7 5 = imm.extractLsb' 0 5 := by
  unfold wordS
  refine ⟨?_, ?_, ?top, ?_⟩
  all_goals repeat rw [BitVec.extractLsb'_append_eq_of_le (by decide)]
  case top => exact BitVec.extractLsb'_eq_self
  all_goals exact BitVec.extractLsb'_append_eq_right

theorem wordB_fields (imm : BitVec 13) : (wordB op rs1 rs2 imm).extractLsb' 15 5 = .ofFin rs1 ∧
    (wordB op rs1 rs2 imm).extractLsb' 20 5 = .ofFin rs2 ∧
    (wordB op rs1 rs2 imm).extractLsb' 31 1 = imm.extractLsb' 12 1 ∧
    (wordB op rs1 rs2 imm).extractLsb' 7 1 = imm.extractLsb' 11 1 ∧
    (wordB op rs1 rs2 imm).extractLsb' 25 6 = imm.extractLsb' 5 6 ∧
    (wordB op rs1 rs2 imm).extractLsb' 8 4 = imm.extractLsb' 1 4 := by
  unfold wordB
  refine ⟨?_, ?_, ?top, ?_, ?_, ?_⟩
  all_goals repeat rw [BitVec.extractLsb'_append_eq_of_le (by decide)]
  case top => exact BitVec.extractLsb'_eq_self
  all_goals exact BitVec.extractLsb'_append_eq_right

theorem wordU_fields (imm : BitVec 20) : (wordU op rd imm).extractLsb' 7 5 = .ofFin rd ∧
    (wordU op rd imm).extractLsb' 12 20 = imm := by
  unfold wordU
  refine ⟨?_, ?top⟩
  all_goals repeat rw [BitVec.extractLsb'_append_eq_of_le (by decide)]
  case top => exact BitVec.extractLsb'_eq_self
  all_goals exact BitVec.extractLsb'_append_eq_right

theorem wordJ_fields (imm : BitVec 21) : (wordJ op rd imm).extractLsb' 7 5 = .ofFin rd ∧
    (wordJ op rd imm).extractLsb' 31 1 = imm.extractLsb' 20 1 ∧
    (wordJ op rd imm).extractLsb' 12 8 = imm.extractLsb' 12 8 ∧
    (wordJ op rd imm).extractLsb' 20 1 = imm.extractLsb' 11 1 ∧
    (wordJ op rd imm).extractLsb' 21 10 = imm.extractLsb' 1 10 := by
  unfold wordJ
  refine ⟨?_, ?top, ?_, ?_, ?_⟩
  all_goals repeat rw [BitVec.extractLsb'_append_eq_of_le (by decide)]
  case top => exact BitVec.extractLsb'_eq_self
  all_goals exact BitVec.extractLsb'_append_eq_right

end

/-! ## An immediate put together from its parts (R81, R82, R84) -/

theorem immS_parts (imm : BitVec 12) : imm.extractLsb' 5 7 ++ imm.extractLsb' 0 5 = imm := by
  rw [BitVec.extractLsb'_append_extractLsb'_eq_extractLsb' (by rfl)]
  exact BitVec.extractLsb'_eq_self

/-- An even offset has a zero in bit 0. -/
theorem extractLsb'_zero_of_even {n : Nat} {imm : BitVec n} (h : evenOffset imm = true) : imm.extractLsb' 0 1 = 0#1 := by
  refine BitVec.eq_of_getLsbD_eq fun i hi => ?_
  obtain rfl : i = 0 := by omega
  simpa [evenOffset] using h

theorem immB_parts {imm : BitVec 13} (h : evenOffset imm = true) :
    imm.extractLsb' 12 1 ++ imm.extractLsb' 11 1 ++ imm.extractLsb' 5 6 ++ imm.extractLsb' 1 4 ++ 0#1 = imm := by
  rw [← extractLsb'_zero_of_even h]
  repeat rw [BitVec.extractLsb'_append_extractLsb'_eq_extractLsb' (by rfl)]
  exact BitVec.extractLsb'_eq_self

theorem immJ_parts {imm : BitVec 21} (h : evenOffset imm = true) :
    imm.extractLsb' 20 1 ++ imm.extractLsb' 12 8 ++ imm.extractLsb' 11 1 ++ imm.extractLsb' 1 10 ++ 0#1 = imm := by
  rw [← extractLsb'_zero_of_even h]
  repeat rw [BitVec.extractLsb'_append_extractLsb'_eq_extractLsb' (by rfl)]
  exact BitVec.extractLsb'_eq_self

/-! ## Decoding a word of each format, by the opcode map's row for its opcode (R86) -/

section
variable {op : BitVec 7}

theorem decodeWord_wordR {mk : Reg → Reg → Reg → Instr}
    (h : ∀ w, decodeOpcode op.toNat w = .ok (mk (rdOf w) (rs1Of w) (rs2Of w))) (rd rs1 rs2 : Reg) :
    decodeWord (wordR op rd rs1 rs2) = .ok (mk rd rs1 rs2) := by
  obtain ⟨hrd, hrs1, hrs2⟩ := wordR_fields op rd rs1 rs2
  rw [decodeWord, wordR_opcode, h, rdOf, rs1Of, rs2Of, hrd, hrs1, hrs2]

theorem decodeWord_wordI {mk : Reg → Reg → BitVec 12 → Instr}
    (h : ∀ w, decodeOpcode op.toNat w = .ok (mk (rdOf w) (rs1Of w) (immI w))) (rd rs1 : Reg) (imm : BitVec 12) :
    decodeWord (wordI op rd rs1 imm) = .ok (mk rd rs1 imm) := by
  obtain ⟨hrd, hrs1, himm⟩ := wordI_fields op rd rs1 imm
  rw [decodeWord, wordI_opcode, h, rdOf, rs1Of, immI, hrd, hrs1, himm]

theorem decodeWord_wordS {mk : Reg → Reg → BitVec 12 → Instr}
    (h : ∀ w, decodeOpcode op.toNat w = .ok (mk (rs1Of w) (rs2Of w) (immS w))) (rs1 rs2 : Reg) (imm : BitVec 12) :
    decodeWord (wordS op rs1 rs2 imm) = .ok (mk rs1 rs2 imm) := by
  obtain ⟨hrs1, hrs2, h11, h4⟩ := wordS_fields op rs1 rs2 imm
  rw [decodeWord, wordS_opcode, h, rs1Of, rs2Of, immS, hrs1, hrs2, h11, h4, immS_parts]

theorem decodeWord_wordU {mk : Reg → BitVec 20 → Instr}
    (h : ∀ w, decodeOpcode op.toNat w = .ok (mk (rdOf w) (immU w))) (rd : Reg) (imm : BitVec 20) :
    decodeWord (wordU op rd imm) = .ok (mk rd imm) := by
  obtain ⟨hrd, himm⟩ := wordU_fields op rd imm
  rw [decodeWord, wordU_opcode, h, rdOf, immU, hrd, himm]

theorem decodeWord_wordB {mk : Reg → Reg → BitVec 13 → Instr}
    (h : ∀ w, decodeOpcode op.toNat w = .ok (mk (rs1Of w) (rs2Of w) (immB w))) (rs1 rs2 : Reg) {imm : BitVec 13}
    (heven : evenOffset imm = true) : decodeWord (wordB op rs1 rs2 imm) = .ok (mk rs1 rs2 imm) := by
  obtain ⟨hrs1, hrs2, h12, h11, h10, h4⟩ := wordB_fields op rs1 rs2 imm
  rw [decodeWord, wordB_opcode, h, rs1Of, rs2Of, immB, hrs1, hrs2, h12, h11, h10, h4, immB_parts heven]

theorem decodeWord_wordJ {mk : Reg → BitVec 21 → Instr}
    (h : ∀ w, decodeOpcode op.toNat w = .ok (mk (rdOf w) (immJ w))) (rd : Reg) {imm : BitVec 21}
    (heven : evenOffset imm = true) : decodeWord (wordJ op rd imm) = .ok (mk rd imm) := by
  obtain ⟨hrd, h20, h19, h11, h10⟩ := wordJ_fields op rd imm
  rw [decodeWord, wordJ_opcode, h, rdOf, immJ, hrd, h20, h19, h11, h10, immJ_parts heven]

end

/-! ## Listed and unlisted opcodes (R86, R87) -/

/-- No instruction has an unlisted opcode. -/
theorem opcode_not_unlisted (i : Instr) : i.opcode.toNat ∉ unlistedOpcodes := by
  cases i <;> simp only [Instr.opcode] <;> decide

/-- An illegal word is recorded as it is (R90). -/
theorem eq_of_decodeOpcode_illegal {op : Nat} {w w' : Word} (h : decodeOpcode op w = .illegal w') : w' = w := by
  unfold decodeOpcode at h
  split at h <;> cases h
  rfl

theorem decodeWord_of_unlisted {w : Word} (h : bitsAt w 0 7 ∈ unlistedOpcodes) : decodeWord w = .illegal w := by
  cases hdecode : decodeWord w with
  | ok i => exact absurd (opcode_of_decodeWord hdecode ▸ h) (opcode_not_unlisted i)
  | illegal w' => rw [eq_of_decodeOpcode_illegal hdecode]

/-- Whatever the fields hold, the opcode of an instruction decodes. -/
theorem decodeOpcode_opcode (i : Instr) (w : Word) : ∃ j, decodeOpcode i.opcode.toNat w = .ok j := by
  cases i <;> exact ⟨_, rfl⟩

theorem decodeOpcode_zero_of_listed : ∀ op < 128, op ∉ unlistedOpcodes → decodeOpcode op 0 ≠ .illegal 0 := by
  decide

theorem decodeWord_of_listed {w : Word} (h : bitsAt w 0 7 ∉ unlistedOpcodes) : ∃ i, decodeWord w = .ok i := by
  cases hzero : decodeOpcode (bitsAt w 0 7) 0 with
  | ok i =>
    rw [decodeWord_of_opcode rfl, opcode_of_decodeOpcode hzero]
    exact decodeOpcode_opcode i w
  | illegal w' =>
    obtain rfl := eq_of_decodeOpcode_illegal hzero
    exact absurd hzero (decodeOpcode_zero_of_listed _ (bitsAt_lt w 0 7) h)

/-! ## What is decoded has an encoding (R82, R84, R85) -/

theorem evenOffset_append_zero {n : Nat} (x : BitVec n) : evenOffset (x ++ 0#1) = true := by
  simp [evenOffset, BitVec.getElem_append]

/-- The branch and JAL rows take an offset that ends in a zero; the other rows have no condition to meet. -/
theorem wf_of_decodeWord {w : Word} {i : Instr} (h : decodeWord w = .ok i) : i.wf = true := by
  unfold decodeWord decodeOpcode at h
  split at h <;> cases h
  case h_42 | h_44 | h_45 | h_46 | h_47 | h_48 | h_49 => exact evenOffset_append_zero _
  all_goals rfl

/-! ## The statements -/

/-- Settles O1: each format gives back the fields its word was made of, an even offset included. -/
theorem decodeOfEncodeIsIdentity : Obligations.DecodeOfEncodeIsIdentity := by
  unfold Obligations.DecodeOfEncodeIsIdentity
  intro i hwf
  cases i with
  | nop | yield | halt => rfl
  | debug rs1 => exact decodeWord_wordR (mk := fun _ a _ => .debug a) (fun _ => rfl) 0 rs1 0
  | assertEq rs1 rs2 =>
    exact decodeWord_wordR (mk := fun _ a b => .assertEq a b) (fun _ => rfl) 0 rs1 rs2
  | add | sub | xor | or | and | sll | srl | sra | slt | sltu | mul | mulh | div | rem | seq | sne | sgt | sgtu | sle | sleu
  | sge | sgeu => exact decodeWord_wordR (fun _ => rfl) _ _ _
  | addi | ori | andi | slli | srli | srai | slti | sltiu | xori | ldb | ldh | ldw | ldbu | ldhu | jalr =>
    exact decodeWord_wordI (fun _ => rfl) _ _ _
  | stb | sth | stw => exact decodeWord_wordS (fun _ => rfl) _ _ _
  | lui => exact decodeWord_wordU (fun _ => rfl) _ _
  | beq | bne | blt | bge | bltu | bgeu => exact decodeWord_wordB (fun _ => rfl) _ _ hwf
  | jal => exact decodeWord_wordJ (fun _ => rfl) _ hwf

/-- Settles O2: an instruction has a listed opcode and a listed opcode has an instruction; what is decoded is well-formed, so its
canonical word decodes to it, and the opcode of both words is the instruction's. -/
theorem decoderIsTotalAndClosed : Obligations.DecoderIsTotalAndClosed := by
  unfold Obligations.DecoderIsTotalAndClosed
  refine fun w => ⟨decodeWord_of_unlisted, fun hlisted => ?_⟩
  obtain ⟨i, hdecode⟩ := decodeWord_of_listed hlisted
  have hwf := wf_of_decodeWord hdecode
  have hcanonical := decodeOfEncodeIsIdentity i hwf
  exact ⟨i, hdecode, hwf, hcanonical, (opcode_of_decodeWord hcanonical).trans (opcode_of_decodeWord hdecode).symm⟩

/-- Settles O4: the opcode map reads three register fields, or two and immI, and nothing else of the word. -/
theorem unusedBitsAreIgnored : Obligations.UnusedBitsAreIgnored := by
  unfold Obligations.UnusedBitsAreIgnored
  refine ⟨?_, ?_, ?_, ?_, ?_, ?_, ?_, ?_, ?_, ?_, ?_, ?_, ?_, ?_, ?_, ?_, ?immediate⟩
  case immediate => exact encodedI_of_decodeOpcode fun _ => rfl
  all_goals exact encodedR_of_decodeOpcode fun _ => rfl

/-- Settles O3: nine closed words, decoded. -/
theorem canonicalWordsDecode : Obligations.CanonicalWordsDecode := by
  unfold Obligations.CanonicalWordsDecode
  decide

end Sys2Proof.Machine
end

section
/-! What every step keeps (spec/10_state.md R22, R32; spec/20_memory.md R40, R59; spec/60_exceptions.md R234), the fetch, and the
canonical form of memory. The statements FaultsChangeOnlyTheStatus, StepKeepsTheInvariant, CodeMemoryIsConstant,
LaunchParametersNeverChange, StepRunsTheDecodedInstruction, BadPcFaultsAtFetch, TerminalStatesHaveNoStep, MemoryFormIsCanonical,
ResetMeetsTheInvariant and ResetState. -/

namespace Sys2Proof.Machine

/-! ## A step changes the status alone, or it extends its state -/

section
variable {s t : State}

/-- Taking a fault and halting change the status alone; whatever else a step runs extends its state. -/
theorem step_status_or_extends (h : step s = .next t) : (∃ x, t = { s with status := x }) ∨ Extends s t := by
  obtain ⟨-, ⟨c, rfl⟩ | ⟨w, i, -, -, hexec⟩⟩ := step_next_cases h
  · exact .inl ⟨_, rfl⟩
  · obtain ⟨c, rfl⟩ | ⟨-, rfl⟩ | ⟨hext, -⟩ := exec_faultsOr i s t hexec
    · exact .inl ⟨_, rfl⟩
    · exact .inl ⟨_, rfl⟩
    · exact .inr hext

theorem Extends.inv (h : Extends s t) (hs : s.Inv) : t.Inv :=
  ⟨h.sorted hs.memSorted, h.backed hs.memBacked, h.zero.trans hs.zeroStored, h.known.trans hs.zeroKnown⟩

/-- The invariant does not speak of the status. -/
theorem State.Inv.with_status (hs : s.Inv) (x : Status) : State.Inv { s with status := x } :=
  ⟨hs.memSorted, hs.memBacked, hs.zeroStored, hs.zeroKnown⟩

/-! ## The fetch of a word of Code memory (R32, R46) -/

theorem bytesOfWord_getElem (w : Word) {k : Nat} (hk : k < (bytesOfWord w).length) :
    (bytesOfWord w)[k] = w.extractLsb' (8 * k) 8 := by
  simp [show bytesOfWord w = (List.range 4).map fun k => w.extractLsb' (8 * k) 8 from rfl]

theorem State.fetch_of_fetches {w : Word} (h : Fetches s w) : s.fetch = .ok w := by
  obtain ⟨haligned, hcode, hbytes⟩ := h
  have hbyte (k : Nat) (hk : k < (bytesOfWord w).length) :
      Memory.read s.mem (s.pc.toNat + k) = some (bytesOfWord w)[k] := by
    rw [hbytes k hk, bytesOfWord_getElem]
  rw [State.fetch, if_neg (Classical.not_not.2 ((extractLsb'_two_eq_zero_iff s.pc).2 haligned)),
    if_neg (show ¬s.pc.toNat > codeLast from Nat.not_lt.2 hcode), State.codeWord_eq_some haligned hbyte]

theorem step_of_fetch_ok {w : Word} (hrun : s.status = .running) (h : s.fetch = .ok w) :
    (∀ i, decodeWord w = .ok i → step s = exec i s) ∧
    (∀ w', decodeWord w = .illegal w' → step s = s.raise (.illegalInstruction s.pc w')) := by
  refine ⟨fun i hdecode => ?_, fun w' hdecode => ?_⟩ <;> simp only [step, hrun, h, hdecode]

end

/-! ## Memory in canonical form is the set of its entries -/

/-- Where the addresses rise strictly, what an address reads as is the entry listed for it. -/
theorem Memory.read_eq_some_iff {m : Memory} (h : Memory.wf m) {a : Nat} {b : Byte} :
    Memory.read m a = some b ↔ (a, b) ∈ m := by
  induction m with
  | nil => simp [Memory.read]
  | cons c m ih =>
    obtain ⟨hfirst, hrest⟩ := List.pairwise_cons.1 h
    rw [Memory.read, List.mem_cons]
    split
    next heq =>
      subst heq
      have hnot : (c.1, b) ∉ m := fun hmem => Nat.lt_irrefl c.1 (hfirst (c.1, b) hmem)
      simp [hnot, Prod.ext_iff, eq_comm]
    next hne =>
      have hnot : (a, b) ≠ c := fun heq => hne (congrArg Prod.fst heq)
      simp [hnot, ih hrest]

theorem Memory.nodup_of_wf {m : Memory} (h : Memory.wf m) : m.Nodup :=
  h.imp fun hlt heq => Nat.ne_of_lt hlt (congrArg Prod.fst heq)

/-! ## The statements -/

/-- Settles O8: a step that extends its state ends Running and HALT ends Halted, so a step that ends Faulted took a fault. -/
theorem faultsChangeOnlyTheStatus : Obligations.FaultsChangeOnlyTheStatus := by
  unfold Obligations.FaultsChangeOnlyTheStatus
  intro s t c hstep hfaulted
  obtain ⟨x, rfl⟩ | hext := step_status_or_extends hstep
  · rw [← hfaulted]
  · rw [hext.status, (step_next_cases hstep).1] at hfaulted
    cases hfaulted

/-- Settles O11: neither a change of the status nor an extension of the state breaks the invariant. -/
theorem stepKeepsTheInvariant : Obligations.StepKeepsTheInvariant := by
  unfold Obligations.StepKeepsTheInvariant
  intro s t hs hstep
  obtain ⟨x, rfl⟩ | hext := step_status_or_extends hstep
  · exact hs.with_status x
  · exact hext.inv hs

/-- Settles O14: no store, device or host's turn that extends the state writes a Code address. -/
theorem codeMemoryIsConstant : Obligations.CodeMemoryIsConstant := by
  unfold Obligations.CodeMemoryIsConstant
  intro s t hstep a ha
  obtain ⟨x, rfl⟩ | hext := step_status_or_extends hstep
  · rfl
  · exact hext.code a ha

/-- Settles O16: both changes a step can make keep the parameters. -/
theorem launchParametersNeverChange : Obligations.LaunchParametersNeverChange := by
  unfold Obligations.LaunchParametersNeverChange
  intro s t hstep
  obtain ⟨x, rfl⟩ | hext := step_status_or_extends hstep
  · rfl
  · exact hext.cfg

/-- Settles O5: the fetch gives the listed word, and the step goes by what it decodes to. -/
theorem stepRunsTheDecodedInstruction : Obligations.StepRunsTheDecodedInstruction := by
  unfold Obligations.StepRunsTheDecodedInstruction
  intro s w hrun hfetches
  obtain ⟨hok, hillegal⟩ := step_of_fetch_ok hrun (State.fetch_of_fetches hfetches)
  exact ⟨hok, fun hunlisted => hillegal w (decodeWord_of_unlisted hunlisted) ▸ s.raise_takes _⟩

/-- Settles O6: the fetch at the pc of a running state takes the fault of a bad pc. -/
theorem badPcFaultsAtFetch : Obligations.BadPcFaultsAtFetch := by
  unfold Obligations.BadPcFaultsAtFetch
  intro s hrun
  exact (State.fetchFaultsAt_pc hrun).2

/-- Settles O7: a step looks at the status before anything else. -/
theorem terminalStatesHaveNoStep : Obligations.TerminalStatesHaveNoStep := by
  unfold Obligations.TerminalStatesHaveNoStep
  refine fun s => ⟨fun hhalted => ?_, fun c hfaulted => ?_⟩
  · rw [step, hhalted]
  · rw [step, hfaulted]

/-- Settles O13: two strictly rising lists with the same entries are the same list. -/
theorem memoryFormIsCanonical : Obligations.MemoryFormIsCanonical := by
  unfold Obligations.MemoryFormIsCanonical
  intro m n hm hn hread
  have hentry : ∀ c : Host.Cell, c ∈ m ↔ c ∈ n := fun c => by
    rw [← Memory.read_eq_some_iff hm, ← Memory.read_eq_some_iff hn, hread]
  have hperm : m.Perm n := (List.perm_ext_iff_of_nodup (Memory.nodup_of_wf hm) (Memory.nodup_of_wf hn)).2 hentry
  exact hperm.eq_of_pairwise (fun c d _ _ hcd hdc => absurd hcd (Nat.lt_asymm hdc)) hm hn

/-- Settles O12: nothing is listed at reset, and r0 is defined as zero there. -/
theorem resetMeetsTheInvariant : Obligations.ResetMeetsTheInvariant := by
  unfold Obligations.ResetMeetsTheInvariant
  exact ⟨.nil, by simp [State.reset], by decide, by decide⟩

/-- Settles O19: each is a field of the one reset state. -/
theorem resetState : Obligations.ResetState := by
  unfold Obligations.ResetState
  exact ⟨rfl, rfl, rfl, rfl, rfl, fun _ => rfl⟩

end Sys2Proof.Machine
end

section
/-! Which registers an instruction reads and writes (spec/10_state.md R22 to R24, R34), and the statements
OnlyTheNamedRegisterChanges and UnreadableRegisterFaults. Each shared operation is given the one register it can write; each
instruction begins by reading its sources. -/

namespace Sys2Proof.Machine

/-! ## The registers an operation leaves alone -/

/-- No register but the one named, if one is, reads otherwise than before. -/
def KeepsOthers (d : Option Reg) (s t : State) : Prop := ∀ r : Reg, d ≠ some r → t.reg r = s.reg r

theorem KeepsOthers.of_reg {s t : State} (h : ∀ r, t.reg r = s.reg r) (d : Option Reg) : KeepsOthers d s t := fun r _ => h r

theorem KeepsOthers.of_writeReg {s t : State} (h : ∀ r, t.reg r = s.reg r) (rd : Reg) (v : Word) :
    KeepsOthers (some rd) s (t.writeReg rd v) := by
  intro r hr
  have hne : ¬(r = rd ∧ rd ≠ 0) := fun heq => hr (congrArg some heq.1.symm)
  rw [State.reg_writeReg, if_neg hne, h r]

section
variable (s : State) (rd rs1 rs2 : Reg)

theorem State.finish_keepsOthers (v : Word) : FaultsOr s (KeepsOthers (some rd) s) (s.finish rd v) :=
  .next (KeepsOthers.of_writeReg (fun _ => rfl) rd v)

theorem State.computeReg_keepsOthers (f : Word → Word → Word) :
    FaultsOr s (KeepsOthers (some rd) s) (s.computeReg f rd rs1 rs2) :=
  .withRegs (s.finish_keepsOthers rd _)

theorem State.computeImm_keepsOthers (f : Word → Word) : FaultsOr s (KeepsOthers (some rd) s) (s.computeImm f rd rs1) :=
  .withReg (s.finish_keepsOthers rd _)

theorem State.divide_keepsOthers (a b z o v : Word) : FaultsOr s (KeepsOthers (some rd) s) (s.divide rd a b z o v) := by
  unfold State.divide
  refine .ite ?_ (.ite ?_ (s.finish_keepsOthers rd v))
  all_goals
    cases s.cfg.divCorner with
    | fault => exact .raise _
    | riscvValues => exact s.finish_keepsOthers rd _

theorem State.shift_keepsOthers (f : Word → Nat → Word) (v x : Word) :
    FaultsOr s (KeepsOthers (some rd) s) (s.shift f rd v x) := by
  unfold State.shift
  cases s.cfg.shamtRule with
  | mask5 => exact s.finish_keepsOthers rd _
  | faultIfOver31 => exact .ite (.raise _) (s.finish_keepsOthers rd _)

theorem execAndi_keepsOthers (imm : BitVec 12) : FaultsOr s (KeepsOthers (some rd) s) (execAndi rd rs1 imm s) := by
  refine .withReg ?_
  cases andiOperand s.cfg.andiImmExt imm with
  | some x => exact s.finish_keepsOthers rd _
  | none => exact .stop _

/-- A load reads memory or the device, neither of which is a register, and then writes `rd`. -/
theorem State.load_keepsOthers (a : Word) (w : Width) (ext : Word → Word) :
    FaultsOr s (KeepsOthers (some rd) s) (s.load rd a w ext) := by
  obtain ⟨t, v, hread, hload⟩ | ⟨e, -, hload⟩ := s.load_cases rd a w ext
  · exact hload ▸ .next (KeepsOthers.of_writeReg (fun r => ((Extends.of_memRead hread).2 r).1) rd _)
  · exact hload ▸ .stop e

theorem State.store_keepsOthers (a : Word) (w : Width) (v : Word) : FaultsOr s (KeepsOthers none s) (s.store a w v) := by
  obtain ⟨t, hwrite, hstore⟩ | ⟨e, -, hstore⟩ := s.store_cases a w v
  · exact hstore ▸ .next (.of_reg (fun r => ((Extends.of_memWrite hwrite).2 r).1) none)
  · exact hstore ▸ .stop e

theorem State.branch_keepsOthers (cond : Word → Word → Bool) (imm : BitVec 13) :
    FaultsOr s (KeepsOthers none s) (s.branch cond rs1 rs2 imm) := by
  refine .withRegs (.next (.of_reg (fun r => ?_) none))
  split <;> rfl

end

theorem exec_keepsOthers (i : Instr) (s : State) (hhost : i = .yield → s.cfg.hostOnYield = .identity) :
    FaultsOr s (KeepsOthers i.dest s) (exec i s) := by
  cases i <;> simp only [exec, Instr.dest]
  case add | sub | mul | mulh | xor | or | and | slt | sltu | seq | sne | sgt | sgtu | sle | sleu | sge | sgeu =>
    exact s.computeReg_keepsOthers _ _ _ _
  case addi | ori | xori | slti | sltiu => exact s.computeImm_keepsOthers _ _ _
  case andi rd rs1 imm => exact execAndi_keepsOthers s rd rs1 imm
  case lui rd imm => exact s.finish_keepsOthers rd _
  case div rd _ _ | rem rd _ _ => exact .withRegs (s.divide_keepsOthers rd _ _ _ _ _)
  case sll rd _ _ | srl rd _ _ | sra rd _ _ => exact .withRegs (s.shift_keepsOthers rd _ _ _)
  case slli rd _ _ | srli rd _ _ | srai rd _ _ => exact .withReg (s.shift_keepsOthers rd _ _ _)
  case ldb rd _ _ | ldh rd _ _ | ldw rd _ _ | ldbu rd _ _ | ldhu rd _ _ => exact .withReg (s.load_keepsOthers rd _ _ _)
  case stb | sth | stw => exact .withRegs (s.store_keepsOthers _ _ _)
  case assertEq => exact .withRegs (.ite (.next (.of_reg (fun _ => rfl) none)) (.raise _))
  case jal rd _ => exact .next (KeepsOthers.of_writeReg (fun _ => rfl) rd _)
  case jalr rd _ _ => exact .withReg (.next (KeepsOthers.of_writeReg (fun _ => rfl) rd _))
  case beq | bne | blt | bge | bltu | bgeu => exact s.branch_keepsOthers _ _ _ _
  case nop | halt => exact .next (.of_reg (fun _ => rfl) none)
  case debug => exact .withReg (.next (.of_reg (fun _ => rfl) none))
  case yield =>
    refine .next (.of_reg (fun r => ?_) none)
    rw [State.hostTurn_identity (s := s.emit .yield) (hhost rfl), State.advance_reg, State.emit_reg]

/-! ## A source that cannot be read (R34, R231) -/

/-- The outcome is UnspecifiedRead of one of the registers, and that one cannot be read. -/
def TakesUnreadable (s : State) (rs : List Reg) (o : Outcome) : Prop :=
  ∃ r ∈ rs, s.regReadable r = false ∧ Takes o s (.unspecifiedRead (.register r))

section
variable {s : State} {r q : Reg}

theorem State.withReg_unreadable (h : s.regReadable r = false) (k : Word → Outcome) :
    s.withReg r k = s.raise (.unspecifiedRead (.register r)) := by
  rw [State.withReg, h]
  rfl

theorem State.withReg_takesUnreadable (h : ∃ x ∈ [r], s.regReadable x = false) (k : Word → Outcome) :
    TakesUnreadable s [r] (s.withReg r k) := by
  obtain ⟨x, hx, hunreadable⟩ := h
  obtain rfl := List.mem_singleton.1 hx
  exact ⟨x, hx, hunreadable, State.withReg_unreadable hunreadable k⟩

/-- The first source is read first, so it is the one named where neither can be read. -/
theorem State.withRegs_takesUnreadable (h : ∃ x ∈ [r, q], s.regReadable x = false) (k : Word → Word → Outcome) :
    TakesUnreadable s [r, q] (s.withRegs r q k) := by
  cases hr : s.regReadable r with
  | false => exact ⟨r, by simp, hr, State.withReg_unreadable hr _⟩
  | true =>
    have hq : s.regReadable q = false := by simpa [hr] using h
    refine ⟨q, by simp, hq, ?_⟩
    rw [State.withRegs, State.withReg_readable hr, State.withReg_unreadable hq]
    exact s.raise_takes _

theorem State.computeReg_takesUnreadable (h : ∃ x ∈ [r, q], s.regReadable x = false) (f : Word → Word → Word) (rd : Reg) :
    TakesUnreadable s [r, q] (s.computeReg f rd r q) :=
  State.withRegs_takesUnreadable h _

theorem State.computeImm_takesUnreadable (h : ∃ x ∈ [r], s.regReadable x = false) (f : Word → Word) (rd : Reg) :
    TakesUnreadable s [r] (s.computeImm f rd r) :=
  State.withReg_takesUnreadable h _

theorem State.branch_takesUnreadable (h : ∃ x ∈ [r, q], s.regReadable x = false) (cond : Word → Word → Bool)
    (imm : BitVec 13) : TakesUnreadable s [r, q] (s.branch cond r q imm) :=
  State.withRegs_takesUnreadable h _

end

theorem exec_takesUnreadable (i : Instr) (s : State) (h : ∃ r ∈ i.sources, s.regReadable r = false) :
    TakesUnreadable s i.sources (exec i s) := by
  cases i <;> simp only [exec, Instr.sources] at h ⊢
  case lui | jal | nop | yield | halt => simp at h
  case add | sub | mul | mulh | xor | or | and | slt | sltu | seq | sne | sgt | sgtu | sle | sleu | sge | sgeu =>
    exact State.computeReg_takesUnreadable h _ _
  case addi | ori | xori | slti | sltiu => exact State.computeImm_takesUnreadable h _ _
  case beq | bne | blt | bge | bltu | bgeu => exact State.branch_takesUnreadable h _ _
  case andi | slli | srli | srai | ldb | ldh | ldw | ldbu | ldhu | jalr | debug =>
    exact State.withReg_takesUnreadable h _
  case div | rem | sll | srl | sra | stb | sth | stw | assertEq => exact State.withRegs_takesUnreadable h _

/-! ## The statements -/

/-- Settles O17: a fault changes no register, and every instruction that takes none is an operation that can write its
destination alone; r0 reads as zero whatever is written. -/
theorem onlyTheNamedRegisterChanges : Obligations.OnlyTheNamedRegisterChanges := by
  unfold Obligations.OnlyTheNamedRegisterChanges
  rintro i s t hexec hhost r (hr | rfl)
  · obtain ⟨c, rfl⟩ | hkeeps := exec_keepsOthers i s hhost t hexec
    · rfl
    · exact hkeeps r hr
  · rw [State.reg_zero, State.reg_zero]

/-- Settles O18: every instruction with a source reads its one or two sources before anything else. -/
theorem unreadableRegisterFaults : Obligations.UnreadableRegisterFaults := by
  unfold Obligations.UnreadableRegisterFaults
  exact exec_takesUnreadable

end Sys2Proof.Machine
end

section
/-! Where an access stops (spec/20_memory.md R51, R52; spec/60_exceptions.md R226 to R229, R233, R236), and the statements
LoadChecksInOrder, StoreChecksInOrder and BytewiseFirstFailingByteDecides. The checks of a load and of a store are the same, so
each statement is proved once, of any outcome that is the stop of a failed check. -/

namespace Sys2Proof.Machine

/-! ## The checks at one address (R51) -/

section
variable {cfg : Config} {a : Word} {w : Width} (kind : AccessKind)

theorem checkAt_of_code (h : a.toNat ≤ 0x000FFFFF) : checkAt cfg kind a w = some (.raise (kind.accessFault a)) := by
  rw [checkAt, regionOf_code.2 h]

theorem checkAt_of_mmio_absent (h : 0x10000000 ≤ a.toNat) (habsent : cfg.mmio = .absent) :
    checkAt cfg kind a w = some (.refuse (.mmioUnmodelled a)) := by
  simp only [checkAt, regionOf_mmio.2 h, habsent]

theorem checkAt_of_mmio_device (h : 0x10000000 ≤ a.toNat) (hdevice : cfg.mmio = .device) : checkAt cfg kind a w = none := by
  simp only [checkAt, regionOf_mmio.2 h, hdevice]

theorem checkAt_of_aboveLimit (hcode : 0x000FFFFF < a.toNat) (hmmio : a.toNat < 0x10000000)
    (hlimit : cfg.dataLimit.toNat < a.toNat + w.bytes - 1) : checkAt cfg kind a w = some (.raise (kind.accessFault a)) := by
  rw [checkAt, regionOf_data.2 ⟨hcode, hmmio⟩]
  exact if_pos hlimit

theorem checkAt_of_withinLimit (hcode : 0x000FFFFF < a.toNat) (hmmio : a.toNat < 0x10000000)
    (hlimit : a.toNat + w.bytes - 1 ≤ cfg.dataLimit.toNat) : checkAt cfg kind a w = none := by
  rw [checkAt, regionOf_data.2 ⟨hcode, hmmio⟩]
  exact if_neg (Nat.not_lt.2 hlimit)

/-! ## The checks of a whole access (R51, R52) -/

theorem checkData_of_misaligned (hfault : cfg.misalignedData = .fault) (h : a.toNat % w.bytes ≠ 0) :
    checkData cfg kind a w = some (.raise (kind.misaligned a)) := by
  simp [checkData, hfault, aligned, h]

theorem checkData_of_aligned (hfault : cfg.misalignedData = .fault) (h : a.toNat % w.bytes = 0) :
    checkData cfg kind a w = checkAt cfg kind a w := by
  simp [checkData, hfault, aligned, h]

/-- Of several places the first that fails its checks decides. -/
theorem checkEach_of_first {place : Nat → Word × Width} {stop : Stop} {n k : Nat} (hk : k < n)
    (hbelow : ∀ j < k, checkAt cfg kind (place j).1 (place j).2 = none)
    (hfails : checkAt cfg kind (place k).1 (place k).2 = some stop) :
    checkEach cfg kind ((List.range n).map place) = some stop := by
  induction n generalizing place k with
  | zero => omega
  | succ n ih =>
    rw [List.range_succ_eq_map, List.map_cons, List.map_map, checkEach]
    cases k with
    | zero => rw [hfails]
    | succ k =>
      rw [hbelow 0 (by omega)]
      exact ih (place := place ∘ Nat.succ) (by omega) (fun j hj => hbelow (j + 1) (by omega)) hfails

theorem checkData_of_firstByte {stop : Stop} {k : Nat} (hbytewise : cfg.misalignedData = .bytewise) (hk : k < w.bytes)
    (hbelow : ∀ j < k, checkAt cfg kind (a + BitVec.ofNat 32 j) .byte = none)
    (hfails : checkAt cfg kind (a + BitVec.ofNat 32 k) .byte = some stop) : checkData cfg kind a w = some stop := by
  simp only [checkData, hbytewise]
  exact checkEach_of_first kind hk hbelow hfails

end

/-! ## A load or a store whose access stops (R199) -/

/-- The outcome is the stop of the access, where one of its checks fails. -/
def StopsAtChecks (s : State) (kind : AccessKind) (a : Word) (w : Width) (o : Outcome) : Prop :=
  ∀ stop, checkData s.cfg kind a w = some stop → o = s.stop stop

section
variable {s : State}

theorem State.load_stopsAtChecks (rd : Reg) (a : Word) (w : Width) (ext : Word → Word) :
    StopsAtChecks s .load a w (s.load rd a w ext) := by
  intro stop h
  simp only [State.load, State.memRead, h]

theorem State.store_stopsAtChecks (a : Word) (w : Width) (v : Word) : StopsAtChecks s .store a w (s.store a w v) := by
  intro stop h
  simp only [State.store, State.memWrite, h]

/-- The five loads with the bytes each reads (R191 to R195). -/
def loadWidths (rd rs1 : Reg) (imm : BitVec 12) : List (Instr × Nat) :=
  [(.ldb rd rs1 imm, 1), (.ldbu rd rs1 imm, 1), (.ldh rd rs1 imm, 2), (.ldhu rd rs1 imm, 2), (.ldw rd rs1 imm, 4)]

/-- The three stores with the bytes each writes (R196 to R198). -/
def storeWidths (rs1 rs2 : Reg) (imm : BitVec 12) : List (Instr × Nat) :=
  [(.stb rs1 rs2 imm, 1), (.sth rs1 rs2 imm, 2), (.stw rs1 rs2 imm, 4)]

/-- Each of the five loads is the shared load in the width of its row. -/
theorem exec_load_of_mem {rd rs1 : Reg} {imm : BitVec 12} {i : Instr} {n : Nat} (hread : s.regReadable rs1 = true)
    (hi : (i, n) ∈ loadWidths rd rs1 imm) :
    ∃ w ext, w.bytes = n ∧ exec i s = s.load rd (s.reg rs1 + imm.signExtend 32) w ext := by
  simp only [loadWidths, List.mem_cons, List.not_mem_nil, or_false, Prod.mk.injEq] at hi
  obtain ⟨rfl, rfl⟩ | ⟨rfl, rfl⟩ | ⟨rfl, rfl⟩ | ⟨rfl, rfl⟩ | ⟨rfl, rfl⟩ := hi
  · exact ⟨.byte, _, rfl, exec_ldb rd hread⟩
  · exact ⟨.byte, _, rfl, exec_ldbu rd hread⟩
  · exact ⟨.half, _, rfl, exec_ldh rd imm hread⟩
  · exact ⟨.half, _, rfl, exec_ldhu rd imm hread⟩
  · exact ⟨.word, _, rfl, exec_ldw rd imm hread⟩

/-- Each of the three stores is the shared store in the width of its row. -/
theorem exec_store_of_mem {rs1 rs2 : Reg} {imm : BitVec 12} {i : Instr} {n : Nat} (hread : s.CanRead [rs1, rs2])
    (hi : (i, n) ∈ storeWidths rs1 rs2 imm) :
    ∃ w, w.bytes = n ∧ exec i s = s.store (s.reg rs1 + imm.signExtend 32) w (s.reg rs2) := by
  have h1 : s.regReadable rs1 = true := hread rs1 (by simp)
  have h2 : s.regReadable rs2 = true := hread rs2 (by simp)
  simp only [storeWidths, List.mem_cons, List.not_mem_nil, or_false, Prod.mk.injEq] at hi
  obtain ⟨rfl, rfl⟩ | ⟨rfl, rfl⟩ | ⟨rfl, rfl⟩ := hi
  · exact ⟨.byte, rfl, exec_stb h1 h2⟩
  · exact ⟨.half, rfl, exec_sth imm h1 h2⟩
  · exact ⟨.word, rfl, exec_stw imm h1 h2⟩

/-! ## The order of the checks -/

variable {kind : AccessKind} {a : Word} {w : Width} {o : Outcome} (h : StopsAtChecks s kind a w o)
include h

/-- Under MISALIGNED_DATA = fault alignment comes first, and then the region and the limit. -/
theorem StopsAtChecks.inOrder (hfault : s.cfg.misalignedData = .fault) :
    (a.toNat % w.bytes ≠ 0 → Takes o s (kind.misaligned a)) ∧
    (a.toNat % w.bytes = 0 →
      (a.toNat ≤ 0x000FFFFF → Takes o s (kind.accessFault a)) ∧
      (0x10000000 ≤ a.toNat → s.cfg.mmio = .absent → o = .refused (.mmioUnmodelled a)) ∧
      (0x000FFFFF < a.toNat → a.toNat < 0x10000000 → s.cfg.dataLimit.toNat < a.toNat + w.bytes - 1 →
        Takes o s (kind.accessFault a))) := by
  refine ⟨fun hmis => h _ (checkData_of_misaligned kind hfault hmis), fun haligned => ?_⟩
  have hcheck := checkData_of_aligned kind hfault haligned
  exact ⟨fun hcode => h _ (hcheck.trans (checkAt_of_code kind hcode)),
    fun hmmio habsent => h _ (hcheck.trans (checkAt_of_mmio_absent kind hmmio habsent)),
    fun hcode hmmio hlimit => h _ (hcheck.trans (checkAt_of_aboveLimit kind hcode hmmio hlimit))⟩

/-- Under MISALIGNED_DATA = bytewise, where each byte below the k-th is one of Data memory or of a supplied device, the k-th
decides. -/
theorem StopsAtChecks.atByte {k : Nat} {b : Word} (hbytewise : s.cfg.misalignedData = .bytewise) (hk : k < w.bytes)
    (hbelow : ∀ j < k, checkAt s.cfg kind (a + BitVec.ofNat 32 j) .byte = none) (hb : a + BitVec.ofNat 32 k = b) :
    (b.toNat ≤ 0x000FFFFF → Takes o s (kind.accessFault b)) ∧
    (0x10000000 ≤ b.toNat → s.cfg.mmio = .absent → o = .refused (.mmioUnmodelled b)) ∧
    (0x000FFFFF < b.toNat → b.toNat < 0x10000000 → s.cfg.dataLimit.toNat < b.toNat → Takes o s (kind.accessFault b)) := by
  subst hb
  have hstop {stop : Stop} (hfails : checkAt s.cfg kind (a + BitVec.ofNat 32 k) .byte = some stop) : o = s.stop stop :=
    h stop (checkData_of_firstByte kind hbytewise hk hbelow hfails)
  exact ⟨fun hcode => hstop (checkAt_of_code kind hcode),
    fun hmmio habsent => hstop (checkAt_of_mmio_absent kind hmmio habsent),
    fun hcode hmmio hlimit => hstop (checkAt_of_aboveLimit kind hcode hmmio hlimit)⟩

end

/-- A byte of Data memory, or of a supplied device, passes its checks. -/
theorem checkAt_byte_eq_none {cfg : Config} (kind : AccessKind) {b : Word}
    (h : (0x00100000 ≤ b.toNat ∧ b.toNat < 0x10000000 ∧ b.toNat ≤ cfg.dataLimit.toNat) ∨
      (0x10000000 ≤ b.toNat ∧ cfg.mmio = .device)) : checkAt cfg kind b .byte = none := by
  obtain ⟨hcode, hmmio, hlimit⟩ | ⟨hmmio, hdevice⟩ := h
  · exact checkAt_of_withinLimit kind hcode hmmio hlimit
  · exact checkAt_of_mmio_device kind hmmio hdevice

/-- A load and the store of the same width, in one row. -/
theorem mem_widths_of_mem_pairs {rd rs1 rs2 : Reg} {imm : BitVec 12} {load store : Instr} {n : Nat}
    (h : (load, store, n) ∈ [(Instr.ldb rd rs1 imm, Instr.stb rs1 rs2 imm, 1), (.ldbu rd rs1 imm, .stb rs1 rs2 imm, 1),
      (.ldh rd rs1 imm, .sth rs1 rs2 imm, 2), (.ldhu rd rs1 imm, .sth rs1 rs2 imm, 2),
      (.ldw rd rs1 imm, .stw rs1 rs2 imm, 4)]) :
    (load, n) ∈ loadWidths rd rs1 imm ∧ (store, n) ∈ storeWidths rs1 rs2 imm := by
  simp only [List.mem_cons, List.not_mem_nil, or_false, Prod.mk.injEq] at h
  obtain ⟨rfl, rfl, rfl⟩ | ⟨rfl, rfl, rfl⟩ | ⟨rfl, rfl, rfl⟩ | ⟨rfl, rfl, rfl⟩ | ⟨rfl, rfl, rfl⟩ := h <;>
    simp [loadWidths, storeWidths]

/-! ## The statements -/

/-- Settles O43: each load is the shared load in its own width, which stops at the first check that fails. -/
theorem loadChecksInOrder : Obligations.LoadChecksInOrder := by
  unfold Obligations.LoadChecksInOrder
  intro rd rs1 imm s a i n hread hfault ha hi
  obtain ⟨w, ext, rfl, hexec⟩ := exec_load_of_mem (hread rs1 (by simp)) hi
  rw [hexec, ← ha]
  exact (State.load_stopsAtChecks rd a w ext).inOrder hfault

/-- Settles O44: as O43, with the shared store. -/
theorem storeChecksInOrder : Obligations.StoreChecksInOrder := by
  unfold Obligations.StoreChecksInOrder
  intro rs1 rs2 imm s a i n hread hfault ha hi
  obtain ⟨w, rfl, hexec⟩ := exec_store_of_mem hread hi
  rw [hexec, ← ha]
  exact (State.store_stopsAtChecks a w _).inOrder hfault

/-- Settles O45: load and store stop at the same byte, each with its own access fault. -/
theorem bytewiseFirstFailingByteDecides : Obligations.BytewiseFirstFailingByteDecides := by
  unfold Obligations.BytewiseFirstFailingByteDecides
  intro rd rs1 rs2 imm s k n a load store hread hbytewise hk ha hrow hbelow
  obtain ⟨hloads, hstores⟩ := mem_widths_of_mem_pairs hrow
  obtain ⟨w, ext, rfl, hload⟩ := exec_load_of_mem (hread rs1 (by simp)) hloads
  obtain ⟨w', hw, hstore⟩ := exec_store_of_mem hread hstores
  have hpass (kind : AccessKind) : ∀ j < k, checkAt s.cfg kind (a + BitVec.ofNat 32 j) .byte = none :=
    fun j hj => checkAt_byte_eq_none kind (hbelow j hj)
  obtain ⟨hcode, hmmio, hlimit⟩ := (State.load_stopsAtChecks rd a w ext).atByte hbytewise hk (hpass .load) rfl
  obtain ⟨hcode', hmmio', hlimit'⟩ :=
    (State.store_stopsAtChecks a w' (s.reg rs2)).atByte hbytewise (hw ▸ hk) (hpass .store) rfl
  rw [hload, hstore, ← ha]
  exact ⟨fun h => ⟨hcode h, hcode' h⟩, fun h habsent => ⟨hmmio h habsent, hmmio' h habsent⟩,
    fun h1 h2 h3 => ⟨hlimit h1 h2 h3, hlimit' h1 h2 h3⟩⟩

end Sys2Proof.Machine
end

section
/-! Data bytes that nothing has written (spec/10_state.md R34; spec/60_exceptions.md R231), and the statement UnwrittenDataBytes.
Under any-value every Data byte has a content, so a load is one that reads it; under fault-on-read the lowest byte without one
stops it. -/

namespace Sys2Proof.Machine

section
variable {s : State}

/-! ## The content of a Data byte (R34) -/

theorem State.dataByte_anyValue (hany : s.cfg.unwrittenReg = .anyValue) (a : Word) :
    s.dataByte a = some ((Memory.read s.mem a.toNat).getD (Config.unspecifiedByte a)) := by
  unfold State.dataByte
  cases Memory.read s.mem a.toNat with
  | some b => rfl
  | none => simp only [hany, Option.getD_none]

theorem State.dataByte_faultOnRead (hfault : s.cfg.unwrittenReg = .faultOnRead) (a : Word) :
    s.dataByte a = Memory.read s.mem a.toNat := by
  unfold State.dataByte
  cases Memory.read s.mem a.toNat with
  | some b => rfl
  | none => simp only [hfault]

/-! ## The lowest byte without a content stops the load (R231) -/

theorem State.readBytes_eq_error {n k : Nat} {a : Word} (hk : k < n)
    (hbelow : ∀ j < k, s.dataByte (a + BitVec.ofNat 32 j) ≠ none) (hnone : s.dataByte (a + BitVec.ofNat 32 k) = none) :
    s.readBytes a n = .error (.raise (.unspecifiedRead (.byteAt (a + BitVec.ofNat 32 k)))) := by
  induction n generalizing a k with
  | zero => omega
  | succ n ih =>
    cases k with
    | zero =>
      rw [BitVec.add_zero] at hnone ⊢
      simp only [State.readBytes, hnone]
    | succ k =>
      obtain ⟨b, hfirst⟩ := Option.ne_none_iff_exists'.1 (hbelow 0 (by omega))
      rw [BitVec.add_zero] at hfirst
      rw [← add_one_add_ofNat] at hnone ⊢
      have hrest := ih (by omega) (fun j hj => add_one_add_ofNat a j ▸ hbelow (j + 1) (by omega)) hnone
      simp only [State.readBytes, hfirst, hrest]

/-- A Data byte without a content stops the read of its place. -/
theorem State.readPlace_noByte {a : Word} (hr : regionOf a = .data) (hnone : s.dataByte a = none) :
    s.readPlace (a, .byte) = .error (.raise (.unspecifiedRead (.byteAt a))) := by
  simp only [State.readPlace, hr, Width.bytes, State.readBytes, hnone]

/-- Data bytes read one by one stop where they stop when read together. -/
theorem State.readPlaces_dataBytes_error {n : Nat} {a : Word} {e : Stop}
    (hr : ∀ k < n, regionOf (a + BitVec.ofNat 32 k) = .data) (h : s.readBytes a n = .error e) :
    s.readPlaces ((List.range n).map fun k => (a + BitVec.ofNat 32 k, .byte)) = .error e := by
  induction n generalizing a with
  | zero => cases h
  | succ n ih =>
    have hfirst : regionOf a = .data := by simpa using hr 0 (by omega)
    have hrest : ∀ k < n, regionOf (a + 1 + BitVec.ofNat 32 k) = .data := fun k hk =>
      add_one_add_ofNat a k ▸ hr (k + 1) (by omega)
    simp only [List.range_succ_eq_map, List.map_cons, List.map_map, Function.comp_def, Nat.succ_eq_add_one,
      ← add_one_add_ofNat, BitVec.add_zero, State.readPlaces]
    cases hbyte : s.dataByte a with
    | none =>
      simp only [State.readBytes, hbyte] at h
      cases h
      rw [State.readPlace_noByte hfirst hbyte]
    | some b =>
      simp only [State.readBytes, hbyte] at h
      split at h
      next e' hbytes =>
        cases h
        simp only [State.readPlace_dataByte hfirst hbyte, ih hrest hbytes]
      next => cases h

section
variable {a : Word} {w : Width} {k : Nat} (h : DataAccess s a w.bytes) (hk : k < w.bytes)
  (hbelow : ∀ j < k, s.dataByte (a + BitVec.ofNat 32 j) ≠ none) (hnone : s.dataByte (a + BitVec.ofNat 32 k) = none)
include h hk hbelow hnone

theorem DataAccess.memRead_eq_error :
    s.memRead a w = .error (.raise (.unspecifiedRead (.byteAt (a + BitVec.ofNat 32 k)))) := by
  have hbytes := State.readBytes_eq_error hk hbelow hnone
  have hread : s.readPlaces (accessPlaces a w) = .error (.raise (.unspecifiedRead (.byteAt (a + BitVec.ofNat 32 k)))) := by
    unfold accessPlaces
    split
    · simp only [State.readPlaces, State.readPlace, h.region_self (Width.bytes_pos w), hbytes]
    · exact State.readPlaces_dataBytes_error (fun j hj => h.region hj) hbytes
  simp only [State.memRead, h.checkData_eq_none, hread]

theorem DataAccess.load_takes (rd : Reg) (ext : Word → Word) :
    Takes (s.load rd a w ext) s (.unspecifiedRead (.byteAt (a + BitVec.ofNat 32 k))) := by
  simp only [State.load, h.memRead_eq_error hk hbelow hnone]
  exact s.raise_takes _

end

end

/-! ## The statement -/

/-- Settles O42: the parameter decides whether a byte that is not listed has a content; with one the loads read it, and without
one the shared load stops at the lowest. -/
theorem unwrittenDataBytes : Obligations.UnwrittenDataBytes := by
  unfold Obligations.UnwrittenDataBytes
  intro rd rs1 imm s a hread ha
  refine ⟨fun hany b hb => ?anyValue, fun hfault i n k hi h hk hbelow hnone => ?faultOnRead⟩
  case anyValue =>
    have hbyte {n : Nat} (h : DataAccess s a n) : ∀ k < n, s.dataByte (a + BitVec.ofNat 32 k) = some (b k) := fun k hk => by
      rw [State.dataByte_anyValue hany, h.toNat_add hk, hb k]
    exact ⟨fun h => ⟨exec_ldb_computes hread ha.symm rd h (hbyte h), exec_ldbu_computes hread ha.symm rd h (hbyte h)⟩,
      fun h => ⟨exec_ldh_computes hread ha.symm rd h (hbyte h), exec_ldhu_computes hread ha.symm rd h (hbyte h)⟩,
      fun h => exec_ldw_computes hread ha.symm rd h (hbyte h)⟩
  case faultOnRead =>
    obtain ⟨w, ext, rfl, hexec⟩ := exec_load_of_mem (hread rs1 (by simp)) hi
    have hbyte {j : Nat} (hj : j < w.bytes) : s.dataByte (a + BitVec.ofNat 32 j) = Memory.read s.mem (a.toNat + j) := by
      rw [State.dataByte_faultOnRead hfault, h.toNat_add hj]
    rw [hexec, ← ha]
    exact h.load_takes hk (fun j hj => hbyte (Nat.lt_trans hj hk) ▸ hbelow j hj) ((hbyte hk).trans hnone) rd ext

end Sys2Proof.Machine
end

section
/-! An aligned access to a supplied MMIO device (spec/20_memory.md R43, R47, R51; spec/60_exceptions.md R233), and the statement
DeviceSeesTheAccess. The access is one place, in the data byte order both where the device's answer is laid out as bytes and
where the bytes are put together, so the order cancels and the low bits of the value are left. -/

namespace Sys2Proof.Machine

/-! ## Laying a value out as bytes and putting it together again (R47 to R49) -/

theorem ofLittle_toLittle (n : Nat) (v : Word) : ofLittle (toLittle n v) = (v.setWidth (8 * n)).setWidth 32 := by
  induction n generalizing v with
  | zero =>
    rw [Nat.mul_zero, BitVec.eq_nil (v.setWidth 0)]
    rfl
  | succ n ih =>
    refine BitVec.eq_of_getLsbD_eq fun i hi => ?_
    rw [toLittle, getLsbD_ofLittle_cons _ _ hi, ih]
    simp only [BitVec.getLsbD_setWidth, BitVec.getLsbD_ushiftRight]
    by_cases hlow : i < 8
    · simp [hlow, hi, show i < 8 * (n + 1) by omega]
    · simp [hlow, hi, show i - 8 < 32 by omega, show 8 + (i - 8) = i by omega, show (i - 8 < 8 * n) = (i < 8 * (n + 1)) by
        exact propext (by omega)]

/-- In either order the low bytes of the value come back. -/
theorem ofBytes_toBytes (o : ByteOrder) (n : Nat) (v : Word) : ofBytes o (toBytes o n v) = (v.setWidth (8 * n)).setWidth 32 := by
  cases o with
  | little => exact ofLittle_toLittle n v
  | big => rw [ofBytes, toBytes, List.reverse_reverse, ofLittle_toLittle]

/-! ## The access goes ahead at one place (R51, R233) -/

/-- An aligned access in the region of a supplied device. -/
structure State.AlignedToDevice (s : State) (a : Word) (w : Width) : Prop where
  device   : s.cfg.mmio = .device
  inMmio   : 0x10000000 ≤ a.toNat
  multiple : a.toNat % w.bytes = 0

section
variable {s : State} {a : Word} {w : Width} (h : s.AlignedToDevice a w)
include h

theorem State.AlignedToDevice.aligned_eq : aligned a w = true := by
  simpa [aligned] using h.multiple

theorem State.AlignedToDevice.accessPlaces_eq : accessPlaces a w = [(a, w)] := if_pos h.aligned_eq

/-- Every byte of the access is the device's, since an aligned access does not wrap. -/
theorem State.AlignedToDevice.byte_inMmio {k : Nat} (hk : k < w.bytes) : 0x10000000 ≤ (a + BitVec.ofNat 32 k).toNat := by
  obtain ⟨-, hmmio, haligned⟩ := h
  have hnowrap : a.toNat + k < 2 ^ 32 := by
    have ha := a.isLt
    cases w <;> simp only [Width.bytes] at hk haligned <;> omega
  rw [toNat_add_of_no_wrap hnowrap]
  omega

theorem State.AlignedToDevice.checkData_eq_none (kind : AccessKind) : checkData s.cfg kind a w = none := by
  cases hmode : s.cfg.misalignedData with
  | fault =>
    rw [checkData_of_aligned kind hmode h.multiple]
    exact checkAt_of_mmio_device kind h.inMmio h.device
  | bytewise =>
    simp only [checkData, hmode]
    refine checkEach_eq_none fun p hp => ?_
    obtain ⟨k, hk, rfl⟩ := List.mem_map.1 hp
    exact checkAt_of_mmio_device kind (h.byte_inMmio (List.mem_range.1 hk)) h.device

/-! ## The load and the store -/

theorem State.AlignedToDevice.memRead_eq : s.memRead a w = .ok (s.deviceAccess (.read a w),
    ((Config.mmioReadValue (s.mmioLog ++ [.read a w])).setWidth (8 * w.bytes)).setWidth 32) := by
  simp only [State.memRead, h.checkData_eq_none, h.accessPlaces_eq, State.readPlaces, State.readPlace, regionOf_mmio.2 h.inMmio,
    State.deviceRead, List.append_nil, accessOrder_aligned s.cfg h.aligned_eq, ofBytes_toBytes]

theorem State.AlignedToDevice.memWrite_eq (v : Word) :
    s.memWrite a w v = .ok (s.deviceAccess (.write a w ((v.setWidth (8 * w.bytes)).setWidth 32))) := by
  simp only [State.memWrite, h.checkData_eq_none, h.accessPlaces_eq, State.writePlaces, State.writePlace,
    regionOf_mmio.2 h.inMmio, accessOrder_aligned s.cfg h.aligned_eq,
    List.take_of_length_le (Nat.le_of_eq (toBytes_length s.cfg.dataByteOrder w.bytes v)), ofBytes_toBytes]

/-- What a load answers (R191 to R195): `rd` holds the widened low bits of the device's answer. -/
theorem State.AlignedToDevice.load_effect {ext : Word → Word} {v : Word} (rd : Reg)
    (hv : ext (((Config.mmioReadValue (s.mmioLog ++ [.read a w])).setWidth (8 * w.bytes)).setWidth 32) = v) :
    ∃ t, s.load rd a w ext = .next t ∧ WritesReg s t rd v ∧ t.pc = s.pc + 4 ∧ KeepsMemory s t ∧ t.status = s.status ∧
      t.cfg = s.cfg ∧ t.mmioLog = s.mmioLog ++ [.read a w] ∧ t.io = s.io ++ Config.mmioEvents (s.mmioLog ++ [.read a w]) := by
  subst hv
  refine ⟨_, State.load_of_memRead h.memRead_eq rd ext,
    fun r => ⟨State.reg_writeReg _ _ _ _, State.regReadable_writeReg _ _ _ _⟩, ?_⟩
  simp [KeepsMemory, State.deviceAccess]

/-- What a store answers (R196 to R198): the device has seen the low bits of the value, and no register changes. -/
theorem State.AlignedToDevice.store_effect {v x : Word} (hx : (v.setWidth (8 * w.bytes)).setWidth 32 = x) :
    ∃ t, s.store a w v = .next t ∧ KeepsRegs s t ∧ t.pc = s.pc + 4 ∧ KeepsMemory s t ∧ t.status = s.status ∧
      t.cfg = s.cfg ∧ t.mmioLog = s.mmioLog ++ [.write a w x] ∧
      t.io = s.io ++ Config.mmioEvents (s.mmioLog ++ [.write a w x]) := by
  subst hx
  exact ⟨_, State.store_of_memWrite (h.memWrite_eq v), fun _ => ⟨rfl, rfl⟩, rfl, fun _ => rfl, rfl, rfl, rfl, rfl⟩

end

/-! ## The statement -/

/-- Settles O48: each load and each store is the shared one in the width and the widening of its row. -/
theorem deviceSeesTheAccess : Obligations.DeviceSeesTheAccess := by
  unfold Obligations.DeviceSeesTheAccess
  intro rd rs1 rs2 imm s a hread hdevice ha hmmio
  have h1 : s.regReadable rs1 = true := hread rs1 (by simp)
  have h2 : s.regReadable rs2 = true := hread rs2 (by simp)
  subst ha
  refine ⟨fun i w widen hrow haligned => ?load, fun i w v hrow haligned => ?store⟩
  case load =>
    have hacc : s.AlignedToDevice (s.reg rs1 + imm.signExtend 32) w := ⟨hdevice, hmmio, haligned⟩
    simp only [List.mem_cons, Prod.mk.injEq, List.not_mem_nil, or_false] at hrow
    obtain ⟨rfl, rfl, rfl⟩ | ⟨rfl, rfl, rfl⟩ | ⟨rfl, rfl, rfl⟩ | ⟨rfl, rfl, rfl⟩ | ⟨rfl, rfl, rfl⟩ := hrow
    · rw [exec_ldb rd h1]
      exact hacc.load_effect rd (by simp [sextLow, Width.bytes])
    · rw [exec_ldbu rd h1]
      exact hacc.load_effect rd (by simp [zextLow, Width.bytes])
    · rw [exec_ldh rd imm h1]
      exact hacc.load_effect rd (by simp [sextLow, Width.bytes])
    · rw [exec_ldhu rd imm h1]
      exact hacc.load_effect rd (by simp [zextLow, Width.bytes])
    · rw [exec_ldw rd imm h1]
      exact hacc.load_effect rd (by simp [Width.bytes])
  case store =>
    have hacc : s.AlignedToDevice (s.reg rs1 + imm.signExtend 32) w := ⟨hdevice, hmmio, haligned⟩
    simp only [List.mem_cons, Prod.mk.injEq, List.not_mem_nil, or_false] at hrow
    obtain ⟨rfl, rfl, rfl⟩ | ⟨rfl, rfl, rfl⟩ | ⟨rfl, rfl, rfl⟩ := hrow
    · rw [exec_stb h1 h2]
      exact hacc.store_effect rfl
    · rw [exec_sth imm h1 h2]
      exact hacc.store_effect rfl
    · rw [exec_stw imm h1 h2]
      exact hacc.store_effect (by simp [Width.bytes])

end Sys2Proof.Machine
end

section
/-! The pseudo-instructions that expand to one instruction (spec/30_encoding.md R98 to R104, R107 to R111), and the statements
OneOperandPseudos and BranchPseudosAndNop. Each is its native instruction with r0, all ones or its operands exchanged. -/

namespace Sys2Proof.Machine

/-! ## An operand that can be read, with r0 (R22) -/

section
variable {s : State} {r q : Reg}

theorem State.CanRead.with_zero (h : s.CanRead [r]) : s.CanRead [r, 0] := by
  simpa [State.CanRead] using h

theorem State.CanRead.swap (h : s.CanRead [r, q]) : s.CanRead [q, r] := by
  simpa [State.CanRead, and_comm] using h

end

/-! ## The statements -/

/-- Settles O58: r0 is a zero to add, to subtract from or to compare with, and an immediate of ones widens to all ones (D20). -/
theorem oneOperandPseudos : Obligations.OneOperandPseudos := by
  unfold Obligations.OneOperandPseudos
  intro rd rs s hread
  simp only [Pseudo.expand, execAll_singleton]
  refine ⟨?mv, ?not, ?neg, ?seqz, ?snez⟩
  case mv =>
    have hsum : s.reg rs + s.reg 0 = s.reg rs := BitVec.add_zero _
    exact hsum ▸ State.computeReg_computes hread.with_zero (fun a b => a + b) rd
  case not =>
    have hones (v : Word) : v ^^^ sext12 0xFFF = ~~~v := BitVec.xor_allOnes
    exact hones (s.reg rs) ▸ State.computeImm_computes hread (fun a => a ^^^ sext12 0xFFF) rd
  case neg =>
    have hdiff : s.reg 0 - s.reg rs = -s.reg rs := BitVec.zero_sub _
    exact hdiff ▸ State.computeReg_computes hread.with_zero.swap (fun a b => a - b) rd
  case seqz => exact State.compareReg_computes rd hread.with_zero equal equal_iff
  case snez =>
    rw [← ite_not]
    exact State.compareReg_computes rd hread.with_zero (fun a b => !equal a b) not_equal_iff

/-- Settles O59: `nop` writes r0, `j` links into it, and each branch is the native one with its operands exchanged. -/
theorem branchPseudosAndNop : Obligations.BranchPseudosAndNop := by
  unfold Obligations.BranchPseudosAndNop
  intro rs1 rs2 imm jimm s hread
  simp only [Pseudo.expand, execAll_singleton]
  refine ⟨⟨s.advance, rfl, s.advance_onlyMovesPc⟩, ⟨_, exec_jal 0 jimm s, s.jump_onlyMovesPc _⟩, ?bgt, ?ble, ?bgtu, ?bleu⟩
  case bgt => exact State.branch_onlyMovesPc hread.swap imm ltSigned ltSigned_iff
  case ble => exact State.branch_onlyMovesPc hread.swap imm (fun a b => leSigned b a) leSigned_iff
  case bgtu => exact State.branch_onlyMovesPc hread.swap imm ltUnsigned ltUnsigned_iff
  case bleu => exact State.branch_onlyMovesPc hread.swap imm (fun a b => leUnsigned b a) leUnsigned_iff

end Sys2Proof.Machine
end
